-- ==== Sys2Proof/Word.lean ====
section
/-! DEFINITION. The word types of the block: the widths 00_scope.md R9 names. -/

namespace Sys2Proof

/-- `u8`: a byte of a frame, a buffer or a name. -/
abbrev Byte := BitVec 8

/-- `u16`: a host command word (30_encoding.md R100). -/
abbrev CmdWord := BitVec 16

/-- `u32`: an index of a descriptor (30_encoding.md R103). -/
abbrev Index := BitVec 32

/-- An element word of `OPD_DATA` (30_encoding.md R104): u64 for Float64.
For Int32 the u32 word stands in bits 31:0 of the lane (log 16, DESIGN CHOICE, safe). -/
abbrev Elem := BitVec 64

end Sys2Proof
end

