-- ==== Sys2Proof/Config.lean ====
section
/-! DEFINITION. The constants of 00_scope.md R7, the fixed parameters of R8, and its OPEN parameters as constants without a
body (10_state.md R44: configuration is no state; log 10, log 20). -/

namespace Sys2Proof.Config

/-- FRAME_START and FRAME_END of a request frame (R7, 30_encoding.md R105). -/
abbrev frameStart : Byte := 0xD3
abbrev frameEnd : Byte := 0xD6

/-- ERR_START and ERR_END of the Shape A error frame (R7, 30_encoding.md R109). -/
abbrev errStart : Byte := 0xE3
abbrev errEnd : Byte := 0xE6

/-- REPLY_START and REPLY_END of a data reply (R8, 30_encoding.md R107). -/
abbrev replyStart : Byte := 0xE3
abbrev replyEnd : Byte := 0xE6

/-- MAX_PACKET_DATA, MAX_PACKET_SIZE (R7). -/
abbrev maxPacketData : Nat := 1400
abbrev maxPacketSize : Nat := 1405

/-- HDR_LEN, TRL_LEN, ACK_LEN (R7). -/
abbrev hdrLen : Nat := 4
abbrev trlLen : Nat := 1
abbrev ackLen : Nat := 2

/-- SLICE_WRAP (R7): the write slice index runs over 0 .. 9. -/
abbrev sliceWrap : Nat := 10

/-- DSB_F64, DSB_I32, ESIZE_F64, ESIZE_I32 (R7, 40_frame_codec.md R152). -/
abbrev dsbF64 : Byte := 0x08
abbrev dsbI32 : Byte := 0x04
abbrev esizeF64 : Nat := 8
abbrev esizeI32 : Nat := 4

/-- The eight wire opcodes the source names (R7, 30_encoding.md R117). -/
abbrev opcRdShortF64 : Byte := 0xF0
abbrev opcRdLongF64 : Byte := 0x41
abbrev opcRdslF64 : Byte := 0x42
abbrev opcRdShortI32 : Byte := 0xF1
abbrev opcRdLongI32 : Byte := 0x44
abbrev opcRdslI32 : Byte := 0x45
abbrev opcWrShortF64 : Byte := 0xF2
abbrev opcWrLongF64 : Byte := 0x37

/-- CR and QMARK (R7). -/
abbrev cr : Byte := 0x0D
abbrev qmark : Byte := 0x3F

/-- READ_MAX_SLICE, MAX_INDEX, MAX_ELEMENTS, OUTBUF_SIZE (R8). -/
abbrev readMaxSlice : Nat := 9
abbrev maxIndex : Nat := 2147483647
abbrev maxElements : Nat := 2147483647
abbrev outbufSize : Nat := 14000

/-- ACK_BYTE, OPEN (R8, 92_eei_decisions.md D6; log 10). -/
opaque ackByte : Byte

/-- OPC_WR_SHORT_I32 and OPC_WR_LONG_I32, OPEN (R8, D13; log 10): `none` is "not configured". -/
opaque opcWrShortI32 : Option Byte
opaque opcWrLongI32 : Option Byte

/-- The values of T_CMD, T_ARRAY and T_ACK, OPEN (R8, D5; log 10), in this order for 0, 1, 2. The block passes the setting by its name
(`Sys2Proof.Machine.Timeout`) and never interprets its value. -/
opaque timeoutValue : Fin 3 → Nat

end Sys2Proof.Config
end

