-- ==== Sys2Proof/Syntax.lean ====
section
/-! DEFINITION. The instruction set (00_scope.md R2): the host commands of 30_encoding.md R101, the illegal command words of R102, and
the wire opcodes of R117, with the operand records of R103 and R104. One constructor per row of spec/opcode_table.json. -/

namespace Sys2Proof

/-- The element kind, `KIND` (30_encoding.md R100). -/
inductive Kind where
  | float64
  | int32
deriving DecidableEq, Repr

/-- The reply path, `PATH` (30_encoding.md R100): an array-read reply, or a non-acknowledged write reply. -/
inductive Path where
  | read
  | nak
deriving DecidableEq, Repr

/-- The fields of a legal command word beside `OP` (30_encoding.md R100). Every command carries all three; one that does
not use a field ignores it, whatever its value. -/
structure Fields where
  kind : Kind
  path : Path
  slice : BitVec 8
deriving DecidableEq, Repr

/-- The descriptor record `OPD_DESC` (30_encoding.md R103). `d2s` and `d2e` are ignored when `hasD2` is false. -/
structure Descriptor where
  name : List Byte
  d1s : Index
  d1e : Index
  hasD2 : Bool
  d2s : Index
  d2e : Index
deriving DecidableEq, Repr

/-- The descriptor record with an empty name and zeros. -/
def Descriptor.empty : Descriptor :=
  { name := [], d1s := 0, d1e := 0, hasD2 := false, d2s := 0, d2e := 0 }

/-- A command as the host offers it (41_slicer_continuation.md R202): the command word and the operand records of
30_encoding.md R103 and R104. -/
structure Offer where
  cmdw : CmdWord
  desc : Descriptor
  data : List Elem
  buf : List Byte
deriving DecidableEq, Repr

/-- The instructions. The first seven are the legal command words, `illegal` is every other command word, the last ten
are the wire opcodes, whose operands are the registers of the transfer in progress (log 13). -/
inductive Instr where
  | encRd (f : Fields)
  | encRdsl (f : Fields)
  | encWr (f : Fields)
  | decErr (f : Fields)
  | planWr (f : Fields)
  | xferRd (f : Fields)
  | xferWr (f : Fields)
  | illegal (w : CmdWord)
  | rdShortF64
  | rdLongF64
  | rdslF64
  | rdShortI32
  | rdLongI32
  | rdslI32
  | wrShortF64
  | wrLongF64
  | wrShortI32
  | wrLongI32
deriving DecidableEq, Repr

end Sys2Proof
end

