-- ==== Sys2Proof/WellFormed.lean ====
section
/-! DEFINITION. What an instruction and an offered command must satisfy to be encodable: the checks of 30_encoding.md R102, R104, R117. -/

namespace Sys2Proof

/-- 30_encoding.md R102: the word spells no command (`OP = 0`, or a reserved bit of `[7:5]` is set). -/
def illegalWord (w : CmdWord) : Bool :=
  w.extractLsb' 0 3 == 0#3 || w.extractLsb' 5 3 != 0#3

/-- The eight opcodes of 30_encoding.md R117 that the source names. -/
def namedOpcodes : List Byte :=
  [Config.opcRdShortF64, Config.opcRdLongF64, Config.opcRdslF64, Config.opcRdShortI32, Config.opcRdLongI32,
    Config.opcRdslI32, Config.opcWrShortF64, Config.opcWrLongF64]

/-- The Int32 write opcodes can be told from the named ones and from each other (log 22). -/
def int32OpcodesDistinct (opS opL : Byte) : Bool :=
  !namedOpcodes.contains opS && !namedOpcodes.contains opL && opS != opL

/-- An instruction has an encoding: `illegal` carries an illegal word, and an Int32 write opcode is configured
(40_frame_codec.md R160) and is no other opcode's byte. -/
def Instr.wf : Instr → Bool
  | .encRd _ => true
  | .encRdsl _ => true
  | .encWr _ => true
  | .decErr _ => true
  | .planWr _ => true
  | .xferRd _ => true
  | .xferWr _ => true
  | .illegal w => illegalWord w
  | .rdShortF64 => true
  | .rdLongF64 => true
  | .rdslF64 => true
  | .rdShortI32 => true
  | .rdLongI32 => true
  | .rdslI32 => true
  | .wrShortF64 => true
  | .wrLongF64 => true
  | .wrShortI32 =>
    match Config.opcWrShortI32, Config.opcWrLongI32 with
    | some a, some b => int32OpcodesDistinct a b
    | _, _ => false
  | .wrLongI32 =>
    match Config.opcWrShortI32, Config.opcWrLongI32 with
    | some a, some b => int32OpcodesDistinct a b
    | _, _ => false

/-- What the host port can carry (30_encoding.md R104): a buffer of at most 1405 bytes, and u32 element words when `KIND` is Int32. -/
def Offer.wf (o : Offer) : Bool :=
  decide (o.buf.length ≤ Config.maxPacketSize) &&
    (!o.cmdw.getLsbD 3 || o.data.all (fun v => decide (v.toNat < 4294967296)))

end Sys2Proof
end

