-- ==== Sys2Proof/Decode.lean ====
section
/-! DEFINITION. Decoding and encoding: the host command word (30_encoding.md R100 to R102), the wire opcode byte (R117), and the
request frame around it (R105, R120). Every decoder is total and rejects by name. -/

namespace Sys2Proof

/-- Why bytes are no instruction. -/
inductive DecodeError where
  /-- neither one opcode byte nor a two-byte command word -/
  | length (n : Nat)
  /-- no wire opcode of 30_encoding.md R117 -/
  | unknownOpcode (b : Byte)
  /-- a request frame must begin with 0xD3 -/
  | startMarker
  /-- fewer bytes than the frame's length field asks for -/
  | truncated
  /-- the byte after the body must be 0xD6 -/
  | endMarker
deriving DecidableEq, Repr

/-- `KIND`, bit 3 (R100). -/
def cmdKind (w : CmdWord) : Kind := if w.getLsbD 3 then .int32 else .float64

/-- `PATH`, bit 4 (R100). -/
def cmdPath (w : CmdWord) : Path := if w.getLsbD 4 then .nak else .read

/-- `OP`, bits 2:0 (R100). -/
def cmdOp (w : CmdWord) : BitVec 3 := w.extractLsb' 0 3

/-- `SLICE`, bits 15:8 (R100). -/
def cmdSlice (w : CmdWord) : BitVec 8 := w.extractLsb' 8 8

/-- The fields of a command word beside `OP`. -/
def cmdFields (w : CmdWord) : Fields := { kind := cmdKind w, path := cmdPath w, slice := cmdSlice w }

/-- The command word, decoded (R101); every word that spells no command is `illegal` (R102). -/
def decodeCommand (w : CmdWord) : Instr :=
  if illegalWord w then .illegal w
  else
    match (cmdOp w).toNat with
    | 1 => .encRd (cmdFields w)
    | 2 => .encRdsl (cmdFields w)
    | 3 => .encWr (cmdFields w)
    | 4 => .decErr (cmdFields w)
    | 5 => .planWr (cmdFields w)
    | 6 => .xferRd (cmdFields w)
    | 7 => .xferWr (cmdFields w)
    | _ => .illegal w

/-- A wire opcode, decoded (R117). The named opcodes come first (log 22). -/
def decodeOpcode (b : Byte) : Except DecodeError Instr :=
  if b = Config.opcRdShortF64 then .ok .rdShortF64
  else if b = Config.opcRdLongF64 then .ok .rdLongF64
  else if b = Config.opcRdslF64 then .ok .rdslF64
  else if b = Config.opcRdShortI32 then .ok .rdShortI32
  else if b = Config.opcRdLongI32 then .ok .rdLongI32
  else if b = Config.opcRdslI32 then .ok .rdslI32
  else if b = Config.opcWrShortF64 then .ok .wrShortF64
  else if b = Config.opcWrLongF64 then .ok .wrLongF64
  else if some b = Config.opcWrShortI32 then .ok .wrShortI32
  else if some b = Config.opcWrLongI32 then .ok .wrLongI32
  else .error (.unknownOpcode b)

/-- An instruction from its bytes: one byte is a wire opcode, two bytes are a command word, low byte first (the model's choice, log 25). -/
def decode : List Byte → Except DecodeError Instr
  | [b] => decodeOpcode b
  | [b0, b1] => .ok (decodeCommand (b1 ++ b0))
  | bs => .error (.length bs.length)

/-- A request frame (R105) from the front of a byte sequence: its wire opcode, its body, and the bytes after it. The frame is
`5 + rdle(f, 2, 2)` bytes long (R120). -/
def decodeFrame : List Byte → Except DecodeError (Instr × List Byte × List Byte)
  | s :: opc :: l0 :: l1 :: rest =>
    if s ≠ Config.frameStart then .error .startMarker
    else
      let n := l0.toNat + 256 * l1.toNat
      match rest.drop n with
      | [] => .error .truncated
      | e :: after =>
        if e ≠ Config.frameEnd then .error .endMarker
        else
          match decodeOpcode opc with
          | .error x => .error x
          | .ok i => .ok (i, rest.take n, after)
  | _ => .error .truncated

/-- `KIND` as its bit (R100). -/
def kindBit : Kind → BitVec 1
  | .float64 => 0
  | .int32 => 1

/-- `PATH` as its bit (R100). -/
def pathBit : Path → BitVec 1
  | .read => 0
  | .nak => 1

/-- The fields of a command word (R100), most significant first: `SLICE`, the reserved bits, `PATH`, `KIND`, `OP`. -/
def commandBits (op : BitVec 3) (f : Fields) : BitVec (8 + (3 + (1 + (1 + 3)))) :=
  f.slice ++ (0#3 ++ (pathBit f.path ++ (kindBit f.kind ++ op)))

/-- The command word of `OP` and the fields (R100, R121): `OP | KIND << 3 | PATH << 4 | SLICE << 8`. -/
def commandWord (op : BitVec 3) (f : Fields) : CmdWord := commandBits op f

/-- A command word as its two bytes, low byte first. The spec gives the word on the host port (R100) and no byte order for it, since nothing
fetches it (20_memory.md R76, R84): the order is the model's choice (log 25, DESIGN CHOICE). -/
def wordBytes (w : CmdWord) : List Byte := [w.extractLsb' 0 8, w.extractLsb' 8 8]

/-- The command word of a host command; a wire opcode has none. -/
def Instr.command : Instr → Option CmdWord
  | .encRd f => some (commandWord 1 f)
  | .encRdsl f => some (commandWord 2 f)
  | .encWr f => some (commandWord 3 f)
  | .decErr f => some (commandWord 4 f)
  | .planWr f => some (commandWord 5 f)
  | .xferRd f => some (commandWord 6 f)
  | .xferWr f => some (commandWord 7 f)
  | .illegal w => some w
  | .rdShortF64 => none
  | .rdLongF64 => none
  | .rdslF64 => none
  | .rdShortI32 => none
  | .rdLongI32 => none
  | .rdslI32 => none
  | .wrShortF64 => none
  | .wrLongF64 => none
  | .wrShortI32 => none
  | .wrLongI32 => none

/-- The opcode byte of a wire opcode (R117); a host command has none, nor has an Int32 write that is not configured. -/
def Instr.opcode : Instr → Option Byte
  | .encRd _ => none
  | .encRdsl _ => none
  | .encWr _ => none
  | .decErr _ => none
  | .planWr _ => none
  | .xferRd _ => none
  | .xferWr _ => none
  | .illegal _ => none
  | .rdShortF64 => some Config.opcRdShortF64
  | .rdLongF64 => some Config.opcRdLongF64
  | .rdslF64 => some Config.opcRdslF64
  | .rdShortI32 => some Config.opcRdShortI32
  | .rdLongI32 => some Config.opcRdLongI32
  | .rdslI32 => some Config.opcRdslI32
  | .wrShortF64 => some Config.opcWrShortF64
  | .wrLongF64 => some Config.opcWrLongF64
  | .wrShortI32 => Config.opcWrShortI32
  | .wrLongI32 => Config.opcWrLongI32

/-- The bytes of an instruction: a command word low byte first (the model's choice, log 25), or one opcode byte. -/
def encode (i : Instr) : List Byte :=
  match i.command, i.opcode with
  | some w, _ => wordBytes w
  | none, some b => [b]
  | none, none => []

/-- The instruction of a table row's bits (log 15). Every legal command word has 0 in bits 7:5 and every named wire opcode has not, so a
row of one byte is the low byte of a command word (whose high byte is 0) when those bits are 0, and a wire opcode otherwise; a
longer row is a command word. -/
def decodeTableWord (nbits w : Nat) : Option Instr :=
  let bytes : List Byte :=
    if nbits ≤ 8 then
      if (BitVec.ofNat 8 w).extractLsb' 5 3 = 0#3 then [BitVec.ofNat 8 w, 0#8] else [BitVec.ofNat 8 w]
    else [BitVec.ofNat 8 w, BitVec.ofNat 8 (w / 256)]
  match decode bytes with
  | .ok i => some i
  | .error _ => none

end Sys2Proof
end

