-- ==== Sys2Proof/Machine/State.lean ====
section
/-! DEFINITION. The state of the block (10_state.md), the requests and responses of its transport port (41_slicer_continuation.md
R200), the reasons a step can stop, and the state after reset (R47). -/

namespace Sys2Proof.Machine

open Sys2Proof

/-- A byte buffer (20_memory.md R70): (index, byte) cells, indices strictly rising; an index that is not listed has
no value (log 8). -/
abbrev Memory := List Host.Cell

/-- `PHASE` (10_state.md R31). -/
inductive Phase where
  | idle
  | exec
  | wEosSave
  | wEosClear
  | wFlush
  | wTx
  | wRxData
  | wRxAck
  | wRxTail
  | wEosRestore
deriving DecidableEq, Repr

/-- `STATUS` (10_state.md R34). The reserved value 7 is never written and has no constructor (93_implementation_defined.md I11). -/
inductive Status where
  | ok
  | transport
  | controller
  | malformed
  | protocolLimit
  | argument
  | unsupported
deriving DecidableEq, Repr

/-- The status of a transport response (41_slicer_continuation.md R200). -/
inductive XStatus where
  | ok
  | timeout
  | error
deriving DecidableEq, Repr

/-- The timeout settings of R201, by name: the block passes them and never interprets their value (log 10). -/
inductive Timeout where
  | tCmd
  | tArray
  | tAck
deriving DecidableEq, Repr

/-- A transport end-of-string configuration, opaque to the block (10_state.md R41; log 17). -/
abbrev EosCfg := Nat

/-- The requests of the transport port (41_slicer_continuation.md R200). -/
inductive Request where
  | write (bytes : List Byte) (t : Timeout)
  | read (max : Nat) (t : Timeout)
  | flush
  | eosSave
  | eosClear
  | eosRestore (cfg : EosCfg)
deriving DecidableEq, Repr

/-- The responses of the transport port (R200): a status alone (to Write, Flush, EosClear, EosRestore), bytes and a status (to
Read), a configuration and a status (to EosSave). -/
inductive Response where
  | done (st : XStatus)
  | bytes (b : List Byte) (st : XStatus)
  | eos (cfg : EosCfg) (st : XStatus)
deriving DecidableEq, Repr

/-- One chunk of a write plan, each field at the width of 43_slice_wrap_tracker.md R280. -/
structure ChunkRecord where
  segBase : BitVec 32
  segDesc : Descriptor
  slice : BitVec 4
  offset : BitVec 32
  count : BitVec 32
  opcode : Byte
  rem : BitVec 32
  outBytes : BitVec 16
deriving DecidableEq, Repr

/-- The command latches (10_state.md R32). `OP`, `KIND`, `PATH`, `SLICE` are read from `cmdw`. -/
structure Latches where
  cmdw : CmdWord
  desc : Descriptor
  data : List Elem
  buf : List Byte
deriving DecidableEq, Repr

/-- The read-path slice state, `RD_*`, at the widths of 10_state.md R38. The rules compute with exact numbers (00_scope.md R9), and what
they write is cut to the register's width (log 9). -/
structure ReadRegs where
  slice : BitVec 4
  dataBytes : BitVec 16
  bytesRead : BitVec 16
  remain : BitVec 16
  expected : BitVec 16
  cont : Bool
deriving DecidableEq, Repr

/-- The write-path chunk state and the wrap tracker, `WT_*`, at the widths of 10_state.md R39 (log 9). -/
structure WriteRegs where
  slice : BitVec 4
  chunk : BitVec 32
  offset : BitVec 32
  remsl : BitVec 32
  segBase : BitVec 32
  segDesc : Descriptor
  m : BitVec 32
  p : BitVec 32
  sent : BitVec 32
  total : BitVec 32
deriving DecidableEq, Repr

/-- The result registers, `RES_*` (10_state.md R43). `none` is the spec's "no value" (R48). -/
structure Results where
  frame : Option (List Byte)
  expected : Option (BitVec 16)
  dataBytes : Option (BitVec 64)
  outBytes : Option (BitVec 16)
  inBytes : Option (BitVec 16)
  elems : Option (BitVec 32)
  remsl : Option (BitVec 32)
  cls : Option (BitVec 2)
  code : Option (BitVec 16)
  plan : Option (List ChunkRecord)
deriving DecidableEq, Repr

/-- Every result register with no value (R47, R48). -/
def Results.none : Results :=
  { frame := Option.none, expected := Option.none, dataBytes := Option.none, outBytes := Option.none,
    inBytes := Option.none, elems := Option.none, remsl := Option.none, cls := Option.none, code := Option.none,
    plan := Option.none }

/-- What a host can read (70_reset_and_hazards.md R343). -/
inductive HostReg where
  | statusw
  | resFrame
  | resExpected
  | resDataBytes
  | resOutBytes
  | resInBytes
  | resElems
  | resRemsl
  | resClass
  | resCode
  | resPlan
  | outbuf
  | outlen
deriving DecidableEq, Repr

/-- What a host read returns: a word, a byte sequence or a plan. -/
inductive HostValue where
  | word (v : BitVec 64)
  | bytes (b : List Byte)
  | plan (p : List ChunkRecord)
deriving DecidableEq, Repr

/-- The state. The first part is the spec's registers (10_state.md), in its order; `finStatus`, `finCode`, `ackHead` are what
`finish` and `nakTail` hold across their `await` (log 11); `issued` is the run's transport requests, oldest first (log 12);
`rst`, `hostRead`, `hostData`, `offered`, `responses` are the host port and the transport port (log 2, 4, 5, 6). -/
structure State where
  phase : Phase
  status : Status
  done : Bool
  diagEcho : Bool
  diagLegacy : Bool
  diagContEnd : Bool
  errcode : BitVec 16
  latch : Latches
  rd : ReadRegs
  wt : WriteRegs
  txbuf : Memory
  txlen : BitVec 16
  rxbuf : Memory
  rxlen : BitVec 16
  outbuf : Memory
  outlen : Option (BitVec 16)
  eosSaved : EosCfg
  eosHeld : Bool
  lastOpc : Byte
  res : Results
  finStatus : Status
  finCode : Nat
  ackHead : List Byte
  issued : List Request
  rst : Bool
  hostRead : Option HostReg
  hostData : Option HostValue
  offered : List Offer
  responses : List Response
deriving DecidableEq, Repr

/-- Why a step stops although the machine was not refused an instruction. Every one is safe: the model stops. -/
inductive Fault where
  /-- A host read of a result register while no completed run stands (`DONE = 0`), raised by `hostReadStep`; the spec asks for
  a fault (10_state.md R48, 70_reset_and_hazards.md R343). Safe. -/
  | earlyRead
  /-- A host read of a result register that holds no value, raised by `hostReadStep`; the spec asks for a fault (10_state.md R48). Safe. -/
  | noValue
  /-- A transport response outside the shapes of 41_slicer_continuation.md R200 for the request it answers, raised by `handle` (log 3). Safe. -/
  | transportShape
  /-- An offered command whose operand records the host port cannot carry (30_encoding.md R104), raised by `fetchCommand` (log 4). Safe. -/
  | badOffer
  /-- A buffer index at or beyond the buffer's capacity (20_memory.md R70), raised by the buffer writes (log 19). Safe. -/
  | bufferIndex
  /-- `PHASE = EXEC` with no transfer command latched, so no frame to send, raised by `runWire` (log 19); no run reaches it. Safe. -/
  | noFrame
deriving DecidableEq, Repr

/-- Why an instruction has no meaning. -/
inductive Refusal where
  /-- An instruction without a meaning yet, raised by an arm of `exec` only. Safe. -/
  | notModelled (mnemonic : String)
deriving DecidableEq, Repr

/-- What a step or a meaning answers. -/
abbrev Answer := Host.Outcome State Fault Refusal

/-- The latches as the model resets them (log 7, DESIGN CHOICE, unsafe: R47 leaves them unspecified). -/
def Latches.reset : Latches := { cmdw := 0, desc := Descriptor.empty, data := [], buf := [] }

/-- The `RD_*` registers as the model resets them (log 7, DESIGN CHOICE, unsafe). -/
def ReadRegs.reset : ReadRegs :=
  { slice := 0, dataBytes := 0, bytesRead := 0, remain := 0, expected := 0, cont := false }

/-- The `WT_*` registers as the model resets them (log 7, DESIGN CHOICE, unsafe). -/
def WriteRegs.reset : WriteRegs :=
  { slice := 0, chunk := 0, offset := 0, remsl := 0, segBase := 0, segDesc := Descriptor.empty, m := 0, p := 0,
    sent := 0, total := 0 }

/-- The state after reset (10_state.md R47, 70_reset_and_hazards.md R340, R341): nothing offered, nothing on the ports. -/
def State.reset : State :=
  { phase := .idle, status := .ok, done := false, diagEcho := false, diagLegacy := false, diagContEnd := false,
    errcode := 0, latch := Latches.reset, rd := ReadRegs.reset, wt := WriteRegs.reset, txbuf := [], txlen := 0,
    rxbuf := [], rxlen := 0, outbuf := [], outlen := some 0, eosSaved := 0, eosHeld := false, lastOpc := 0,
    res := Results.none, finStatus := .ok, finCode := 0, ackHead := [], issued := [], rst := false,
    hostRead := none, hostData := none, offered := [], responses := [] }

end Sys2Proof.Machine
end

