-- ==== Sys2Proof/Machine/Bytes.lean ====
section
/-! DEFINITION. The byte and text helpers of 00_scope.md R10 and R11. -/

namespace Sys2Proof.Machine

open Sys2Proof

/-- `b[i]` (R10). Every rule reads it below `|b|`, where it is the byte there. -/
def byteAt (b : List Byte) (i : Nat) : Byte := b.getD i 0

/-- `b[i..j)` (R10). -/
def bytesFrom (b : List Byte) (i j : Nat) : List Byte := (b.drop i).take (j - i)

/-- The `n` low bytes of `v`, least significant first: `le16`, `le32`, `le64` for `n` = 2, 4, 8 (R11). -/
def leBytes : Nat → Nat → List Byte
  | 0, _ => []
  | n + 1, v => BitVec.ofNat 8 v :: leBytes n (v / 256)

/-- `rdle(b, i, n)` (R11). -/
def rdle (b : List Byte) (i : Nat) : Nat → Nat
  | 0 => 0
  | n + 1 => (byteAt b i).toNat + 256 * rdle b (i + 1) n

/-- `digit(k)`, for `k ≤ 9` (R11). -/
def digit (k : Nat) : Byte := BitVec.ofNat 8 (0x30 + k)

/-- `isdigit(x)` (R11). -/
def isDigit (x : Byte) : Bool := decide (0x30 ≤ x.toNat) && decide (x.toNat ≤ 0x39)

/-- `dval(x)` (R11). -/
def dval (x : Byte) : Nat := x.toNat - 0x30

/-- `dec` with a bound on the digits still to write; a bound above the number's own digit count is never used up. -/
def decUpTo : Nat → Nat → List Byte
  | 0, _ => []
  | f + 1, n => if n < 10 then [digit n] else decUpTo f (n / 10) ++ [digit (n % 10)]

/-- `dec(n)`: decimal ASCII, shortest form (R11). -/
def dec (n : Nat) : List Byte := decUpTo (n + 1) n

end Sys2Proof.Machine
end

