-- ==== Sys2Proof/Machine/Operands.lean ====
section
/-! DEFINITION. The operand forms: descriptors (30_encoding.md R103, R119, 40_frame_codec.md R150 to R152), element data (20_memory.md
R74), the operand records the host offers, and the latched operands as views of the latches (10_state.md R32). -/

namespace Sys2Proof.Machine

open Sys2Proof

/-- `ascii(d)` (30_encoding.md R119): `name(d1s,d1e)` and, when the second dimension is given, `(d2s,d2e)`. -/
def ascii (d : Descriptor) : List Byte :=
  d.name ++ [0x28] ++ dec d.d1s.toNat ++ [0x2C] ++ dec d.d1e.toNat ++ [0x29] ++
    (if d.hasD2 then [0x28] ++ dec d.d2s.toNat ++ [0x2C] ++ dec d.d2e.toNat ++ [0x29] else [])

/-- `asciiLen(d)` (40_frame_codec.md R150). -/
def asciiLen (d : Descriptor) : Nat := (ascii d).length

/-- A byte a variable name may hold (R151, condition 1): `A-Z`, `a-z`, `0-9`, `_`. -/
def nameByte (c : Byte) : Bool :=
  (decide (0x41 ≤ c.toNat) && decide (c.toNat ≤ 0x5A)) || (decide (0x61 ≤ c.toNat) && decide (c.toNat ≤ 0x7A)) ||
    isDigit c || c == 0x5F

/-- `numElements(d)` (R152). -/
def numElements (d : Descriptor) : Nat :=
  (d.d1e.toNat - d.d1s.toNat + 1) * (if d.hasD2 then d.d2e.toNat - d.d2s.toNat + 1 else 1)

/-- `validDesc(d, forRead)` (R151), its five conditions in order. -/
def validDesc (d : Descriptor) (forRead : Bool) : Bool :=
  (decide (1 ≤ d.name.length) && d.name.all nameByte) &&
  (decide (d.d1s.toNat ≤ d.d1e.toNat) && decide (d.d1e.toNat ≤ Config.maxIndex)) &&
  (!d.hasD2 || (decide (d.d2s.toNat ≤ d.d2e.toNat) && decide (d.d2e.toNat ≤ Config.maxIndex))) &&
  decide (numElements d ≤ Config.maxElements) &&
  (!forRead || decide (asciiLen d ≤ Config.maxPacketData - 6))

/-- `esize(K)` (R152). -/
def esize : Kind → Nat
  | .float64 => Config.esizeF64
  | .int32 => Config.esizeI32

/-- `dsb(K)` (R152, 30_encoding.md R116). -/
def dsb : Kind → Byte
  | .float64 => Config.dsbF64
  | .int32 => Config.dsbI32

/-- `dataBytes(d, K)` (R152). -/
def dataBytes (d : Descriptor) (k : Kind) : Nat := numElements d * esize k

/-- One element word on the wire, little-endian: `le64` or `le32` (20_memory.md R74; log 16). -/
def elemBytes (k : Kind) (v : Elem) : List Byte := leBytes (esize k) v.toNat

/-- `LE(s)`: element words on the wire, in order and without padding (20_memory.md R74, 40_frame_codec.md R157). -/
def dataField (k : Kind) (l : List Elem) : List Byte := l.flatMap (elemBytes k)

/-- `shift(d, base)` (43_slice_wrap_tracker.md R282). -/
def shift (d : Descriptor) (base : Nat) : Descriptor := { d with d1s := BitVec.ofNat 32 (d.d1s.toNat + base) }

/-- `d2spans(d)` (43_slice_wrap_tracker.md R282). -/
def d2spans (d : Descriptor) : Bool := d.hasD2 && decide (d.d2s.toNat < d.d2e.toNat)

/-- The operand records at the host port: those of the command offered first. With no command offered they are empty (log 4). -/
def portOperands (s : State) : Offer :=
  s.offered.headD { cmdw := 0, desc := Descriptor.empty, data := [], buf := [] }

/-- `OP` as latched (10_state.md R32). -/
def latchOp (s : State) : BitVec 3 := cmdOp s.latch.cmdw

/-- `KIND` as latched (10_state.md R32). -/
def latchKind (s : State) : Kind := cmdKind s.latch.cmdw

/-- `PATH` as latched (10_state.md R32). -/
def latchPath (s : State) : Path := cmdPath s.latch.cmdw

/-- `SLICE` as latched (10_state.md R32). -/
def latchSlice (s : State) : BitVec 8 := cmdSlice s.latch.cmdw

end Sys2Proof.Machine
end

