-- ==== Sys2Proof/Machine/Flags.lean ====
section
/-! DEFINITION. The flags: STATUSW and its fields (10_state.md R33, R34), the diagnostic bits (R36), the continuation flag and the
15-bit reply length (R46, 30_encoding.md R107). -/

namespace Sys2Proof.Machine

open Sys2Proof

/-- The value of a status (10_state.md R34). -/
def statusCode : Status → BitVec 3
  | .ok => 0
  | .transport => 1
  | .controller => 2
  | .malformed => 3
  | .protocolLimit => 4
  | .argument => 5
  | .unsupported => 6

/-- `BUSY` is 1 exactly when `PHASE ≠ IDLE` (10_state.md R33). -/
def busy (s : State) : Bool := decide (s.phase ≠ .idle)

/-- The fields of `STATUSW` (10_state.md R33), most significant first: ERRCODE, eight hardwired zeros, DIAG_CONT_END, DIAG_LEGACY,
DIAG_ECHO, BUSY, DONE, STATUS. -/
def statuswFields (s : State) : BitVec (16 + (8 + (1 + (1 + (1 + (1 + (1 + 3))))))) :=
  s.errcode ++ (0#8 ++ (BitVec.ofBool s.diagContEnd ++ (BitVec.ofBool s.diagLegacy ++ (BitVec.ofBool s.diagEcho ++
    (BitVec.ofBool (busy s) ++ (BitVec.ofBool s.done ++ statusCode s.status))))))

/-- `STATUSW` (10_state.md R33). -/
def statusw (s : State) : BitVec 32 := statuswFields s

/-- `cont(r) = r[3][7]` (10_state.md R46). -/
def contFlag (r : List Byte) : Bool := (byteAt r 3).getLsbD 7

/-- `rdle(r, 2, 2)[14:0]`: the body length a data reply states (30_encoding.md R107, 90_conflicts.md C6). -/
def replyLength (r : List Byte) : Nat := rdle r 2 2 % 32768

/-- The echo check of an acknowledged chunk (41_slicer_continuation.md R211): a wrong echo sets `DIAG_ECHO` and nothing else. -/
def noteEcho (echo : Byte) (s : State) : State := if echo ≠ s.lastOpc then { s with diagEcho := true } else s

/-- The legacy error shape sets `DIAG_LEGACY` (42_error_classifier.md R253). -/
def noteLegacy (legacy : Bool) (s : State) : State := if legacy then { s with diagLegacy := true } else s

/-- A continuation bit still set at the end sets `DIAG_CONT_END` (41_slicer_continuation.md R206). -/
def noteContEnd (s : State) : State := if s.rd.cont then { s with diagContEnd := true } else s

end Sys2Proof.Machine
end

