-- ==== Sys2Proof/Machine/Ops.lean ====
section
/-! DEFINITION. The shared operations: buffers (20_memory.md R70), transport requests (41_slicer_continuation.md R200), acceptance (R202),
completion and raising an error (R203, 60_exceptions.md R308), host reads (70_reset_and_hazards.md R343) and reset (R340). -/

namespace Sys2Proof.Machine

open Sys2Proof

/-- The byte at an index, if one was written. -/
def Memory.load (m : Memory) (a : Nat) : Option Byte := (m.find? (fun c => c.1 == a)).map (·.2)

/-- `MemRead(addr, n)` (20_memory.md R70): `none` if some byte of the range holds no value. -/
def Memory.loadBytes (m : Memory) (a : Nat) : Nat → Option (List Byte)
  | 0 => some []
  | n + 1 =>
    match Memory.load m a, Memory.loadBytes m (a + 1) n with
    | some b, some bs => some (b :: bs)
    | _, _ => none

/-- The cells of a byte sequence laid down from an index on. -/
def cellsFrom (a : Nat) : List Byte → Memory
  | [] => []
  | b :: bs => (a, b) :: cellsFrom (a + 1) bs

/-- The cells after bytes were written from index `a` on: the cells below, the bytes, the cells above. -/
def Memory.store (m : Memory) (a : Nat) (bs : List Byte) : Memory :=
  m.filter (fun c => decide (c.1 < a)) ++ cellsFrom a bs ++ m.filter (fun c => decide (a + bs.length ≤ c.1))

/-- `MemWrite(addr, n, v)` into a buffer of `cap` bytes (20_memory.md R70): `none` at an index at or beyond the capacity. -/
def memWrite (cap : Nat) (m : Memory) (a : Nat) (bs : List Byte) : Option Memory :=
  if a + bs.length ≤ cap then some (Memory.store m a bs) else none

/-- The canonical form: indices strictly rising. -/
abbrev Memory.wf (m : Memory) : Prop := m.Pairwise (fun c d => c.1 < d.1)

/-- `TXBUF <- b; TXLEN <- |b|`, then go on (10_state.md R40). -/
def withTx (b : List Byte) (s : State) (k : State → Answer) : Answer :=
  match memWrite Config.maxPacketSize [] 0 b with
  | some m => k { s with txbuf := m, txlen := BitVec.ofNat 16 b.length }
  | none => .fault .bufferIndex

/-- `RXBUF <- b; RXLEN <- |b|`, then go on (10_state.md R40). -/
def withRx (b : List Byte) (s : State) (k : State → Answer) : Answer :=
  match memWrite Config.maxPacketSize [] 0 b with
  | some m => k { s with rxbuf := m, rxlen := BitVec.ofNat 16 b.length }
  | none => .fault .bufferIndex

/-- `MemWrite(OUTBUF, a, |b|, b)`, then go on (41_slicer_continuation.md R204). -/
def withOut (a : Nat) (b : List Byte) (s : State) (k : State → Answer) : Answer :=
  match memWrite Config.outbufSize s.outbuf a b with
  | some m => k { s with outbuf := m }
  | none => .fault .bufferIndex

/-- Issue a transport request and wait for its response in phase `p` (41_slicer_continuation.md R200, R213). -/
def issue (r : Request) (p : Phase) (s : State) : State := { s with phase := p, issued := s.issued ++ [r] }

/-- The end of a command: STATUS, ERRCODE, DONE = 1, PHASE = IDLE (the last four lines of `finish`, R203). -/
def complete (st : Status) (code : Nat) (s : State) : State :=
  { s with status := st, errcode := if st = .controller then BitVec.ofNat 16 code else 0, done := true, phase := .idle }

/-- `finish(st, code)` (R203) up to its `await`: with the EOS configuration held, `EosRestore` is issued and the arguments are kept for
its response (log 11); otherwise the command completes. -/
def finish (st : Status) (code : Nat) (s : State) : State :=
  if s.eosHeld then issue (.eosRestore s.eosSaved) .wEosRestore { s with finStatus := st, finCode := code }
  else complete st code s

/-- `raise E`, the one way a command takes an error (R203, 60_exceptions.md R308): `finish(E, 0)`. There is no return from
it: the next acceptance clears the status (60_exceptions.md R309). -/
def raise (e : Status) (s : State) : State := finish e 0 s

/-- `finish` after the response to `EosRestore` (R203): a failed restore turns OK into TRANSPORT and never replaces an error. -/
def finishRestored (st : XStatus) (s : State) : State :=
  let fin := if st ≠ .ok ∧ s.finStatus = .ok then .transport else s.finStatus
  complete fin s.finCode { s with eosHeld := false }

/-- Acceptance (R202): latch the command word and the operands at the port, clear STATUS, ERRCODE, DONE and the diagnostic bits, leave
every result register, OUTBUF and OUTLEN without a value. The run's request log starts empty (log 12). -/
def accept (w : CmdWord) (s : State) : State :=
  { s with
    latch := { cmdw := w, desc := (portOperands s).desc, data := (portOperands s).data, buf := (portOperands s).buf }
    status := .ok, errcode := 0, done := false
    diagEcho := false, diagLegacy := false, diagContEnd := false
    res := Results.none, outbuf := [], outlen := none
    phase := .exec
    issued := []
    offered := s.offered.tail }

/-- A host command: accepted and run when `PHASE = IDLE`, and otherwise held by the host, with nothing changed (R202). -/
def hostCommand (w : CmdWord) (s : State) (run : State → Answer) : Answer :=
  if s.phase = .idle then run (accept w s) else .next s

/-- `enterRaw()` up to its first `await` (R212). -/
def enterRaw (s : State) : State := issue .eosSave .wEosSave s

/-- The value a host read returns (10_state.md R43, R48): STATUSW always, a result register if it holds a value. -/
def hostValue (r : HostReg) (s : State) : Option HostValue :=
  match r with
  | .statusw => some (.word ((statusw s).setWidth 64))
  | .resFrame => s.res.frame.map .bytes
  | .resExpected => s.res.expected.map fun v => .word (v.setWidth 64)
  | .resDataBytes => s.res.dataBytes.map .word
  | .resOutBytes => s.res.outBytes.map fun v => .word (v.setWidth 64)
  | .resInBytes => s.res.inBytes.map fun v => .word (v.setWidth 64)
  | .resElems => s.res.elems.map fun v => .word (v.setWidth 64)
  | .resRemsl => s.res.remsl.map fun v => .word (v.setWidth 64)
  | .resClass => s.res.cls.map fun v => .word (v.setWidth 64)
  | .resCode => s.res.code.map fun v => .word (v.setWidth 64)
  | .resPlan => s.res.plan.map .plan
  | .outbuf => s.outlen.bind fun n => (Memory.loadBytes s.outbuf 0 n.toNat).map .bytes
  | .outlen => s.outlen.map fun n => .word (n.setWidth 64)

/-- A host read (70_reset_and_hazards.md R343): no side effect on the block; a result register read while no completed run stands, or one
that holds no value, faults (10_state.md R48; log 6). -/
def hostReadStep (r : HostReg) (s : State) : Answer :=
  if r ≠ .statusw ∧ s.done = false then .fault .earlyRead
  else
    match hostValue r s with
    | some v => .next { s with hostRead := none, hostData := some v }
    | none => .fault .noValue

/-- A transport request is outstanding: `PHASE` is one of the `W_*` phases (10_state.md R31). -/
def waiting : Phase → Bool
  | .idle => false
  | .exec => false
  | .wEosSave => true
  | .wEosClear => true
  | .wFlush => true
  | .wTx => true
  | .wRxData => true
  | .wRxAck => true
  | .wRxTail => true
  | .wEosRestore => true

/-- The responses still to come after RST: the transport port discards the one to a request made before (70_reset_and_hazards.md R340), so
it answers no later request. -/
def discardStale (s : State) : List Response := if waiting s.phase then s.responses.tail else s.responses

/-- RST (70_reset_and_hazards.md R340): every register takes its reset value, whatever was in progress; no request is issued, and the
response to the request outstanding is discarded. What the host holds, and the responses to later requests, stay theirs (log 5). -/
def resetBlock (s : State) : State :=
  { State.reset with offered := s.offered, responses := discardStale s, hostRead := s.hostRead, hostData := s.hostData }

end Sys2Proof.Machine
end

