-- ==== Sys2Proof/Machine/Codec.lean ====
section
/-! DEFINITION. The frame encoder (40_frame_codec.md, 30_encoding.md R105, R112 to R117) and the commands ENC_RD, ENC_RDSL, ENC_WR; and
the illegal command word (30_encoding.md R102). -/

namespace Sys2Proof.Machine

open Sys2Proof

/-- `Frame(opc, B)` (40_frame_codec.md R153). -/
def frame (opc : Byte) (body : List Byte) : List Byte :=
  [Config.frameStart, opc] ++ leBytes 2 body.length ++ body ++ [Config.frameEnd]

/-- `replySize(db, k)` (R155). -/
def replySize (db k : Nat) : Nat :=
  if db - k * Config.maxPacketData > Config.maxPacketData then Config.maxPacketSize
  else db - k * Config.maxPacketData + 5

/-- The read body `"%??" dsb ascii` (30_encoding.md R112). -/
def readBody (k : Kind) (d : Descriptor) : List Byte := [0x25, 0x3F, 0x3F] ++ [dsb k] ++ ascii d

/-- The slice-read body `"%" dec(n) "%??" dsb ascii` (30_encoding.md R113). -/
def sliceBody (n : Nat) (k : Kind) (d : Descriptor) : List Byte :=
  [0x25] ++ dec n ++ [0x25, 0x3F, 0x3F] ++ [dsb k] ++ ascii d

/-- The single-packet write body `"%>>" dsb ascii "/%" data` (30_encoding.md R114). -/
def singleBody (k : Kind) (d : Descriptor) (l : List Elem) : List Byte :=
  [0x25, 0x3E, 0x3E] ++ [dsb k] ++ ascii d ++ [0x2F, 0x25] ++ dataField k l

/-- The multi-packet write body `"%" digit(n) "%>>" dsb ascii "/%" data` (30_encoding.md R115). -/
def chunkBody (n : Nat) (k : Kind) (d : Descriptor) (l : List Elem) : List Byte :=
  [0x25] ++ [digit n] ++ [0x25, 0x3E, 0x3E] ++ [dsb k] ++ ascii d ++ [0x2F, 0x25] ++ dataField k l

/-- A read frame with its wire opcode, `expectedReplyBytes` and `dataBytes`. -/
structure ReadCmd where
  op : Instr
  frame : List Byte
  expected : Nat
  dataBytes : Nat
deriving DecidableEq, Repr

/-- The wire opcode of a first read, by kind and size class (30_encoding.md R117): `long` is `dataBytes > 1400`. -/
def readOp : Kind → Bool → Instr
  | .float64, true => .rdLongF64
  | .int32, true => .rdLongI32
  | .float64, false => .rdShortF64
  | .int32, false => .rdShortI32

/-- The opcode byte of `readOp`. -/
def readOpcode : Kind → Bool → Byte
  | .float64, true => Config.opcRdLongF64
  | .int32, true => Config.opcRdLongI32
  | .float64, false => Config.opcRdShortF64
  | .int32, false => Config.opcRdShortI32

/-- The wire opcode of a slice read, for every slice (30_encoding.md R117). -/
def sliceOp : Kind → Instr
  | .float64 => .rdslF64
  | .int32 => .rdslI32

/-- The opcode byte of `sliceOp`. -/
def sliceOpcode : Kind → Byte
  | .float64 => Config.opcRdslF64
  | .int32 => Config.opcRdslI32

/-- `dataBytes > 1400` (40_frame_codec.md R154). -/
def isLong (d : Descriptor) (k : Kind) : Bool := decide (dataBytes d k > Config.maxPacketData)

/-- The first read frame of a logical read (40_frame_codec.md R154). -/
def encodeRead (d : Descriptor) (k : Kind) : Except Status ReadCmd :=
  if validDesc d true then
    .ok { op := readOp k (isLong d k), frame := frame (readOpcode k (isLong d k)) (readBody k d)
          expected := replySize (dataBytes d k) 0, dataBytes := dataBytes d k }
  else .error .argument

/-- The slice index names a slice of the data (40_frame_codec.md R156). -/
def sliceInRange (n db : Nat) : Bool :=
  decide (1 ≤ n) && decide (n ≤ Config.readMaxSlice) && decide (n * Config.maxPacketData < db)

/-- The read frame of slice `n` (40_frame_codec.md R156). -/
def encodeReadSlice (d : Descriptor) (k : Kind) (n : Nat) : Except Status ReadCmd :=
  if validDesc d true then
    if sliceInRange n (dataBytes d k) then
      .ok { op := sliceOp k, frame := frame (sliceOpcode k) (sliceBody n k d)
            expected := replySize (dataBytes d k) n, dataBytes := dataBytes d k }
    else .error .protocolLimit
  else .error .argument

/-- `writeOpcodes(K)` (40_frame_codec.md R160). -/
def writeOpcodes : Kind → Except Status (Byte × Byte)
  | .float64 => .ok (Config.opcWrShortF64, Config.opcWrLongF64)
  | .int32 =>
    match Config.opcWrShortI32, Config.opcWrLongI32 with
    | some a, some b => .ok (a, b)
    | _, _ => .error .unsupported

/-- The result of `geom`. -/
structure Geometry where
  single : Bool
  m : Nat
  p : Nat
deriving DecidableEq, Repr

/-- `geom(d, K)` (40_frame_codec.md R158). -/
def geom (d : Descriptor) (k : Kind) : Except Status Geometry :=
  if asciiLen d + 6 + numElements d * esize k ≤ Config.maxPacketData then .ok { single := true, m := 0, p := 1 }
  else if asciiLen d + 8 + esize k > Config.maxPacketData then .error .protocolLimit
  else
    let m := (Config.maxPacketData - asciiLen d - 8) / esize k
    .ok { single := false, m := m, p := (numElements d + m - 1) / m }

/-- A write frame with its wire opcode, `elementsInChunk` and `remainingSlices`. -/
structure WriteCmd where
  op : Instr
  frame : List Byte
  elems : Nat
  rem : Nat
deriving DecidableEq, Repr

/-- The wire opcode of a write, by kind and size class (30_encoding.md R117). -/
def writeOp : Kind → Bool → Instr
  | .float64, true => .wrShortF64
  | .float64, false => .wrLongF64
  | .int32, true => .wrShortI32
  | .int32, false => .wrLongI32

/-- `elementsInChunk` of slice `n` of a multi-packet write (40_frame_codec.md R157). -/
def chunkElems (g : Geometry) (total n : Nat) : Nat := if n < g.p - 1 then g.m else total - (g.p - 1) * g.m

/-- `OPD_DATA[n × M .. n × M + e)` (40_frame_codec.md R157). -/
def chunkData (g : Geometry) (n e : Nat) (data : List Elem) : List Elem := (data.drop (n * g.m)).take e

/-- The write frame of slice `n` for a known geometry and opcodes (the last part of 40_frame_codec.md R157). -/
def encodeChunk (d : Descriptor) (k : Kind) (data : List Elem) (n : Nat) (opS opL : Byte) (g : Geometry) :
    Except Status WriteCmd :=
  if g.single then
    if n ≠ 0 then .error .protocolLimit
    else .ok { op := writeOp k true, frame := frame opS (singleBody k d data), elems := numElements d, rem := 0 }
  else if n ≤ 9 ∧ n < g.p then
    let e := chunkElems g (numElements d) n
    .ok { op := writeOp k false, frame := frame opL (chunkBody n k d (chunkData g n e data)), elems := e
          rem := g.p - n - 1 }
  else .error .protocolLimit

/-- The write frame of slice `n` (40_frame_codec.md R157), its checks in the order of 60_exceptions.md R307. -/
def encodeWrite (d : Descriptor) (k : Kind) (data : List Elem) (n : Nat) : Except Status WriteCmd :=
  if ¬ validDesc d false then .error .argument
  else if data.length ≠ numElements d then .error .argument
  else
    match writeOpcodes k with
    | .error e => .error e
    | .ok (opS, opL) =>
      match geom d k with
      | .error e => .error e
      | .ok g => encodeChunk d k data n opS opL g

/-- `ENC_RD` (40_frame_codec.md R154). -/
def execEncRd (f : Fields) (s : State) : Answer :=
  hostCommand (commandWord 1 f) s fun s =>
    match encodeRead s.latch.desc f.kind with
    | .error e => .next (raise e s)
    | .ok c =>
      .next (finish .ok 0
        { s with res := { s.res with
            frame := some c.frame
            expected := some (BitVec.ofNat 16 c.expected)
            dataBytes := some (BitVec.ofNat 64 c.dataBytes) } })

/-- `ENC_RDSL` (40_frame_codec.md R156). -/
def execEncRdsl (f : Fields) (s : State) : Answer :=
  hostCommand (commandWord 2 f) s fun s =>
    match encodeReadSlice s.latch.desc f.kind f.slice.toNat with
    | .error e => .next (raise e s)
    | .ok c =>
      .next (finish .ok 0
        { s with res := { s.res with
            frame := some c.frame
            expected := some (BitVec.ofNat 16 c.expected)
            dataBytes := some (BitVec.ofNat 64 c.dataBytes) } })

/-- `ENC_WR` (40_frame_codec.md R157). -/
def execEncWr (f : Fields) (s : State) : Answer :=
  hostCommand (commandWord 3 f) s fun s =>
    match encodeWrite s.latch.desc f.kind s.latch.data f.slice.toNat with
    | .error e => .next (raise e s)
    | .ok c =>
      .next (finish .ok 0
        { s with res := { s.res with
            frame := some c.frame
            outBytes := some (BitVec.ofNat 16 c.frame.length)
            inBytes := some (BitVec.ofNat 16 Config.ackLen)
            elems := some (BitVec.ofNat 32 c.elems)
            remsl := some (BitVec.ofNat 32 c.rem) } })

/-- An illegal command word (30_encoding.md R102): accepted, and completed with `ARGUMENT` and nothing else. -/
def execIllegal (w : CmdWord) (s : State) : Answer :=
  hostCommand w s fun s => .next (raise .argument s)

end Sys2Proof.Machine
end

