-- ==== Sys2Proof/Machine/Classifier.lean ====
section
/-! DEFINITION. The error frame classifier and DEC_ERR (42_error_classifier.md). -/

namespace Sys2Proof.Machine

open Sys2Proof

/-- What `classify` returns (R251). -/
inductive Class where
  | noError
  | controllerError (code : Nat)
  | malformedError
deriving DecidableEq, Repr

/-- `code4(b, i)` (R255). -/
def code4 (b : List Byte) (i : Nat) : Nat :=
  1000 * dval (byteAt b i) + 100 * dval (byteAt b (i + 1)) + 10 * dval (byteAt b (i + 2)) + dval (byteAt b (i + 3))

/-- The four bytes from index `i` on are digits. -/
def digits4 (b : List Byte) (i : Nat) : Bool :=
  isDigit (byteAt b i) && isDigit (byteAt b (i + 1)) && isDigit (byteAt b (i + 2)) && isDigit (byteAt b (i + 3))

/-- `shapeA(b)`, for `|b| = 10` (R252). -/
def shapeA (b : List Byte) : Bool :=
  byteAt b 0 == Config.errStart && byteAt b 2 == 0x36 && byteAt b 3 == Config.qmark && byteAt b 8 == Config.cr &&
    byteAt b 9 == Config.errEnd && digits4 b 4

/-- `classify(b, path)` (R251): the class (R252 to R254). -/
def classify (path : Path) (b : List Byte) : Class :=
  match path with
  | .read =>
    if b.length ≥ 10 ∧ byteAt b 4 = Config.qmark ∧ byteAt b 9 = Config.cr then
      if digits4 b 5 then .controllerError (code4 b 5) else .malformedError
    else .noError
  | .nak =>
    if b.length = 10 then
      if shapeA b then .controllerError (code4 b 4) else .malformedError
    else .malformedError

/-- Whether `classify` sets `DIAG_LEGACY` (R253): Shape B, by its length alone, on the NAK path. -/
def isLegacy (path : Path) (b : List Byte) : Bool := path == .nak && b.length == 11

/-- The value `RES_CLASS` takes (R250, 10_state.md R43). -/
def classBits : Class → BitVec 2
  | .noError => 0
  | .controllerError _ => 1
  | .malformedError => 2

/-- The value `RES_CODE` takes (R250, 10_state.md R43). -/
def classCode : Class → Nat
  | .noError => 0
  | .controllerError c => c
  | .malformedError => 0

/-- `DEC_ERR` (R250). -/
def execDecErr (f : Fields) (s : State) : Answer :=
  hostCommand (commandWord 4 f) s fun s =>
    let c := classify f.path s.latch.buf
    .next (finish .ok 0
      { noteLegacy (isLegacy f.path s.latch.buf) s with res := { s.res with
          cls := some (classBits c)
          code := some (BitVec.ofNat 16 (classCode c)) } })

end Sys2Proof.Machine
end

