-- ==== Sys2Proof/Machine/Tracker.lean ====
section
/-! DEFINITION. The slice-index wraparound tracker and PLAN_WR (43_slice_wrap_tracker.md). Its functions compute
with the exact values of the `WT_*` registers (00_scope.md R9), which are cut to the widths of 10_state.md R39 where they are written (log 9). -/

namespace Sys2Proof.Machine

open Sys2Proof

/-- The `WT_*` registers (10_state.md R39) as exact numbers. -/
structure WtCounts where
  slice : Nat
  chunk : Nat
  offset : Nat
  remsl : Nat
  segBase : Nat
  segDesc : Descriptor
  m : Nat
  p : Nat
  sent : Nat
  total : Nat
deriving DecidableEq, Repr

/-- What the registers hold, as exact numbers. -/
def wtCounts (r : WriteRegs) : WtCounts :=
  { slice := r.slice.toNat, chunk := r.chunk.toNat, offset := r.offset.toNat, remsl := r.remsl.toNat, segBase := r.segBase.toNat
    segDesc := r.segDesc, m := r.m.toNat, p := r.p.toNat, sent := r.sent.toNat, total := r.total.toNat }

/-- The registers written: each number cut to its register's width (10_state.md R39; log 9). -/
def wtRegs (t : WtCounts) : WriteRegs :=
  { slice := BitVec.ofNat 4 t.slice, chunk := BitVec.ofNat 32 t.chunk, offset := BitVec.ofNat 32 t.offset
    remsl := BitVec.ofNat 32 t.remsl, segBase := BitVec.ofNat 32 t.segBase, segDesc := t.segDesc, m := BitVec.ofNat 32 t.m
    p := BitVec.ofNat 32 t.p, sent := BitVec.ofNat 32 t.sent, total := BitVec.ofNat 32 t.total }

/-- `planCheck(d, K)` from a base on (R282), with a bound on the segments still to walk (log 18). -/
def planCheckFrom (d : Descriptor) (k : Kind) : Nat → Nat → Except Status Unit
  | 0, _ => .error .protocolLimit
  | fuel + 1, base =>
    match geom (shift d base) k with
    | .error e => .error e
    | .ok g =>
      if g.single ∨ g.p ≤ Config.sliceWrap then .ok ()
      else if d2spans d then .error .protocolLimit
      else planCheckFrom d k fuel (base + Config.sliceWrap * g.m)

/-- `planCheck(d, K)` (R282): every segment but the last takes at least ten elements, so the bound is never used up. -/
def planCheck (d : Descriptor) (k : Kind) : Except Status Unit := planCheckFrom d k (numElements d) 0

/-- `setChunk()` (R282). -/
def setChunk (t : WtCounts) : WtCounts :=
  let t := { t with offset := t.segBase + t.slice * t.m }
  if t.m = 0 then { t with chunk := t.total - t.segBase, remsl := 0 }
  else if t.slice < t.p - 1 then { t with chunk := t.m, remsl := t.p - t.slice - 1 }
  else { t with chunk := (t.total - t.segBase) - (t.p - 1) * t.m, remsl := 0 }

/-- `startSegment(base, K)` for the descriptor `d` of the command (R282). -/
def startSegment (d : Descriptor) (k : Kind) (base : Nat) (t : WtCounts) : Except Status WtCounts :=
  match geom (shift d base) k with
  | .error e => .error e
  | .ok g =>
    .ok (setChunk { t with
      segBase := base, segDesc := shift d base
      m := if g.single then 0 else g.m, p := g.p, slice := 0 })

/-- `wtInit(d, K)` (R282): on a `PROTOCOL_LIMIT` of the plan check no register is written. -/
def wtInit (d : Descriptor) (k : Kind) (t : WtCounts) : Except Status WtCounts :=
  match planCheck d k with
  | .error e => .error e
  | .ok () => startSegment d k 0 { t with total := numElements d, sent := 0 }

/-- `wtAdvance()` (R283). -/
def wtAdvance (d : Descriptor) (k : Kind) (t : WtCounts) : Except Status WtCounts :=
  if t.slice < Config.sliceWrap - 1 then .ok (setChunk { t with slice := t.slice + 1 })
  else startSegment d k t.sent t

/-- `WT_SENT <- WT_SENT + WT_CHUNK` (R281, 41_slicer_continuation.md R208). -/
def countChunk (t : WtCounts) : WtCounts := { t with sent := t.sent + t.chunk }

/-- `chunkRecord(opS, opL)` (R281). -/
def chunkRecord (k : Kind) (opS opL : Byte) (t : WtCounts) : ChunkRecord :=
  { segBase := BitVec.ofNat 32 t.segBase, segDesc := t.segDesc, slice := BitVec.ofNat 4 t.slice
    offset := BitVec.ofNat 32 t.offset, count := BitVec.ofNat 32 t.chunk, rem := BitVec.ofNat 32 t.remsl
    opcode := if t.m = 0 then opS else opL
    outBytes := BitVec.ofNat 16 (5 + asciiLen t.segDesc + (if t.m = 0 then 6 else 8) + t.chunk * esize k) }

/-- The loop of `PLAN_WR` (R281), with a bound on the chunks still to plan (log 18): the registers at its end and the plan. -/
def planLoop (d : Descriptor) (k : Kind) (opS opL : Byte) : Nat → WtCounts → Except Status (WtCounts × List ChunkRecord)
  | 0, _ => .error .protocolLimit
  | fuel + 1, t =>
    if t.remsl = 0 then .ok (countChunk t, [chunkRecord k opS opL t])
    else
      match wtAdvance d k (countChunk t) with
      | .error e => .error e
      | .ok t' =>
        match planLoop d k opS opL fuel t' with
        | .error e => .error e
        | .ok (t'', plan) => .ok (t'', chunkRecord k opS opL t :: plan)

/-- `PLAN_WR` (R281). -/
def execPlanWr (f : Fields) (s : State) : Answer :=
  hostCommand (commandWord 5 f) s fun s =>
    if ¬ validDesc s.latch.desc false then .next (raise .argument s)
    else
      match writeOpcodes f.kind with
      | .error e => .next (raise e s)
      | .ok (opS, opL) =>
        match wtInit s.latch.desc f.kind (wtCounts s.wt) with
        | .error e => .next (raise e s)
        | .ok t =>
          match planLoop s.latch.desc f.kind opS opL (numElements s.latch.desc) t with
          | .error e => .next (raise e { s with wt := wtRegs t })
          | .ok (t', plan) => .next (finish .ok 0 { s with wt := wtRegs t', res := { s.res with plan := some plan } })

end Sys2Proof.Machine
end

