-- ==== Sys2Proof/Machine/Transfer.lean ====
section
/-! DEFINITION. The logical transfers XFER_RD and XFER_WR (41_slicer_continuation.md): their checks up to the first transport request, and
what each response does. A handler that leaves `PHASE = EXEC` has a frame to send next (`Sys2Proof.Machine.runWire`). -/

namespace Sys2Proof.Machine

open Sys2Proof

/-- The start of XFER_RD's registers (R204): nothing read yet, the first frame in TXBUF. `RD_CONT` keeps its value. -/
def startRead (c : ReadCmd) (s : State) : State :=
  { s with
    rd := { s.rd with
      slice := 0, dataBytes := BitVec.ofNat 16 c.dataBytes, bytesRead := 0, remain := BitVec.ofNat 16 c.dataBytes
      expected := BitVec.ofNat 16 c.expected }
    outlen := some 0 }

/-- `XFER_RD` (R204) up to its first `await`. -/
def execXferRd (f : Fields) (s : State) : Answer :=
  hostCommand (commandWord 6 f) s fun s =>
    match encodeRead s.latch.desc f.kind with
    | .error e => .next (raise e s)
    | .ok c =>
      if c.dataBytes > (Config.readMaxSlice + 1) * Config.maxPacketData then .next (raise .protocolLimit s)
      else withTx c.frame (startRead c s) fun s => .next (enterRaw s)

/-- `XFER_WR` (R208) up to its first `await`. -/
def execXferWr (f : Fields) (s : State) : Answer :=
  hostCommand (commandWord 7 f) s fun s =>
    if ¬ validDesc s.latch.desc false then .next (raise .argument s)
    else if s.latch.data.length ≠ numElements s.latch.desc then .next (raise .argument s)
    else
      match writeOpcodes f.kind with
      | .error e => .next (raise e s)
      | .ok _ =>
        match wtInit s.latch.desc f.kind (wtCounts s.wt) with
        | .error e => .next (raise e s)
        | .ok t => .next (enterRaw { s with wt := wtRegs t, res := { s.res with elems := some 0 } })

/-- The response to `EosSave` in `enterRaw` (R212). -/
def onEosSave (cfg : EosCfg) (st : XStatus) (s : State) : State :=
  if st ≠ .ok then raise .transport s
  else issue .eosClear .wEosClear { s with eosSaved := cfg, eosHeld := true }

/-- The response to `EosClear` in `enterRaw` (R212). -/
def onEosClear (st : XStatus) (s : State) : State :=
  if st ≠ .ok then raise .transport s else issue .flush .wFlush s

/-- The response to `Flush` in `enterRaw` (R212): the loop of the transfer begins. -/
def onFlush (st : XStatus) (s : State) : State :=
  if st ≠ .ok then raise .transport s else { s with phase := .exec }

/-- The response to `Write` of a frame: the reply is read next, `RD_EXPECTED` bytes for XFER_RD (R204), two for XFER_WR (R208). -/
def onWritten (st : XStatus) (s : State) : State :=
  if st ≠ .ok then raise .transport s
  else if latchOp s = 6 then issue (.read s.rd.expected.toNat .tArray) .wRxData s
  else issue (.read Config.ackLen .tAck) .wRxAck s

/-- `replyWellFormed(r, L)` (R205). -/
def replyWellFormed (r : List Byte) (l : Nat) : Bool :=
  byteAt r 0 == Config.replyStart && byteAt r (l - 1) == Config.replyEnd && replyLength r == l - 5

/-- `continueRead()` (R206) and what follows it in R204: done, a controller that stopped early, or the next slice. -/
def continueRead (s : State) : State :=
  if s.rd.remain = 0 then finish .ok 0 (noteContEnd s)
  else if s.rd.cont = false then raise .malformed s
  else { s with rd := { s.rd with slice := s.rd.slice + 1 }, phase := .exec }

/-- The registers after the `m` data bytes of an accepted reply were appended (R204). -/
def countRead (m : Nat) (s : State) : State :=
  { s with
    rd := { s.rd with
      bytesRead := BitVec.ofNat 16 (s.rd.bytesRead.toNat + m), remain := BitVec.ofNat 16 (s.rd.remain.toNat - m) }
    outlen := some (BitVec.ofNat 16 (s.rd.bytesRead.toNat + m)) }

/-- A data reply accepted by the classifier and by R205: latch the continuation flag, append the data, decide (R204). -/
def appendReply (r : List Byte) (s : State) : Answer :=
  let m := s.rd.expected.toNat - 5
  withOut s.rd.bytesRead.toNat (bytesFrom r 4 (4 + m)) { s with rd := { s.rd with cont := contFlag r } } fun s =>
    .next (continueRead (countRead m s))

/-- The response to `Read` of a data reply (R204): transport, then classifier, then structure, then continuation (60_exceptions.md R307). -/
def onData (r : List Byte) (st : XStatus) (s : State) : Answer :=
  if st ≠ .ok then .next (raise .transport s)
  else
    withRx r { s with phase := .exec } fun s =>
      match classify .read r with
      | .controllerError code => .next (finish .controller code s)
      | .malformedError => .next (raise .malformed s)
      | .noError => if replyWellFormed r s.rd.expected.toNat then appendReply r s else .next (raise .malformed s)

/-- `nakTail(b)` up to its `await` (R210): the rest of the reply, up to 1405 bytes in all; `b` is kept (log 11). -/
def nakTail (b : List Byte) (s : State) : State :=
  issue (.read (Config.maxPacketSize - b.length) .tAck) .wRxTail { s with ackHead := b }

/-- `WT_SENT <- WT_SENT + WT_CHUNK; RES_ELEMS <- WT_SENT` (R208). -/
def countAcknowledged (s : State) : State :=
  let w := wtRegs (countChunk (wtCounts s.wt))
  { s with wt := w, res := { s.res with elems := some w.sent } }

/-- A chunk was acknowledged (R208): the echo check, the counts, and then the end or the next chunk. -/
def chunkAcknowledged (echo : Byte) (s : State) : State :=
  let s := countAcknowledged (noteEcho echo s)
  if s.wt.remsl = 0 then finish .ok 0 s
  else
    match wtAdvance s.latch.desc (latchKind s) (wtCounts s.wt) with
    | .error e => raise e s
    | .ok t => { s with wt := wtRegs t, phase := .exec }

/-- The response to `Read` of an acknowledgement: `ackCheck` (R209) and the rest of R208's loop. -/
def onAck (b : List Byte) (st : XStatus) (s : State) : State :=
  let s := { s with phase := .exec }
  if st = .error then raise .transport s
  else if b.length = 0 then raise .transport s
  else if byteAt b 0 ≠ Config.ackByte then nakTail b s
  else if b.length < Config.ackLen then raise .transport s
  else chunkAcknowledged (byteAt b 1) s

/-- The response to `Read` of the tail of a non-acknowledged reply (R210). -/
def onTail (t : List Byte) (st : XStatus) (s : State) : Answer :=
  let s := { s with phase := .exec }
  if st = .error then .next (raise .transport s)
  else
    withRx (s.ackHead ++ t) s fun s =>
      let r := s.ackHead ++ t
      let s := noteLegacy (isLegacy .nak r) s
      match classify .nak r with
      | .controllerError code => .next (finish .controller code s)
      | .malformedError => .next (raise .malformed s)
      | .noError => .next (raise .malformed s)

end Sys2Proof.Machine
end

