-- ==== Sys2Proof/Machine/Wire.lean ====
section
/-! DEFINITION. The wire opcodes (30_encoding.md R117): each is the sending of its request frame by the transfer in progress
(41_slicer_continuation.md R204, R208; log 13). -/

namespace Sys2Proof.Machine

open Sys2Proof

/-- The frame XFER_RD sends next (R204): that of R154 for the first exchange, of R156 for slice `RD_SLICE` after it. -/
def nextRead (s : State) : Except Status ReadCmd :=
  if s.rd.slice = 0 then encodeRead s.latch.desc (latchKind s)
  else encodeReadSlice s.latch.desc (latchKind s) s.rd.slice.toNat

/-- `OPD_DATA[WT_SEGBASE .. WT_TOTAL)` (41_slicer_continuation.md R208). -/
def segmentData (s : State) : List Elem := (s.latch.data.drop s.wt.segBase.toNat).take (s.wt.total.toNat - s.wt.segBase.toNat)

/-- The frame XFER_WR sends next (R208): that of R157 for the current segment and slice. -/
def nextWrite (s : State) : Except Status WriteCmd :=
  encodeWrite s.wt.segDesc (latchKind s) (segmentData s) s.wt.slice.toNat

/-- The frame of a read goes out (R204): TXBUF, TXLEN, RD_EXPECTED, LAST_OPC, then `Write` with T_CMD (R201). -/
def sendRead (c : ReadCmd) (s : State) : Answer :=
  withTx c.frame { s with rd := { s.rd with expected := BitVec.ofNat 16 c.expected } } fun s =>
    .next (issue (.write c.frame .tCmd) .wTx { s with lastOpc := byteAt c.frame 1 })

/-- The frame of a write chunk goes out (R208): TXBUF, TXLEN, LAST_OPC, then `Write` with T_ARRAY (R201). -/
def sendWrite (c : WriteCmd) (s : State) : Answer :=
  withTx c.frame s fun s =>
    .next (issue (.write c.frame .tArray) .wTx { s with lastOpc := byteAt c.frame 1 })

/-- A read opcode is sent when the sequencer has an XFER_RD frame to send and R117 selects this opcode for it; otherwise
nothing is sent and nothing changes (log 13). -/
def emitRead (i : Instr) (s : State) : Answer :=
  if s.phase = .exec ∧ latchOp s = 6 then
    match nextRead s with
    | .ok c => if c.op = i then sendRead c s else .next s
    | .error _ => .next s
  else .next s

/-- A write opcode is sent when the sequencer has an XFER_WR frame to send and R117 selects this opcode for it; otherwise
nothing is sent and nothing changes (log 13). -/
def emitWrite (i : Instr) (s : State) : Answer :=
  if s.phase = .exec ∧ latchOp s = 7 then
    match nextWrite s with
    | .ok c => if c.op = i then sendWrite c s else .next s
    | .error _ => .next s
  else .next s

/-- `RD_SHORT_F64`: the first read of a Float64 array of at most 1400 bytes. -/
def execRdShortF64 (s : State) : Answer := emitRead .rdShortF64 s

/-- `RD_LONG_F64`: the first read of a Float64 array of more than 1400 bytes. -/
def execRdLongF64 (s : State) : Answer := emitRead .rdLongF64 s

/-- `RDSL_F64`: a slice read of a Float64 array. -/
def execRdslF64 (s : State) : Answer := emitRead .rdslF64 s

/-- `RD_SHORT_I32`: the first read of an Int32 array of at most 1400 bytes. -/
def execRdShortI32 (s : State) : Answer := emitRead .rdShortI32 s

/-- `RD_LONG_I32`: the first read of an Int32 array of more than 1400 bytes. -/
def execRdLongI32 (s : State) : Answer := emitRead .rdLongI32 s

/-- `RDSL_I32`: a slice read of an Int32 array. -/
def execRdslI32 (s : State) : Answer := emitRead .rdslI32 s

/-- `WR_SHORT_F64`: a Float64 segment in one packet. -/
def execWrShortF64 (s : State) : Answer := emitWrite .wrShortF64 s

/-- `WR_LONG_F64`: a chunk of a multi-packet Float64 segment. -/
def execWrLongF64 (s : State) : Answer := emitWrite .wrLongF64 s

/-- `WR_SHORT_I32`: an Int32 segment in one packet, with a configured opcode (40_frame_codec.md R160). -/
def execWrShortI32 (s : State) : Answer := emitWrite .wrShortI32 s

/-- `WR_LONG_I32`: a chunk of a multi-packet Int32 segment, with a configured opcode (40_frame_codec.md R160). -/
def execWrLongI32 (s : State) : Answer := emitWrite .wrLongI32 s

end Sys2Proof.Machine
end

