-- ==== Sys2Proof/Machine/Dispatch.lean ====
section
/-! DEFINITION. The dispatch: one arm per instruction, each one call of its meaning. -/

namespace Sys2Proof.Machine

open Sys2Proof

def exec (i : Instr) (s : State) : Host.Outcome State Fault Refusal :=
  match i with
  | .encRd f => Sys2Proof.Machine.execEncRd f s
  | .encRdsl f => Sys2Proof.Machine.execEncRdsl f s
  | .encWr f => Sys2Proof.Machine.execEncWr f s
  | .decErr f => Sys2Proof.Machine.execDecErr f s
  | .planWr f => Sys2Proof.Machine.execPlanWr f s
  | .xferRd f => Sys2Proof.Machine.execXferRd f s
  | .xferWr f => Sys2Proof.Machine.execXferWr f s
  | .illegal w => Sys2Proof.Machine.execIllegal w s
  | .rdShortF64 => Sys2Proof.Machine.execRdShortF64 s
  | .rdLongF64 => Sys2Proof.Machine.execRdLongF64 s
  | .rdslF64 => Sys2Proof.Machine.execRdslF64 s
  | .rdShortI32 => Sys2Proof.Machine.execRdShortI32 s
  | .rdLongI32 => Sys2Proof.Machine.execRdLongI32 s
  | .rdslI32 => Sys2Proof.Machine.execRdslI32 s
  | .wrShortF64 => Sys2Proof.Machine.execWrShortF64 s
  | .wrLongF64 => Sys2Proof.Machine.execWrLongF64 s
  | .wrShortI32 => Sys2Proof.Machine.execWrShortI32 s
  | .wrLongI32 => Sys2Proof.Machine.execWrLongI32 s

end Sys2Proof.Machine
end

