-- ==== Sys2Proof/Machine/Sequencer.lean ====
section
/-! DEFINITION. The sequencer: accepting the command at the host port, sending the next frame, taking a transport response, and one step
of the block (00_scope.md R12, 10_state.md R31, 41_slicer_continuation.md R202; log 1, log 21). -/

namespace Sys2Proof.Machine

open Sys2Proof

/-- `PHASE = IDLE` (R202): accept and run the command offered first. With none offered the block stays idle (70_reset_and_hazards.md R343).
Operand records the port cannot carry fault (log 4). -/
def fetchCommand (s : State) : Answer :=
  match s.offered with
  | [] => .next s
  | o :: _ => if o.wf then exec (decodeCommand o.cmdw) s else .fault .badOffer

/-- The wire opcode the sequencer sends next (30_encoding.md R117): that of the frame of R204 or R208. `none` when no transfer is latched. -/
def selectWire (s : State) : Option (Except Status Instr) :=
  if latchOp s = 6 then
    match nextRead s with
    | .ok c => some (.ok c.op)
    | .error e => some (.error e)
  else if latchOp s = 7 then
    match nextWrite s with
    | .ok c => some (.ok c.op)
    | .error e => some (.error e)
  else none

/-- `PHASE = EXEC` in a transfer: run the wire opcode selected. An encoder's error is raised; with no transfer latched there is no
frame (log 19). -/
def runWire (s : State) : Answer :=
  match selectWire s with
  | some (.ok i) => exec i s
  | some (.error e) => .next (raise e s)
  | none => .fault .noFrame

/-- The response `r` to the request outstanding in `s` (41_slicer_continuation.md R200): what it does, or the fault of a response whose shape is
not one that request can have (log 3). -/
def handle (r : Response) (s : State) : Answer :=
  match s.phase, r with
  | .wEosSave, .eos cfg st => if st = .timeout then .fault .transportShape else .next (onEosSave cfg st s)
  | .wEosClear, .done st => if st = .timeout then .fault .transportShape else .next (onEosClear st s)
  | .wFlush, .done st => if st = .timeout then .fault .transportShape else .next (onFlush st s)
  | .wTx, .done st => .next (onWritten st s)
  | .wRxData, .bytes b st => if readShape s.rd.expected.toNat b st then onData b st s else .fault .transportShape
  | .wRxAck, .bytes b st => if readShape Config.ackLen b st then .next (onAck b st s) else .fault .transportShape
  | .wRxTail, .bytes b st =>
    if readShape (Config.maxPacketSize - s.ackHead.length) b st then onTail b st s else .fault .transportShape
  | .wEosRestore, .done st => if st = .timeout then .fault .transportShape else .next (finishRestored st s)
  | _, _ => .fault .transportShape
where
  /-- The shape of a `Read(max)` response (R200): OK carries `max` bytes, TIMEOUT fewer, ERROR any (they are not used). -/
  readShape (max : Nat) (b : List Byte) : XStatus → Bool
    | .ok => decide (b.length = max)
    | .timeout => decide (b.length < max)
    | .error => true

/-- A `W_*` phase: take the transport's next response; while it has not answered, wait (93_implementation_defined.md I13; log 2). -/
def respond (s : State) : Answer :=
  match s.responses with
  | [] => .next s
  | r :: rest => handle r { s with responses := rest }

/-- The computation between two awaits is one atomic step (00_scope.md R12): where a response leads to a frame, the frame goes out in
the same step. -/
def settle : Answer → Answer
  | .next s => if s.phase = .exec then runWire s else .next s
  | .fault e => .fault e
  | .refused r => .refused r

/-- One step of the sequencer (10_state.md R31). -/
def sequence (s : State) : Answer :=
  match s.phase with
  | .idle => fetchCommand s
  | .exec => runWire s
  | .wEosSave | .wEosClear | .wFlush | .wTx | .wRxData | .wRxAck | .wRxTail | .wEosRestore => settle (respond s)

/-- One step of the block: RST first, then a host read, then the sequencer (log 5, log 6, log 21). -/
def blockStep (s : State) : Answer :=
  if s.rst then .next (resetBlock s)
  else
    match s.hostRead with
    | some r => hostReadStep r s
    | none => sequence s

/-- A scalar or array descriptor `V(0,last)` for `fetchAt`. -/
def sampleDesc (last : Nat) : Descriptor :=
  { name := [0x56], d1s := 0, d1e := BitVec.ofNat 32 last, hasD2 := false, d2s := 0, d2e := 0 }

/-- The state with no reset and no host read on the port. -/
def quiet (s : State) : State := { s with rst := false, hostRead := none }

/-- `s` with a command at the host port, as the one offered next, so that the next step accepts and runs it (log 14). Its operands are
`V(0,0)`, one zero word and an empty buffer. -/
def offerCommand (w : CmdWord) (s : State) : State :=
  { quiet s with
    phase := .idle
    offered := [{ cmdw := w, desc := sampleDesc 0, data := [0], buf := [] }] }

/-- `s` inside an XFER_RD whose next frame is that of slice `n` of `V(0,last)` (log 14). -/
def inRead (k : Kind) (last n : Nat) (s : State) : State :=
  { quiet s with
    phase := .exec, eosHeld := true
    latch := { s.latch with
      cmdw := commandWord 6 { kind := k, path := .read, slice := 0 }
      desc := sampleDesc last }
    rd := { s.rd with slice := BitVec.ofNat 4 n } }

/-- `s` inside an XFER_WR whose next frame is that of slice `n` of `V(0,last)`, written with zeros (log 14). -/
def inWrite (k : Kind) (last n : Nat) (s : State) : State :=
  { quiet s with
    phase := .exec, eosHeld := true
    latch := { s.latch with
      cmdw := commandWord 7 { kind := k, path := .read, slice := 0 }
      desc := sampleDesc last, data := List.replicate (last + 1) 0 }
    wt := { s.wt with slice := BitVec.ofNat 4 n, segBase := 0, segDesc := sampleDesc last, total := BitVec.ofNat 32 (last + 1) } }

/-- `s` about to run `i` as its next step (log 14): a host command is offered, a wire opcode is the one selected. -/
def fetchAt (i : Instr) (s : State) : State :=
  match i with
  | .encRd f => offerCommand (commandWord 1 f) s
  | .encRdsl f => offerCommand (commandWord 2 f) s
  | .encWr f => offerCommand (commandWord 3 f) s
  | .decErr f => offerCommand (commandWord 4 f) s
  | .planWr f => offerCommand (commandWord 5 f) s
  | .xferRd f => offerCommand (commandWord 6 f) s
  | .xferWr f => offerCommand (commandWord 7 f) s
  | .illegal w => offerCommand w s
  | .rdShortF64 => inRead .float64 0 0 s
  | .rdLongF64 => inRead .float64 399 0 s
  | .rdslF64 => inRead .float64 399 1 s
  | .rdShortI32 => inRead .int32 0 0 s
  | .rdLongI32 => inRead .int32 399 0 s
  | .rdslI32 => inRead .int32 399 1 s
  | .wrShortF64 => inWrite .float64 0 0 s
  | .wrLongF64 => inWrite .float64 173 1 s
  | .wrShortI32 => inWrite .int32 0 0 s
  | .wrLongI32 => inWrite .int32 346 1 s

/-- `fetchAt` on the instruction the decoder reads from a table row's bits; bits it does not read leave the state as it is. -/
def placeWord (s : State) (nbits w : Nat) : State :=
  match decodeTableWord nbits w with
  | some i => fetchAt i s
  | none => s

end Sys2Proof.Machine
end

