-- ==== Sys2Proof/Machine/Step.lean ====
section
/-! DEFINITION. One step of the machine, and the placing of a table row's instruction where the next step runs it (log 14). -/

namespace Sys2Proof.Machine

open Sys2Proof

/-- One step (Machine/Sequencer.lean). -/
def step (s : State) : Host.Outcome State Fault Refusal := blockStep s

/-- The state whose next step runs the instruction of a table row's bits (log 14). -/
def State.withFetchWord (s : State) (nbits w : Nat) : State := placeWord s nbits w

end Sys2Proof.Machine
end

