-- ==== Sys2Proof/Safety.lean ====
section
/-! DEFINITION. What a safe run is: the invariants every step keeps, in the terms the statements use. -/

namespace Sys2Proof.Machine

open Sys2Proof

/-- The phases in which the EOS configuration is held (41_slicer_continuation.md R203, R212): from the response to `EosSave`
until the response to `EosRestore`. -/
def heldPhase : Phase → Bool
  | .idle => false
  | .exec => true
  | .wEosSave => false
  | .wEosClear => true
  | .wFlush => true
  | .wTx => true
  | .wRxData => true
  | .wRxAck => true
  | .wRxTail => true
  | .wEosRestore => true

/-- The control registers agree (10_state.md R33 to R35, R41): EOS_HELD follows PHASE, DONE is 1 only in IDLE, STATUS and ERRCODE are 0
until DONE, ERRCODE is a code of 0 to 9999 and 0 but for a CONTROLLER status. -/
def ControlInv (s : State) : Prop :=
  s.eosHeld = heldPhase s.phase ∧
  (s.done = true → s.phase = .idle) ∧
  (s.done = false → s.status = .ok ∧ s.errcode = 0) ∧
  (s.status ≠ .controller → s.errcode = 0) ∧
  s.errcode.toNat ≤ 9999 ∧ s.finCode ≤ 9999

/-- The buffers are in canonical form and within their capacities (20_memory.md R70 to R72). -/
def BufferInv (s : State) : Prop :=
  Memory.wf s.txbuf ∧ Memory.wf s.rxbuf ∧ Memory.wf s.outbuf ∧
  (∀ c ∈ s.txbuf, c.1 < Config.maxPacketSize) ∧ (∀ c ∈ s.rxbuf, c.1 < Config.maxPacketSize) ∧
  (∀ c ∈ s.outbuf, c.1 < Config.outbufSize)

/-- A byte sequence is a request frame (30_encoding.md R105, R118, 20_memory.md R71): at most 1405 bytes, `0xD3`, one of the wire opcodes,
the body's length, the body, `0xD6`. -/
def IsRequestFrame (b : List Byte) : Prop :=
  ∃ (i : Instr) (opc : Byte) (body : List Byte), i.opcode = some opc ∧ b = frame opc body ∧ body.length ≤ 1400

/-- Every frame written so far is a request frame (30_encoding.md R118). -/
def FrameInv (s : State) : Prop := ∀ b t, Request.write b t ∈ s.issued → IsRequestFrame b

/-- The tracker is at a chunk of the plan of `d` (43_slice_wrap_tracker.md R280, R282): its segment is that of `shift d WT_SEGBASE`, its slice one
of the segment's and at most 9, its chunk registers are those `setChunk` gives, and the segments from here on can be packetized. -/
def Tracking (d : Descriptor) (k : Kind) (t : WtCounts) : Prop :=
  t.total = numElements d ∧ t.segBase < t.total ∧ (t.segBase = 0 ∨ d2spans d = false) ∧ t.segDesc = shift d t.segBase ∧
  (∃ g, geom t.segDesc k = .ok g ∧ t.m = (if g.single then 0 else g.m) ∧ t.p = g.p ∧ t.slice < g.p) ∧
  t.slice ≤ 9 ∧ setChunk t = t ∧ t.sent = t.offset ∧ (∃ fuel, planCheckFrom d k fuel t.segBase = .ok ())

/-- A plan of the elements from `off` to `n` (43_slice_wrap_tracker.md R285): every record's slice is 0 to 9, its count at least 1 and its frame at
most 1405 bytes; each next record begins where the one before ended, in the same segment with the next slice or, after slice 9, as
slice 0 of a segment that begins there; exactly the last record has `rem = 0`. -/
def PlanFrom (n : Nat) : Nat → List ChunkRecord → Prop
  | _, [] => False
  | off, c :: rest =>
    c.offset.toNat = off ∧ 1 ≤ c.count.toNat ∧ c.slice.toNat ≤ 9 ∧ c.outBytes.toNat ≤ 1405 ∧
    match rest with
    | [] => c.rem = 0 ∧ off + c.count.toNat = n
    | c' :: _ =>
      c.rem ≠ 0 ∧
      (c'.segBase = c.segBase ∧ c'.slice.toNat = c.slice.toNat + 1 ∨
        c.slice = 9 ∧ c'.slice = 0 ∧ c'.segBase.toNat = off + c.count.toNat) ∧
      PlanFrom n (off + c.count.toNat) rest

/-- One record of a plan of `d` (43_slice_wrap_tracker.md R280 to R283, R285 item 4): its segment is `d` moved to `seg_base`; its slice is one of the
segment's, and offset and `rem` follow from it; the opcode is the short one for a segment in one packet and the long one otherwise, and `out_bytes` the length of
that frame; the segment in one packet is one chunk, and in another every chunk has `M` elements but the last, which has no more. -/
def PlanRecord (d : Descriptor) (k : Kind) (opS opL : Byte) (r : ChunkRecord) : Prop :=
  r.segDesc = shift d r.segBase.toNat ∧
  ∃ g, geom r.segDesc k = .ok g ∧ r.slice.toNat < g.p ∧ r.offset.toNat = r.segBase.toNat + r.slice.toNat * g.m ∧
    r.rem.toNat = g.p - 1 - r.slice.toNat ∧ r.opcode = (if g.single then opS else opL) ∧
    r.outBytes.toNat = 5 + asciiLen r.segDesc + (if g.single then 6 else 8) + r.count.toNat * esize k ∧
    (g.single = true → r.count.toNat = numElements r.segDesc) ∧
    (g.single = false → r.count.toNat ≤ g.m ∧ (r.slice.toNat + 1 ≠ g.p → r.count.toNat = g.m))

/-- The progress of XFER_RD (41_slicer_continuation.md R204, R207, R214): while the frame or the reply of slice `RD_SLICE` is in flight,
`RD_SLICE × 1400` bytes of at most 14000 are read and stand in OUTBUF, and `3 + 2 × RD_SLICE` requests came before that frame. -/
def ReadInv (s : State) : Prop :=
  s.phase ≠ .idle → latchOp s = 6 →
    let db := dataBytes s.latch.desc (latchKind s)
    let slice := s.rd.slice.toNat
    let got := s.rd.bytesRead.toNat
    validDesc s.latch.desc true = true ∧ db ≤ 14000 ∧ s.rd.dataBytes.toNat = db ∧
    got + s.rd.remain.toNat = db ∧ s.outlen = some s.rd.bytesRead ∧
    (Memory.loadBytes s.outbuf 0 got).isSome = true ∧ slice ≤ 9 ∧
    match s.phase with
    | .idle => True
    | .wEosSave => slice = 0 ∧ got = 0 ∧ s.issued.length = 1
    | .wEosClear => slice = 0 ∧ got = 0 ∧ s.issued.length = 2
    | .wFlush => slice = 0 ∧ got = 0 ∧ s.issued.length = 3
    | .exec => got = slice * 1400 ∧ got < db ∧ s.issued.length = 3 + 2 * slice
    | .wTx => got = slice * 1400 ∧ got < db ∧ s.rd.expected.toNat = replySize db slice ∧ s.issued.length = 4 + 2 * slice
    | .wRxData => got = slice * 1400 ∧ got < db ∧ s.rd.expected.toNat = replySize db slice ∧ s.issued.length = 5 + 2 * slice
    | .wRxAck => False
    | .wRxTail => False
    | .wEosRestore => s.issued.length ≤ 6 + 2 * slice

/-- The progress of XFER_WR (41_slicer_continuation.md R208, 43_slice_wrap_tracker.md R282, R283): until it finishes, the operands are those the checks
passed, the tracker is at the chunk in flight, and RES_ELEMS holds the elements acknowledged. -/
def WriteInv (s : State) : Prop :=
  s.phase ≠ .idle → latchOp s = 7 →
    s.phase ≠ .wRxData ∧ (s.phase = .wRxTail → 1 ≤ s.ackHead.length ∧ s.ackHead.length ≤ 2) ∧
    s.res.elems = some s.wt.sent ∧
    (s.phase ≠ .wEosRestore →
      validDesc s.latch.desc false = true ∧ s.latch.data.length = numElements s.latch.desc ∧
      (∃ w, writeOpcodes (latchKind s) = .ok w) ∧ Tracking s.latch.desc (latchKind s) (wtCounts s.wt))

/-- A command that is waiting on the transport is a transfer (10_state.md R31). -/
def TransferInv (s : State) : Prop := s.phase ≠ .idle → latchOp s = 6 ∨ latchOp s = 7

/-- Everything a run from reset keeps. -/
def RunInv (s : State) : Prop :=
  ControlInv s ∧ BufferInv s ∧ FrameInv s ∧ TransferInv s ∧ ReadInv s ∧ WriteInv s

/-- The request a phase waits for, with its arguments (10_state.md R31, 41_slicer_continuation.md R201, R203, R204, R208, R210, R212). -/
def Awaits (s : State) (r : Request) : Prop :=
  match s.phase with
  | .idle => False
  | .exec => False
  | .wEosSave => r = .eosSave
  | .wEosClear => r = .eosClear
  | .wFlush => r = .flush
  | .wTx => ∃ b, Memory.loadBytes s.txbuf 0 s.txlen.toNat = some b ∧ r = .write b (if latchOp s = 6 then .tCmd else .tArray)
  | .wRxData => r = .read s.rd.expected.toNat .tArray
  | .wRxAck => r = .read 2 .tAck
  | .wRxTail => r = .read (1405 - s.ackHead.length) .tAck
  | .wEosRestore => r = .eosRestore s.eosSaved

/-- The request outstanding is the last one issued, and it is the one the phase waits for (41_slicer_continuation.md R200, R213). -/
def PendingInv (s : State) : Prop :=
  s.phase = .idle ∨ s.phase = .exec ∨ ∃ r, s.issued.getLast? = some r ∧ Awaits s r

/-- A response has the shape 41_slicer_continuation.md R200 gives the request it answers. -/
def answers : Request → Response → Bool
  | .write _ _, .done _ => true
  | .read max _, .bytes b .ok => decide (b.length = max)
  | .read max _, .bytes b .timeout => decide (b.length < max)
  | .read _ _, .bytes _ .error => true
  | .flush, .done st => decide (st ≠ .timeout)
  | .eosSave, .eos _ st => decide (st ≠ .timeout)
  | .eosClear, .done st => decide (st ≠ .timeout)
  | .eosRestore _, .done st => decide (st ≠ .timeout)
  | _, _ => false

/-- The block's one liveness premise (70_reset_and_hazards.md R355): weak fairness on the transport agent, which answers every request. The
responses still to come stand in State (log 2), so the premise is that in the run from `s` none of the waits finds the list empty, and that
the response it finds is of the shape of the request outstanding. -/
def TransportAnswers (s : State) : Prop :=
  ∀ (n : Nat) (t : State) (q : Request), Host.Core.run Sys2Proof.core n s = .next t → waiting t.phase = true →
    t.issued.getLast? = some q → ∃ r rest, t.responses = r :: rest ∧ answers q r = true

/-- The launch premises of a run on the block itself (70_reset_and_hazards.md R356): IDLE, and no EOS configuration held. -/
def Ready (s : State) : Prop := s.phase = .idle ∧ s.eosHeld = false

/-- No reset and no host read at the coming step: the sequencer moves. -/
def Quiet (s : State) : Prop := s.rst = false ∧ s.hostRead = none

/-- The state after a frame was marshalled into TXBUF and its `Write` issued (41_slicer_continuation.md R204, R208). TXBUF then holds the frame and no
other byte (log 8). -/
def sent (b : List Byte) (opc : Byte) (t : Timeout) (s : State) : State :=
  { s with
    txbuf := Memory.store [] 0 b, txlen := BitVec.ofNat 16 b.length, lastOpc := opc
    phase := .wTx, issued := s.issued ++ [.write b t] }

/-- A data reply a controller sends (30_encoding.md R107): any opcode, the continuation flag, the body and its length. -/
def replyFrame (opc : Byte) (cont : Bool) (body : List Byte) : List Byte :=
  [Config.replyStart, opc] ++ leBytes 2 (body.length + if cont then 32768 else 0) ++ body ++ [Config.replyEnd]

/-- The exchanges of a read of `data` over `n` replies (41_slicer_continuation.md R207): each `Write` succeeds and each reply carries the next
1400 bytes, with the continuation flag set while data remain. -/
def readExchanges (opc : Byte) : Nat → List Byte → List Response
  | 0, _ => []
  | n + 1, data =>
    .done .ok :: .bytes (replyFrame opc (decide (1400 < data.length)) (data.take 1400)) .ok ::
      readExchanges opc n (data.drop 1400)

/-- `ceil(db / 1400)`, the exchanges of a read (R207). -/
def exchangeCount (db : Nat) : Nat := (db + 1399) / 1400

/-- No reply of a read of `data` begins with the inline error pattern (42_error_classifier.md R257, 70_reset_and_hazards.md R347). -/
def PlainData (data : List Byte) : Prop :=
  ∀ j, j * 1400 + 5 < data.length → ¬ (byteAt data (j * 1400) = Config.qmark ∧ byteAt data (j * 1400 + 5) = Config.cr)

/-- The exchanges of a write all of whose chunks are acknowledged with the opcode sent (41_slicer_continuation.md R208, R211). -/
def writeExchanges : List ChunkRecord → List Response
  | [] => []
  | c :: plan => .done .ok :: .bytes [Config.ackByte, c.opcode] .ok :: writeExchanges plan

/-- The frames written among some requests, in order. -/
def writtenFrames : List Request → List (List Byte)
  | [] => []
  | .write b _ :: rest => b :: writtenFrames rest
  | .read _ _ :: rest => writtenFrames rest
  | .flush :: rest => writtenFrames rest
  | .eosSave :: rest => writtenFrames rest
  | .eosClear :: rest => writtenFrames rest
  | .eosRestore _ :: rest => writtenFrames rest

/-- The faults that come from outside the block: a host that reads a result it may not read, or offers what its port cannot carry, and a
transport whose response has no shape of 41_slicer_continuation.md R200. -/
def outsideFault : Fault → Bool
  | .earlyRead => true
  | .noValue => true
  | .transportShape => true
  | .badOffer => true
  | .bufferIndex => false
  | .noFrame => false

end Sys2Proof.Machine
end

