-- ==== Sys2Proof/Certificates/Slice0/Obligations.lean ====
section
/-! DEFINITION. The statements for the provers. Each docstring names the rules of spec/ it rests on. -/

open Sys2Proof Sys2Proof.Machine

/-! ## Reset, control and the host port -/

/-- 70_reset_and_hazards.md R341: after reset STATUSW is 0, and the block waits in IDLE for a command. -/
def Obligations.ResetWaitsInIdle : Prop :=
  statusw State.reset = 0 ∧ State.reset.phase = .idle ∧ State.reset.done = false ∧ State.reset.errcode = 0 ∧
    State.reset.res = Results.none ∧ step State.reset = .next State.reset

/-- 70_reset_and_hazards.md R340, R353 (the moment the values are taken is the model's, log 5): from every state, a step with RST asserted
accepts no command, issues no request and leaves the reset values; a command in progress ends without completion and without EosRestore, and
the response to its outstanding request is discarded, so that it answers no later request. -/
def Obligations.ResetDropsTheCommand : Prop :=
  ∀ s : State, s.rst = true → ∃ t, step s = .next t ∧ t.phase = .idle ∧ statusw t = 0 ∧ t.eosHeld = false ∧
    t.outlen = some 0 ∧ t.res = Results.none ∧ t.issued = [] ∧ t.offered = s.offered ∧
    t.responses = (if s.phase = .idle ∨ s.phase = .exec then s.responses else s.responses.tail) ∧ Ready t

/-- 10_state.md R33, R34: the fields of STATUSW, its reserved bits, the number of each of the seven statuses, and that BUSY is 1 exactly when
PHASE is not IDLE. -/
def Obligations.StatuswFields : Prop :=
  ∀ s : State, (statusw s).extractLsb' 0 3 = (match s.status with
      | .ok => 0 | .transport => 1 | .controller => 2 | .malformed => 3 | .protocolLimit => 4 | .argument => 5 | .unsupported => 6) ∧
     (statusw s).getLsbD 3 = s.done ∧
    ((statusw s).getLsbD 4 = true ↔ s.phase ≠ .idle) ∧ (statusw s).getLsbD 5 = s.diagEcho ∧
    (statusw s).getLsbD 6 = s.diagLegacy ∧ (statusw s).getLsbD 7 = s.diagContEnd ∧
    (statusw s).extractLsb' 8 8 = 0 ∧ (statusw s).extractLsb' 16 16 = s.errcode

/-- 10_state.md R33, R43, R48, 70_reset_and_hazards.md R343: STATUSW can be read at any time; a result register can be read only after a
completion and only when it holds a value, and each read shows its own register; a read changes nothing else. That a read before the first
completion faults is the model's reading (log 6). -/
def Obligations.HostReads : Prop :=
  ∀ (s : State) (r : HostReg), s.rst = false → s.hostRead = some r →
    let shows := fun v => step s = .next { s with hostRead := none, hostData := some v }
    (r = .statusw → shows (.word ((statusw s).setWidth 64))) ∧
    (r ≠ .statusw → s.done = false → step s = .fault .earlyRead) ∧
    (s.done = true →
      (r = .resFrame → (∀ b, s.res.frame = some b → shows (.bytes b)) ∧ (s.res.frame = none → step s = .fault .noValue)) ∧
      (r = .resExpected → (∀ v, s.res.expected = some v → shows (.word (v.setWidth 64))) ∧
        (s.res.expected = none → step s = .fault .noValue)) ∧
      (r = .resDataBytes → (∀ v, s.res.dataBytes = some v → shows (.word v)) ∧ (s.res.dataBytes = none → step s = .fault .noValue)) ∧
      (r = .resOutBytes → (∀ v, s.res.outBytes = some v → shows (.word (v.setWidth 64))) ∧
        (s.res.outBytes = none → step s = .fault .noValue)) ∧
      (r = .resInBytes → (∀ v, s.res.inBytes = some v → shows (.word (v.setWidth 64))) ∧
        (s.res.inBytes = none → step s = .fault .noValue)) ∧
      (r = .resElems → (∀ v, s.res.elems = some v → shows (.word (v.setWidth 64))) ∧
        (s.res.elems = none → step s = .fault .noValue)) ∧
      (r = .resRemsl → (∀ v, s.res.remsl = some v → shows (.word (v.setWidth 64))) ∧
        (s.res.remsl = none → step s = .fault .noValue)) ∧
      (r = .resClass → (∀ v, s.res.cls = some v → shows (.word (v.setWidth 64))) ∧ (s.res.cls = none → step s = .fault .noValue)) ∧
      (r = .resCode → (∀ v, s.res.code = some v → shows (.word (v.setWidth 64))) ∧ (s.res.code = none → step s = .fault .noValue)) ∧
      (r = .resPlan → (∀ p, s.res.plan = some p → shows (.plan p)) ∧ (s.res.plan = none → step s = .fault .noValue)) ∧
      (r = .outlen → (∀ n, s.outlen = some n → shows (.word (n.setWidth 64))) ∧ (s.outlen = none → step s = .fault .noValue)) ∧
      (r = .outbuf → (∀ n b, s.outlen = some n → Memory.loadBytes s.outbuf 0 n.toNat = some b → shows (.bytes b)) ∧
        (s.outlen = none → step s = .fault .noValue)))

/-- 10_state.md R33, R35, R41, 41_slicer_continuation.md R203: every step keeps DONE and BUSY apart, EOS_HELD with its phases, ERRCODE 0 but
for a CONTROLLER status, and ERRCODE a code of 0 to 9999. -/
def Obligations.ControlKept : Prop :=
  ∀ s t : State, ControlInv s → step s = .next t → ControlInv t

/-- 20_memory.md R70 to R72: every step keeps the three buffers canonical and within their capacities. -/
def Obligations.BuffersKept : Prop :=
  ∀ s t : State, BufferInv s → step s = .next t → BufferInv t

/-- 41_slicer_continuation.md R200, R201, R213: every step keeps the outstanding request the last one issued, and the one its phase waits
for, with its arguments and its timeout. A step adds at most one request, and in a waiting phase only when it takes the response to the one before; acceptance
and reset begin a new log, of at most one request. -/
def Obligations.OneRequestOutstanding : Prop :=
  ∀ s t : State, step s = .next t →
    (PendingInv s → PendingInv t) ∧
    (t.issued = s.issued ∨ (∃ r, t.issued = s.issued ++ [r]) ∨ (s.phase = .idle ∨ s.rst = true) ∧ t.issued.length ≤ 1) ∧
    (s.rst = false → s.phase ≠ .idle → s.phase ≠ .exec → t.issued ≠ s.issued → ∃ r, s.responses = r :: t.responses)

/-- The invariants hold after reset. -/
def Obligations.InvariantsAtReset : Prop :=
  RunInv State.reset ∧ PendingInv State.reset

/-- 41_slicer_continuation.md R207, R208, R214, 43_slice_wrap_tracker.md R282, R283, 30_encoding.md R118: every step keeps all the invariants of a run:
control, buffers, frames, the progress of a read and of a write. -/
def Obligations.RunKept : Prop :=
  ∀ s t : State, RunInv s → step s = .next t → RunInv t

/-- 30_encoding.md R101, R102, R117, 20_memory.md R70, 43_slice_wrap_tracker.md R282: every instruction has its meaning, so no step is refused; and in
a run no buffer index is out of range, and there is always a frame to send: a step stops only for a host or a transport that breaks its own rules. -/
def Obligations.NoFaultFromInside : Prop :=
  (∀ (s : State) (r : Refusal), step s ≠ .refused r) ∧
  ∀ (s : State) (e : Fault), RunInv s → step s = .fault e → outsideFault e = true

/-- 70_reset_and_hazards.md R355, 41_slicer_continuation.md R214: if the transport answers every request (the liveness premise), every command
completes: each step after the acceptance takes one response, XFER_RD issues at most 3 + 2 × 10 + 1 requests, XFER_WR at most 3 + 3 × C + 1 for the C chunks of
its plan, and every other command none. -/
def Obligations.EveryCommandCompletes : Prop :=
  ∀ (s : State) (o : Offer) (rest : List Offer), RunInv s → Ready s → Quiet s → s.offered = o :: rest → o.wf = true →
    TransportAnswers s →
    ∃ t, Host.Core.run Sys2Proof.core (t.issued.length + 1) s = .next t ∧ t.phase = .idle ∧ t.done = true ∧ t.eosHeld = false ∧
      t.offered = rest ∧
      (∀ n u, 1 ≤ n → n ≤ t.issued.length → Host.Core.run Sys2Proof.core n s = .next u → u.done = false ∧ u.issued.length = n) ∧
      (∀ f, decodeCommand o.cmdw = .xferRd f → t.issued.length ≤ 24) ∧
      (∀ f opS opL t0 t1 plan, decodeCommand o.cmdw = .xferWr f → writeOpcodes f.kind = .ok (opS, opL) →
        wtInit o.desc f.kind (wtCounts s.wt) = .ok t0 → planLoop o.desc f.kind opS opL (numElements o.desc) t0 = .ok (t1, plan) →
        t.issued.length ≤ 4 + 3 * plan.length) ∧
      ((∀ f, decodeCommand o.cmdw ≠ .xferRd f ∧ decodeCommand o.cmdw ≠ .xferWr f) → t.issued = [])

/-- A silent transport and a host with no command leave the block where it is (41_slicer_continuation.md R202, 70_reset_and_hazards.md R343, R349). -/
def Obligations.Waits : Prop :=
  ∀ s : State, Quiet s →
    (s.phase = .idle → s.offered = [] → step s = .next s) ∧
    (s.phase ≠ .idle → s.phase ≠ .exec → s.responses = [] → step s = .next s)

/-! ## Decoding and encoding -/

/-- 30_encoding.md R100 to R102, R117: decoding the bytes of a well-formed instruction gives it back. The order of a command word's two bytes is the
model's choice (log 25). -/
def Obligations.DecodeEncode : Prop :=
  ∀ i : Instr, i.wf = true → decode (encode i) = .ok i

/-- 30_encoding.md R100: no bit of a command word is lost: what it decodes to is well formed and has that word. -/
def Obligations.CommandWordKept : Prop :=
  ∀ w : CmdWord, (decodeCommand w).wf = true ∧ (decodeCommand w).command = some w

/-- 30_encoding.md R105, R120: a request frame is read back from the front of a byte stream: its opcode, its body, the bytes after it. -/
def Obligations.RequestFrameDecodes : Prop :=
  ∀ (i : Instr) (opc : Byte) (body rest : List Byte), decodeOpcode opc = .ok i → body.length ≤ 1400 →
    decodeFrame (frame opc body ++ rest) = .ok (i, body, rest)

/-- 30_encoding.md R119: a descriptor's text names it: two valid descriptors with the same text have the same name and ranges. -/
def Obligations.DescriptorTextNames : Prop :=
  ∀ d e : Descriptor, validDesc d false = true → validDesc e false = true → ascii d = ascii e →
    d.name = e.name ∧ d.d1s = e.d1s ∧ d.d1e = e.d1e ∧ d.hasD2 = e.hasD2 ∧
      (d.hasD2 = true → d.d2s = e.d2s ∧ d.d2e = e.d2e)

/-- Words written out from 30_encoding.md R100, R117 and 95_test_vectors.md A1, A2 decode to what they stand for. That a command word's low byte
comes first is the model's choice (log 25, DESIGN CHOICE). -/
def Obligations.WordsDecode : Prop :=
  decode [0x01, 0x00] = .ok (.encRd ⟨.float64, .read, 0⟩) ∧
  decode [0x0A, 0x01] = .ok (.encRdsl ⟨.int32, .read, 1⟩) ∧
  decode [0x03, 0x09] = .ok (.encWr ⟨.float64, .read, 9⟩) ∧
  decode [0x14, 0x00] = .ok (.decErr ⟨.float64, .nak, 0⟩) ∧
  decode [0x0E, 0x00] = .ok (.xferRd ⟨.int32, .read, 0⟩) ∧
  decode [0x26, 0x00] = .ok (.illegal 0x0026) ∧
  decode [0x41] = .ok .rdLongF64 ∧ decode [0xF2] = .ok .wrShortF64

/-! ## One step -/

/-- 41_slicer_continuation.md R202: in IDLE a step accepts and runs the command the host offers first. -/
def Obligations.StepRunsCommand : Prop :=
  ∀ (s : State) (o : Offer) (rest : List Offer), Quiet s → s.phase = .idle → s.offered = o :: rest → o.wf = true →
    step s = exec (decodeCommand o.cmdw) s

/-- The model's reading (log 1, DEDUCED, with log 13): a step that begins in EXEC runs the wire opcode of the frame the transfer sends next. No
run has such a step: the frame goes out in the step of the response that leads to it (00_scope.md R12; ResponseAndNextFrameAreOneStep says that), and only
withFetchWord or a statement puts the block there. Which frame and which opcode that is, 41_slicer_continuation.md R204, R208 and 30_encoding.md R117 say. -/
def Obligations.StepRunsWireOpcode : Prop :=
  ∀ s : State, Quiet s → s.phase = .exec →
    (∀ c, latchOp s = 6 → nextRead s = .ok c → step s = exec c.op s) ∧
    (∀ c, latchOp s = 7 → nextWrite s = .ok c → step s = exec c.op s)

/-- 00_scope.md R12: a response whose processing ends in EXEC is one atomic step with the sending of the next frame. -/
def Obligations.ResponseAndNextFrameAreOneStep : Prop :=
  ∀ (s t : State) (r : Response) (rest : List Response), Quiet s → s.phase ≠ .idle → s.phase ≠ .exec →
    s.responses = r :: rest → handle r { s with responses := rest } = .next t →
    (t.phase ≠ .exec → step s = .next t) ∧
    (t.phase = .exec → ∀ i, selectWire t = some (.ok i) → step s = exec i t)

/-- 41_slicer_continuation.md R202, 10_state.md R32: while PHASE is not IDLE a command offered is held by the host: no step without RST takes it, and the
latches hold what the last acceptance latched. The second part is about a host command run at a busy block, which no step does: nothing changes. -/
def Obligations.CommandHeldWhileBusy : Prop :=
  (∀ s t : State, s.rst = false → s.phase ≠ .idle → step s = .next t → t.offered = s.offered ∧ t.latch = s.latch) ∧
  ∀ (i : Instr) (w : CmdWord) (s : State), i.command = some w → s.phase ≠ .idle → exec i s = .next s

/-! ## The pure commands -/

/-- 30_encoding.md R102: a word with OP = 0 or CMDW[7:5] ≠ 0, and no other, is illegal; it is accepted, does nothing else, and completes with
ARGUMENT and no transport request. -/
def Obligations.IllegalWordCompletes : Prop :=
  (∀ w : CmdWord, (w.extractLsb' 0 3 = 0#3 ∨ w.extractLsb' 5 3 ≠ 0#3) ↔ decodeCommand w = .illegal w) ∧
  ∀ (w : CmdWord) (s : State), Ready s → ∃ t, exec (.illegal w) s = .next t ∧ t = complete .argument 0 (accept w s) ∧
    statusw t = 0x0000000D ∧ t.issued = [] ∧ t.res = Results.none

/-- 40_frame_codec.md R154: ENC_RD. The first part spells out the five conditions of a valid descriptor (40_frame_codec.md R151, R152), on which this
and the other command statements turn; `forRead` asks for the last one. -/
def Obligations.EncRdResult : Prop :=
  (∀ (d : Descriptor) (forRead : Bool), validDesc d forRead = true ↔
    (d.name ≠ [] ∧ ∀ c ∈ d.name, 0x41 ≤ c.toNat ∧ c.toNat ≤ 0x5A ∨ 0x61 ≤ c.toNat ∧ c.toNat ≤ 0x7A ∨
      0x30 ≤ c.toNat ∧ c.toNat ≤ 0x39 ∨ c = 0x5F) ∧
    (d.d1s.toNat ≤ d.d1e.toNat ∧ d.d1e.toNat ≤ 2147483647) ∧
    (d.hasD2 = true → d.d2s.toNat ≤ d.d2e.toNat ∧ d.d2e.toNat ≤ 2147483647) ∧
    (d.d1e.toNat - d.d1s.toNat + 1) * (if d.hasD2 then d.d2e.toNat - d.d2s.toNat + 1 else 1) ≤ 2147483647 ∧
    (forRead = true → (ascii d).length ≤ 1394)) ∧
  ∀ (f : Fields) (s : State), Ready s →
    let d := (portOperands s).desc
    let db := dataBytes d f.kind
    let opc : Byte :=
      if db > 1400 then (if f.kind = .float64 then 0x41 else 0x44) else (if f.kind = .float64 then 0xF0 else 0xF1)
    (validDesc d true = false → exec (.encRd f) s = .next (complete .argument 0 (accept (commandWord 1 f) s))) ∧
    (validDesc d true = true → exec (.encRd f) s = .next (complete .ok 0
      { accept (commandWord 1 f) s with res := { Results.none with
          frame := some (frame opc ([0x25, 0x3F, 0x3F] ++ [dsb f.kind] ++ ascii d))
          expected := some (BitVec.ofNat 16 (if db > 1400 then 1405 else db + 5))
          dataBytes := some (BitVec.ofNat 64 db) } }))

/-- 40_frame_codec.md R156: ENC_RDSL. -/
def Obligations.EncRdslResult : Prop :=
  ∀ (f : Fields) (s : State), Ready s →
    let d := (portOperands s).desc
    let db := dataBytes d f.kind
    let k := f.slice.toNat
    (validDesc d true = false → exec (.encRdsl f) s = .next (complete .argument 0 (accept (commandWord 2 f) s))) ∧
    (validDesc d true = true → ¬ (1 ≤ k ∧ k ≤ 9 ∧ k * 1400 < db) →
      exec (.encRdsl f) s = .next (complete .protocolLimit 0 (accept (commandWord 2 f) s))) ∧
    (validDesc d true = true → 1 ≤ k → k ≤ 9 → k * 1400 < db → exec (.encRdsl f) s = .next (complete .ok 0
      { accept (commandWord 2 f) s with res := { Results.none with
          frame := some (frame (if f.kind = .float64 then 0x42 else 0x45)
            ([0x25] ++ dec k ++ [0x25, 0x3F, 0x3F] ++ [dsb f.kind] ++ ascii d))
          expected := some (BitVec.ofNat 16 (if db - k * 1400 > 1400 then 1405 else db - k * 1400 + 5))
          dataBytes := some (BitVec.ofNat 64 db) } }))

/-- 40_frame_codec.md R157, R158, 60_exceptions.md R307: the errors of ENC_WR before its frame, in their order: ARGUMENT, UNSUPPORTED,
PROTOCOL_LIMIT. -/
def Obligations.EncWrErrors : Prop :=
  ∀ (f : Fields) (s : State), Ready s →
    let d := (portOperands s).desc
    let data := (portOperands s).data
    let n := numElements d
    let a := asciiLen d
    let es := esize f.kind
    let fails := fun e => exec (.encWr f) s = .next (complete e 0 (accept (commandWord 3 f) s))
    (validDesc d false = false ∨ data.length ≠ n → fails .argument) ∧
    (validDesc d false = true → data.length = n → ∀ e, writeOpcodes f.kind = .error e → fails .unsupported) ∧
    (validDesc d false = true → data.length = n → ∀ w, writeOpcodes f.kind = .ok w →
      (a + 6 + n * es ≤ 1400 → f.slice.toNat ≠ 0 → fails .protocolLimit) ∧
      (1400 < a + 6 + n * es → 1400 < a + 8 + es → fails .protocolLimit) ∧
      (1400 < a + 6 + n * es → a + 8 + es ≤ 1400 →
        ¬ (f.slice.toNat ≤ 9 ∧ f.slice.toNat < (n + (1400 - a - 8) / es - 1) / ((1400 - a - 8) / es)) →
        fails .protocolLimit))

/-- 40_frame_codec.md R157, 30_encoding.md R114: ENC_WR of an array that fits in one packet. -/
def Obligations.EncWrSinglePacket : Prop :=
  ∀ (f : Fields) (s : State) (opS opL : Byte), Ready s →
    let d := (portOperands s).desc
    let data := (portOperands s).data
    let n := numElements d
    validDesc d false = true → data.length = n → writeOpcodes f.kind = .ok (opS, opL) →
    asciiLen d + 6 + n * esize f.kind ≤ 1400 → f.slice = 0 →
    let b := frame opS ([0x25, 0x3E, 0x3E] ++ [dsb f.kind] ++ ascii d ++ [0x2F, 0x25] ++ dataField f.kind data)
    b.length = asciiLen d + n * esize f.kind + 11 ∧
    exec (.encWr f) s = .next (complete .ok 0
      { accept (commandWord 3 f) s with res := { Results.none with
          frame := some b
          outBytes := some (BitVec.ofNat 16 b.length)
          inBytes := some 2
          elems := some (BitVec.ofNat 32 n)
          remsl := some 0 } })

/-- 40_frame_codec.md R157, 30_encoding.md R115: ENC_WR of slice k of an array that needs several packets, with the geometry of R158. -/
def Obligations.EncWrChunk : Prop :=
  ∀ (f : Fields) (s : State) (opS opL : Byte), Ready s →
    let d := (portOperands s).desc
    let data := (portOperands s).data
    let n := numElements d
    let k := f.slice.toNat
    let m := (1400 - asciiLen d - 8) / esize f.kind
    let p := (n + m - 1) / m
    let e := if k < p - 1 then m else n - (p - 1) * m
    validDesc d false = true → data.length = n → writeOpcodes f.kind = .ok (opS, opL) →
    1400 < asciiLen d + 6 + n * esize f.kind → asciiLen d + 8 + esize f.kind ≤ 1400 → k ≤ 9 → k < p →
    let b := frame opL ([0x25] ++ [digit k] ++ [0x25, 0x3E, 0x3E] ++ [dsb f.kind] ++ ascii d ++ [0x2F, 0x25] ++
      dataField f.kind ((data.drop (k * m)).take e))
    1 ≤ e ∧ e ≤ m ∧ b.length = asciiLen d + e * esize f.kind + 13 ∧ b.length ≤ 1405 ∧
    exec (.encWr f) s = .next (complete .ok 0
      { accept (commandWord 3 f) s with res := { Results.none with
          frame := some b
          outBytes := some (BitVec.ofNat 16 b.length)
          inBytes := some 2
          elems := some (BitVec.ofNat 32 e)
          remsl := some (BitVec.ofNat 32 (p - k - 1)) } })

/-- 40_frame_codec.md R160: the write opcodes, and UNSUPPORTED before any transport request for ENC_WR, PLAN_WR and XFER_WR of Int32 elements
unless both opcodes are configured. -/
def Obligations.Int32WritesNeedOpcodes : Prop :=
  writeOpcodes .float64 = .ok (0xF2, 0x37) ∧
  (match Config.opcWrShortI32, Config.opcWrLongI32 with
    | some a, some b => writeOpcodes .int32 = .ok (a, b)
    | _, _ =>
      ∀ (f : Fields) (s : State), f.kind = .int32 → Ready s → validDesc (portOperands s).desc false = true →
        exec (.planWr f) s = .next (complete .unsupported 0 (accept (commandWord 5 f) s)) ∧
        ((portOperands s).data.length = numElements (portOperands s).desc →
          exec (.encWr f) s = .next (complete .unsupported 0 (accept (commandWord 3 f) s)) ∧
          exec (.xferWr f) s = .next (complete .unsupported 0 (accept (commandWord 7 f) s))))

/-- 40_frame_codec.md R159: the element count of a chunk is recovered from its frame's length. -/
def Obligations.ChunkCountFromLength : Prop :=
  ∀ (d : Descriptor) (k : Kind) (data : List Elem) (n : Nat) (c : WriteCmd), encodeWrite d k data n = .ok c →
    let ov := if asciiLen d + 6 + numElements d * esize k ≤ 1400 then 6 else 8
    c.frame.length = 5 + asciiLen d + ov + c.elems * esize k ∧
    c.elems = (c.frame.length - 5 - asciiLen d - ov) / esize k

/-- 40_frame_codec.md R159: the chunks of a multi-packet write, slices 0 to P − 1, together hold all n elements. -/
def Obligations.ChunksCoverTheArray : Prop :=
  ∀ (d : Descriptor) (k : Kind) (g : Geometry), geom d k = .ok g → g.single = false →
    ((List.range g.p).map (chunkElems g (numElements d))).sum = numElements d

/-- 30_encoding.md R105, R118, 20_memory.md R71: whatever ENC_RD, ENC_RDSL and ENC_WR put in RES_FRAME is a request frame of at most 1405 bytes. -/
def Obligations.EncodersGiveRequestFrames : Prop :=
  ∀ (f : Fields) (i : Instr) (s t : State) (b : List Byte), Ready s → (i = .encRd f ∨ i = .encRdsl f ∨ i = .encWr f) →
    exec i s = .next t → t.res.frame = some b → IsRequestFrame b ∧ b.length ≤ 1405

/-- 40_frame_codec.md R155, 42_error_classifier.md R256: the size of every data reply: its share of the data and five bytes, congruent to 1 modulo 4,
from 9 to 1405. -/
def Obligations.ReplySizes : Prop :=
  ∀ (d : Descriptor) (k : Kind) (n : Nat), n * 1400 < dataBytes d k →
    replySize (dataBytes d k) n = min (dataBytes d k - n * 1400) 1400 + 5 ∧ replySize (dataBytes d k) n % 4 = 1 ∧
      9 ≤ replySize (dataBytes d k) n ∧ replySize (dataBytes d k) n ≤ 1405

/-- 42_error_classifier.md R250, R253: DEC_ERR completes OK whatever it finds, with the class, the code and, for 11 bytes on the NAK path,
DIAG_LEGACY; ERRCODE is not written. -/
def Obligations.DecErrResult : Prop :=
  ∀ (f : Fields) (s : State), Ready s →
    let b := (portOperands s).buf
    let t := complete .ok 0
      { accept (commandWord 4 f) s with
        diagLegacy := decide (f.path = .nak ∧ b.length = 11)
        res := { Results.none with
          cls := some (match classify f.path b with | .noError => 0 | .controllerError _ => 1 | .malformedError => 2)
          code := some (match classify f.path b with | .noError => 0 | .controllerError c => BitVec.ofNat 16 c | .malformedError => 0) } }
    exec (.decErr f) s = .next t ∧ t.errcode = 0

/-- 42_error_classifier.md R251, R252, R255, 30_encoding.md R109: on the NAK path a buffer is a controller error exactly when it is a Shape A frame, and
the code is its four digits; every other buffer is malformed. -/
def Obligations.ClassifyNak : Prop :=
  ∀ b : List Byte,
    (∀ code, classify .nak b = .controllerError code ↔
      ∃ (op : Byte) (d3 d2 d1 d0 : Nat), d3 ≤ 9 ∧ d2 ≤ 9 ∧ d1 ≤ 9 ∧ d0 ≤ 9 ∧
        b = [0xE3, op, 0x36, 0x3F, digit d3, digit d2, digit d1, digit d0, 0x0D, 0xE6] ∧
        code = 1000 * d3 + 100 * d2 + 10 * d1 + d0) ∧
    classify .nak b ≠ .noError

/-- 42_error_classifier.md R251, R254, R255, 30_encoding.md R111: on the READ path a buffer is a controller error exactly when it has the inline pattern with
four digits; with the pattern and another byte among the four it is malformed; every other buffer is no error. -/
def Obligations.ClassifyRead : Prop :=
  ∀ b : List Byte,
    (∀ code, classify .read b = .controllerError code ↔
      ∃ (h0 h1 h2 h3 : Byte) (d3 d2 d1 d0 : Nat) (rest : List Byte), d3 ≤ 9 ∧ d2 ≤ 9 ∧ d1 ≤ 9 ∧ d0 ≤ 9 ∧
        b = [h0, h1, h2, h3, 0x3F, digit d3, digit d2, digit d1, digit d0, 0x0D] ++ rest ∧
        code = 1000 * d3 + 100 * d2 + 10 * d1 + d0) ∧
    (classify .read b = .noError ↔ ¬ (10 ≤ b.length ∧ byteAt b 4 = 0x3F ∧ byteAt b 9 = 0x0D))

/-! ## The tracker and PLAN_WR -/

/-- 43_slice_wrap_tracker.md R280, R281, R285: PLAN_WR completes with a plan whenever its checks pass, the plan of the tracker's loop, and WT is what the loop leaves. Every
field of every record is given (PlanRecord). The plan covers the array in order, each slice 0 to 9, each frame at most 1405 bytes, exactly the last record with
rem = 0, at most n records, and their counts sum to n (items 1 to 6 and the bound of 7). -/
def Obligations.PlanWrResult : Prop :=
  ∀ (f : Fields) (s : State) (opS opL : Byte), Ready s →
    let d := (portOperands s).desc
    validDesc d false = true → writeOpcodes f.kind = .ok (opS, opL) → planCheck d f.kind = .ok () →
    ∃ (t : State) (t0 t1 : WtCounts) (c : ChunkRecord) (plan : List ChunkRecord), exec (.planWr f) s = .next t ∧
      wtInit d f.kind (wtCounts s.wt) = .ok t0 ∧ planLoop d f.kind opS opL (numElements d) t0 = .ok (t1, c :: plan) ∧ t.wt = wtRegs t1 ∧
      (∀ r ∈ c :: plan, PlanRecord d f.kind opS opL r) ∧
      t.res = { Results.none with plan := some (c :: plan) } ∧ t.status = .ok ∧ t.done = true ∧ t.phase = .idle ∧ t.issued = [] ∧
      PlanFrom (numElements d) 0 (c :: plan) ∧ c.slice = 0 ∧ c.segBase = 0 ∧ c.segDesc = d ∧
      (c :: plan).length ≤ numElements d ∧ ((c :: plan).map fun r => r.count.toNat).sum = numElements d ∧
      t.wt.sent.toNat = numElements d

/-- 43_slice_wrap_tracker.md R281, 60_exceptions.md R307: the errors of PLAN_WR, in their order. -/
def Obligations.PlanWrErrors : Prop :=
  ∀ (f : Fields) (s : State), Ready s →
    let d := (portOperands s).desc
    let fails := fun e => exec (.planWr f) s = .next (complete e 0 (accept (commandWord 5 f) s))
    (validDesc d false = false → fails .argument) ∧
    (validDesc d false = true → ∀ e, writeOpcodes f.kind = .error e → fails .unsupported) ∧
    (validDesc d false = true → ∀ w e, writeOpcodes f.kind = .ok w → planCheck d f.kind = .error e → fails .protocolLimit)

/-- 43_slice_wrap_tracker.md R284: a write whose second dimension spans and whose first segment needs more than 10 packets completes with
PROTOCOL_LIMIT before any transport request; one of up to 10 packets is planned. -/
def Obligations.TwoDimensionalWrap : Prop :=
  ∀ (f : Fields) (s : State) (w : Byte × Byte) (g : Geometry), Ready s →
    let d := (portOperands s).desc
    validDesc d false = true → d2spans d = true → writeOpcodes f.kind = .ok w → geom d f.kind = .ok g →
    (10 < g.p → exec (.planWr f) s = .next (complete .protocolLimit 0 (accept (commandWord 5 f) s)) ∧
      ((portOperands s).data.length = numElements d →
        exec (.xferWr f) s = .next (complete .protocolLimit 0 (accept (commandWord 7 f) s)))) ∧
    (g.p ≤ 10 → planCheck d f.kind = .ok () ∧
      ∃ t plan, exec (.planWr f) s = .next t ∧ t.status = .ok ∧ t.res.plan = some plan ∧ plan.length = g.p)

/-- 43_slice_wrap_tracker.md R283: the tracker advances to the next slice below 9, and after slice 9 starts a new segment at the elements sent, with
the shifted descriptor and its own geometry. -/
def Obligations.TrackerAdvances : Prop :=
  ∀ (d : Descriptor) (k : Kind) (t : WtCounts),
    (t.slice < 9 → wtAdvance d k t = .ok (setChunk { t with slice := t.slice + 1 })) ∧
    (t.slice = 9 → ∀ g, geom (shift d t.sent) k = .ok g → ∃ t', wtAdvance d k t = .ok t' ∧
      t'.slice = 0 ∧ t'.segBase = t.sent ∧ t'.segDesc = shift d t.sent ∧ t'.offset = t.sent ∧ t'.p = g.p ∧
      t'.m = (if g.single then 0 else g.m) ∧ t'.sent = t.sent ∧ t'.total = t.total)

/-! ## The transfers -/

/-- 41_slicer_continuation.md R204, R212: XFER_RD's checks in their order, and its start: the read registers, the first frame in TXBUF, which holds no other byte (log 8, DESIGN
CHOICE), and EosSave issued. -/
def Obligations.XferRdStarts : Prop :=
  ∀ (f : Fields) (s : State), Ready s →
    let d := (portOperands s).desc
    let db := dataBytes d f.kind
    let a := accept (commandWord 6 f) s
    (validDesc d true = false → exec (.xferRd f) s = .next (complete .argument 0 a)) ∧
    (validDesc d true = true → 14000 < db → exec (.xferRd f) s = .next (complete .protocolLimit 0 a)) ∧
    (validDesc d true = true → db ≤ 14000 →
      ∃ t b, exec (.xferRd f) s = .next t ∧
        b = frame (if db > 1400 then (if f.kind = .float64 then 0x41 else 0x44) else (if f.kind = .float64 then 0xF0 else 0xF1))
          ([0x25, 0x3F, 0x3F] ++ [dsb f.kind] ++ ascii d) ∧
        t = { a with
          rd := { slice := 0, dataBytes := BitVec.ofNat 16 db, bytesRead := 0, remain := BitVec.ofNat 16 db
                  expected := BitVec.ofNat 16 (if db > 1400 then 1405 else db + 5), cont := s.rd.cont }
          outlen := some 0, txbuf := Memory.store [] 0 b, txlen := BitVec.ofNat 16 b.length
          phase := .wEosSave, issued := [.eosSave] } ∧
        t.rd.dataBytes.toNat = db ∧ t.txlen.toNat = b.length ∧ Memory.loadBytes t.txbuf 0 b.length = some b)

/-- 41_slicer_continuation.md R208, R212, 43_slice_wrap_tracker.md R282: XFER_WR's checks in their order, and its start: the tracker at the first chunk, RES_ELEMS = 0, and
EosSave issued. -/
def Obligations.XferWrStarts : Prop :=
  ∀ (f : Fields) (s : State), Ready s →
    let d := (portOperands s).desc
    let n := numElements d
    let a := accept (commandWord 7 f) s
    let fails := fun e => exec (.xferWr f) s = .next (complete e 0 a)
    (validDesc d false = false ∨ (portOperands s).data.length ≠ n → fails .argument) ∧
    (validDesc d false = true → (portOperands s).data.length = n →
      (∀ e, writeOpcodes f.kind = .error e → fails .unsupported) ∧
      (∀ w e, writeOpcodes f.kind = .ok w → planCheck d f.kind = .error e → fails .protocolLimit) ∧
      (∀ w, writeOpcodes f.kind = .ok w → planCheck d f.kind = .ok () →
        ∃ t, exec (.xferWr f) s = .next { a with
            wt := wtRegs t, res := { Results.none with elems := some 0 }, phase := .wEosSave, issued := [.eosSave] } ∧
          wtCounts (wtRegs t) = t ∧ Tracking d f.kind t ∧ t.total = n ∧ t.sent = 0 ∧ t.segBase = 0 ∧ t.segDesc = d ∧ t.slice = 0 ∧ t.offset = 0))

/-- 41_slicer_continuation.md R201, R204, R208, R212, 60_exceptions.md R301: the raw-mode entry and the response to the `Write` of a frame, response by
response: where one is not OK the command ends with TRANSPORT, after the restore where the EOS configuration is held; where it is OK the next
request is issued. -/
def Obligations.EnterRawSteps : Prop :=
  ∀ (s : State) (st : XStatus) (rest : List Response), Quiet s →
    let s' := { s with responses := rest }
    let fails := step s = .next { s' with
      finStatus := .transport, finCode := 0, phase := .wEosRestore, issued := s.issued ++ [.eosRestore s.eosSaved] }
    (∀ cfg, s.phase = .wEosSave → s.eosHeld = false → s.responses = .eos cfg st :: rest →
      (st = .ok → step s = .next { s' with
        eosSaved := cfg, eosHeld := true, phase := .wEosClear, issued := s.issued ++ [.eosClear] }) ∧
      (st = .error → step s = .next (complete .transport 0 s'))) ∧
    (s.eosHeld = true → s.responses = .done st :: rest →
      (s.phase = .wEosClear →
        (st = .ok → step s = .next { s' with phase := .wFlush, issued := s.issued ++ [.flush] }) ∧ (st = .error → fails)) ∧
      (s.phase = .wFlush → (st = .ok → step s = runWire { s' with phase := .exec }) ∧ (st = .error → fails)) ∧
      (s.phase = .wTx →
        (st = .ok → latchOp s = 6 → step s = .next { s' with
          phase := .wRxData, issued := s.issued ++ [.read s.rd.expected.toNat .tArray] }) ∧
        (st = .ok → latchOp s = 7 → step s = .next { s' with phase := .wRxAck, issued := s.issued ++ [.read 2 .tAck] }) ∧
        (st = .timeout ∨ st = .error → fails)))

/-- 30_encoding.md R117, 40_frame_codec.md R154, 41_slicer_continuation.md R201, R204: the four first-read opcodes, each sent in the case R117 gives it.
TXBUF holds the frame and no other byte (log 8, DESIGN CHOICE). -/
def Obligations.FirstReadIsSent : Prop :=
  ∀ s : State, s.phase = .exec → latchOp s = 6 → s.rd.slice = 0 → validDesc s.latch.desc true = true →
    let d := s.latch.desc
    let db := dataBytes d (latchKind s)
    let short := fun opc dsb => sent (frame opc ([0x25, 0x3F, 0x3F] ++ [dsb] ++ ascii d)) opc .tCmd
      { s with rd := { s.rd with expected := BitVec.ofNat 16 (db + 5) } }
    let long := fun opc dsb => sent (frame opc ([0x25, 0x3F, 0x3F] ++ [dsb] ++ ascii d)) opc .tCmd
      { s with rd := { s.rd with expected := 1405 } }
    (latchKind s = .float64 → db ≤ 1400 → exec .rdShortF64 s = .next (short 0xF0 0x08)) ∧
    (latchKind s = .float64 → 1400 < db → exec .rdLongF64 s = .next (long 0x41 0x08)) ∧
    (latchKind s = .int32 → db ≤ 1400 → exec .rdShortI32 s = .next (short 0xF1 0x04)) ∧
    (latchKind s = .int32 → 1400 < db → exec .rdLongI32 s = .next (long 0x44 0x04))

/-- 30_encoding.md R113, R117, 40_frame_codec.md R156, 41_slicer_continuation.md R204: the two slice-read opcodes, sent for every slice 1 to 9 of the data.
TXBUF holds the frame and no other byte (log 8, DESIGN CHOICE). -/
def Obligations.SliceReadIsSent : Prop :=
  ∀ s : State, s.phase = .exec → latchOp s = 6 → validDesc s.latch.desc true = true → 1 ≤ s.rd.slice → s.rd.slice ≤ 9 →
    s.rd.slice.toNat * 1400 < dataBytes s.latch.desc (latchKind s) →
    let rem := dataBytes s.latch.desc (latchKind s) - s.rd.slice.toNat * 1400
    let slice := fun opc dsb => sent
      (frame opc ([0x25] ++ [digit s.rd.slice.toNat] ++ [0x25, 0x3F, 0x3F] ++ [dsb] ++ ascii s.latch.desc)) opc .tCmd
      { s with rd := { s.rd with expected := BitVec.ofNat 16 (if rem > 1400 then 1405 else rem + 5) } }
    (latchKind s = .float64 → exec .rdslF64 s = .next (slice 0x42 0x08)) ∧
    (latchKind s = .int32 → exec .rdslI32 s = .next (slice 0x45 0x04))

/-- 30_encoding.md R114, R115, R117, 41_slicer_continuation.md R208: the Float64 write opcodes: the short one for a segment in one packet, the long one for every chunk
of a multi-packet segment. TXBUF holds the frame and no other byte (log 8, DESIGN CHOICE). -/
def Obligations.Float64ChunkIsSent : Prop :=
  ∀ s : State, s.phase = .exec → latchOp s = 7 → latchKind s = .float64 → validDesc s.latch.desc false = true →
    s.latch.data.length = numElements s.latch.desc → Tracking s.latch.desc .float64 (wtCounts s.wt) →
    let d := s.wt.segDesc
    let data := (s.latch.data.drop s.wt.offset.toNat).take s.wt.chunk.toNat
    (s.wt.m = 0 → exec .wrShortF64 s = .next (sent
      (frame 0xF2 ([0x25, 0x3E, 0x3E] ++ [0x08] ++ ascii d ++ [0x2F, 0x25] ++ dataField .float64 data)) 0xF2 .tArray s)) ∧
    (s.wt.m ≠ 0 → exec .wrLongF64 s = .next (sent
      (frame 0x37 ([0x25] ++ [digit s.wt.slice.toNat] ++ [0x25, 0x3E, 0x3E] ++ [0x08] ++ ascii d ++ [0x2F, 0x25] ++ dataField .float64 data))
      0x37 .tArray s))

/-- 40_frame_codec.md R160, 30_encoding.md R117, 41_slicer_continuation.md R208: the Int32 write opcodes, sent as the Float64 ones are when both are configured. When
they are not, the rules send no Int32 frame, and that running such an opcode then leaves the state as it is, is the model's choice (log 13, DESIGN CHOICE), and so is
that TXBUF holds no other byte where a frame was put into it (log 8, DESIGN CHOICE). -/
def Obligations.Int32ChunkIsSent : Prop :=
  ∀ s : State, s.phase = .exec → latchOp s = 7 → latchKind s = .int32 → validDesc s.latch.desc false = true →
    s.latch.data.length = numElements s.latch.desc → Tracking s.latch.desc .int32 (wtCounts s.wt) →
    let d := s.wt.segDesc
    let data := (s.latch.data.drop s.wt.offset.toNat).take s.wt.chunk.toNat
    match Config.opcWrShortI32, Config.opcWrLongI32 with
    | some opS, some opL =>
      (s.wt.m = 0 → exec .wrShortI32 s = .next (sent
        (frame opS ([0x25, 0x3E, 0x3E] ++ [0x04] ++ ascii d ++ [0x2F, 0x25] ++ dataField .int32 data)) opS .tArray s)) ∧
      (s.wt.m ≠ 0 → exec .wrLongI32 s = .next (sent
        (frame opL ([0x25] ++ [digit s.wt.slice.toNat] ++ [0x25, 0x3E, 0x3E] ++ [0x04] ++ ascii d ++ [0x2F, 0x25] ++ dataField .int32 data))
        opL .tArray s))
    | _, _ => exec .wrShortI32 s = .next s ∧ exec .wrLongI32 s = .next s

/-- 30_encoding.md R117, R118, 41_slicer_continuation.md R213 (what an opcode does where R117 does not send it is the model's, log 13): a wire opcode that is not the one the sequencer
sends next leaves everything as it is. -/
def Obligations.OtherOpcodesAreNotSent : Prop :=
  ∀ (i : Instr) (s : State), i.command = none → (s.phase ≠ .exec ∨ selectWire s ≠ some (.ok i)) → exec i s = .next s

/-- 43_slice_wrap_tracker.md R281, R283, 41_slicer_continuation.md R208: in a run of XFER_WR each frame has the opcode and the length that PLAN_WR's record of its
chunk gives: the first frame, sent in the step of the OK response to Flush, and each next one, sent in the step of an acknowledgement with WT_REMSL not 0,
after the tracker went on. A step that begins in EXEC, which no run has, sends the frame of the tracker's chunk: the last part is the model's reading (log 1). -/
def Obligations.TransferSendsThePlan : Prop :=
  ∀ (s : State) (opS opL : Byte) (rest : List Response), RunInv s → Quiet s → latchOp s = 7 →
    writeOpcodes (latchKind s) = .ok (opS, opL) →
    let sends := fun (w : WriteRegs) => ∃ t b, step s = .next t ∧ t.issued = s.issued ++ [.write b .tArray] ∧ t.phase = .wTx ∧
      t.wt = w ∧ b.length = (chunkRecord (latchKind s) opS opL (wtCounts w)).outBytes.toNat ∧
      t.lastOpc = (chunkRecord (latchKind s) opS opL (wtCounts w)).opcode ∧ byteAt b 1 = t.lastOpc
    (s.phase = .wFlush → s.responses = .done .ok :: rest → sends s.wt) ∧
    (∀ y, s.phase = .wRxAck → s.responses = .bytes [Config.ackByte, y] .ok :: rest → s.wt.remsl ≠ 0 →
      ∃ t', wtAdvance s.latch.desc (latchKind s) (countChunk (wtCounts s.wt)) = .ok t' ∧ wtCounts (wtRegs t') = t' ∧ sends (wtRegs t')) ∧
    (s.phase = .exec → sends s.wt)

/-- 41_slicer_continuation.md R204, R205, 60_exceptions.md R301 to R303, R307: the replies XFER_RD rejects, in their order: a response not OK is TRANSPORT, the classifier's errors
come next, then a wrong marker or length is MALFORMED. A reply of the full length stands in RXBUF, and no other byte does (log 8, DESIGN CHOICE). The EOS configuration is
restored first, and everything else keeps what it held, OUTBUF, OUTLEN and the RD registers among it. -/
def Obligations.RejectedReply : Prop :=
  ∀ (s : State) (b : List Byte) (st : XStatus) (rest : List Response), RunInv s → Quiet s → s.phase = .wRxData → latchOp s = 6 →
    s.responses = .bytes b st :: rest →
    let s' := { s with responses := rest }
    let fails := step s = .next { s' with
      finStatus := .transport, finCode := 0, phase := .wEosRestore, issued := s.issued ++ [.eosRestore s.eosSaved] }
    let ends := fun e code => step s = .next { s' with
      rxbuf := Memory.store [] 0 b, rxlen := BitVec.ofNat 16 b.length
      finStatus := e, finCode := code, phase := .wEosRestore, issued := s.issued ++ [.eosRestore s.eosSaved] }
    (st = .error → fails) ∧
    (st = .timeout → b.length < s.rd.expected.toNat → fails) ∧
    (st = .ok → b.length = s.rd.expected.toNat →
      (∀ code, classify .read b = .controllerError code → ends .controller code) ∧
      (classify .read b = .malformedError → ends .malformed 0) ∧
      (classify .read b = .noError →
        (byteAt b 0 ≠ 0xE3 ∨ byteAt b (b.length - 1) ≠ 0xE6 ∨ rdle b 2 2 % 32768 ≠ b.length - 5) → ends .malformed 0))

/-- 41_slicer_continuation.md R204, R206, R207: an accepted reply stands in RXBUF, and no other byte does (log 8, DESIGN CHOICE), and its data are appended to
OUTBUF; then the read is done, or the controller stopped early, or the next slice command is sent in the same step. Each next state is given whole. -/
def Obligations.AcceptedReply : Prop :=
  ∀ (s : State) (opc : Byte) (cont : Bool) (body old : List Byte) (rest : List Response), RunInv s → Quiet s → s.phase = .wRxData →
    latchOp s = 6 → body.length + 5 = s.rd.expected.toNat → Memory.loadBytes s.outbuf 0 s.rd.bytesRead.toNat = some old →
    classify .read (replyFrame opc cont body) = .noError →
    s.responses = .bytes (replyFrame opc cont body) .ok :: rest →
    let r := replyFrame opc cont body
    let left := s.rd.remain.toNat - body.length
    let got := { s with
      responses := rest, rxbuf := Memory.store [] 0 r, rxlen := BitVec.ofNat 16 r.length
      rd := { s.rd with
        cont := cont, bytesRead := BitVec.ofNat 16 (s.rd.bytesRead.toNat + body.length), remain := BitVec.ofNat 16 left }
      outbuf := Memory.store s.outbuf s.rd.bytesRead.toNat body
      outlen := some (BitVec.ofNat 16 (s.rd.bytesRead.toNat + body.length)) }
    let ends := fun e diag => step s = .next { got with
      diagContEnd := diag, finStatus := e, finCode := 0, phase := .wEosRestore, issued := s.issued ++ [.eosRestore s.eosSaved] }
    let opcode : Byte := if latchKind s = .float64 then 0x42 else 0x45
    got.rd.bytesRead.toNat = s.rd.bytesRead.toNat + body.length ∧ got.rd.remain.toNat = left ∧ got.rxlen.toNat = r.length ∧
      Memory.loadBytes got.rxbuf 0 r.length = some r ∧
      Memory.loadBytes got.outbuf 0 (s.rd.bytesRead.toNat + body.length) = some (old ++ body) ∧
      (left = 0 → ends .ok (cont || s.diagContEnd)) ∧
      (left ≠ 0 → cont = false → ends .malformed s.diagContEnd) ∧
      (left ≠ 0 → cont = true → s.rd.slice.toNat + 1 ≤ 9 ∧ step s = .next (sent
        (frame opcode ([0x25] ++ [digit (s.rd.slice.toNat + 1)] ++ [0x25, 0x3F, 0x3F] ++ [dsb (latchKind s)] ++ ascii s.latch.desc))
        opcode .tCmd
        { got with rd := { got.rd with
            slice := s.rd.slice + 1, expected := BitVec.ofNat 16 (if left > 1400 then 1405 else left + 5) } }))

/-- 41_slicer_continuation.md R203, R208 to R211, 43_slice_wrap_tracker.md R283: the acknowledgement check. A failed or empty acknowledgement, and an ACK without its echo, is TRANSPORT; another first byte
leads to the tail read; an acknowledged chunk is counted, a wrong echo only sets DIAG_ECHO, and after the last chunk the command finishes OK, after another the tracker goes on
and the next frame is sent in the same step. Each next state is given whole; that TXBUF then holds the frame and no other byte is the model's choice (log 8, DESIGN CHOICE). -/
def Obligations.AcknowledgementCheck : Prop :=
  ∀ (s : State) (b : List Byte) (st : XStatus) (rest : List Response), RunInv s → Quiet s → s.phase = .wRxAck → latchOp s = 7 →
    s.responses = .bytes b st :: rest →
    let s' := { s with responses := rest }
    let fails := step s = .next { s' with
      finStatus := .transport, finCode := 0, phase := .wEosRestore, issued := s.issued ++ [.eosRestore s.eosSaved] }
    (st = .error → fails) ∧
    (st = .timeout → b = [] → fails) ∧
    (st = .timeout → b = [Config.ackByte] → fails) ∧
    (∀ x, st = .timeout → b = [x] → x ≠ Config.ackByte → step s = .next { s' with
      ackHead := b, phase := .wRxTail, issued := s.issued ++ [.read 1404 .tAck] }) ∧
    (∀ x y, st = .ok → b = [x, y] → x ≠ Config.ackByte → step s = .next { s' with
      ackHead := b, phase := .wRxTail, issued := s.issued ++ [.read 1403 .tAck] }) ∧
    (∀ y, st = .ok → b = [Config.ackByte, y] →
      let counted := { s' with
        diagEcho := decide (y ≠ s.lastOpc) || s.diagEcho
        wt := { s.wt with sent := s.wt.sent + s.wt.chunk }, res := { s.res with elems := some (s.wt.sent + s.wt.chunk) } }
      counted.wt.sent.toNat = s.wt.sent.toNat + s.wt.chunk.toNat ∧
      (s.wt.remsl = 0 → counted.wt.sent.toNat = numElements s.latch.desc ∧ step s = .next { counted with
        finStatus := .ok, finCode := 0, phase := .wEosRestore, issued := s.issued ++ [.eosRestore s.eosSaved] }) ∧
      (s.wt.remsl ≠ 0 → ∃ t' c, wtAdvance s.latch.desc (latchKind s) (wtCounts counted.wt) = .ok t' ∧ wtCounts (wtRegs t') = t' ∧
        t'.sent = counted.wt.sent.toNat ∧ t'.offset = s.wt.offset.toNat + s.wt.chunk.toNat ∧
        nextWrite { counted with wt := wtRegs t' } = .ok c ∧
        step s = .next (sent c.frame (byteAt c.frame 1) .tArray { counted with wt := wtRegs t' })))

/-- 41_slicer_continuation.md R210, 42_error_classifier.md R253: the tail of a non-acknowledged reply. A failed read is TRANSPORT; otherwise the whole reply is in RXBUF and is
classified: a controller error with its code, or MALFORMED; 11 bytes also set DIAG_LEGACY. RXBUF holds no other byte (log 8, DESIGN CHOICE). -/
def Obligations.NonAcknowledgedReply : Prop :=
  ∀ (s : State) (b : List Byte) (st : XStatus) (rest : List Response), RunInv s → Quiet s → s.phase = .wRxTail → latchOp s = 7 →
    s.responses = .bytes b st :: rest →
    let r := s.ackHead ++ b
    let s' := { s with responses := rest }
    let ends := fun e code legacy => step s = .next { s' with
      rxbuf := Memory.store [] 0 r, rxlen := BitVec.ofNat 16 r.length, diagLegacy := legacy
      finStatus := e, finCode := code, phase := .wEosRestore, issued := s.issued ++ [.eosRestore s.eosSaved] }
    (st = .error → step s = .next { s' with
      finStatus := .transport, finCode := 0, phase := .wEosRestore, issued := s.issued ++ [.eosRestore s.eosSaved] }) ∧
    ((st = .timeout ∧ r.length < 1405 ∨ st = .ok ∧ r.length = 1405) →
      (∀ code, classify .nak r = .controllerError code → ends .controller code s.diagLegacy) ∧
      (classify .nak r = .malformedError → ends .malformed 0 (decide (r.length = 11) || s.diagLegacy)))

/-- 41_slicer_continuation.md R203, 60_exceptions.md R308: a command that holds the EOS configuration restores it, and completes at the response: a failed restore turns OK into TRANSPORT
and never replaces an earlier error; a command that does not hold it completes at once. The step that takes the response changes nothing else, so the
results, OUTBUF and OUTLEN keep their values; and in a run the step that completes a transfer, with whatever status, leaves the results of R308's
table: OUTLEN the bytes of the replies accepted, which stand in OUTBUF, after XFER_RD, and RES_ELEMS = WT_SENT after XFER_WR. -/
def Obligations.FinishRestoresEos : Prop :=
  (∀ (e : Status) (code : Nat) (s : State),
    (s.eosHeld = true → finish e code s = { s with
      finStatus := e, finCode := code, phase := .wEosRestore, issued := s.issued ++ [.eosRestore s.eosSaved] }) ∧
    (s.eosHeld = false → finish e code s = { s with
      status := e, errcode := if e = .controller then BitVec.ofNat 16 code else 0, done := true, phase := .idle }) ∧
    raise e s = finish e 0 s) ∧
  (∀ (s : State) (st : XStatus) (rest : List Response), Quiet s → s.phase = .wEosRestore → st ≠ .timeout →
    s.responses = .done st :: rest → step s = .next { s with
      responses := rest, phase := .idle, done := true, eosHeld := false
      status := if st ≠ .ok ∧ s.finStatus = .ok then .transport else s.finStatus
      errcode := if s.finStatus = .controller then BitVec.ofNat 16 s.finCode else 0 }) ∧
  (∀ s t : State, RunInv s → Quiet s → s.phase ≠ .idle → step s = .next t → t.phase = .idle →
    t.done = true ∧ t.rd = s.rd ∧ t.wt = s.wt ∧ t.res = s.res ∧ t.outbuf = s.outbuf ∧ t.outlen = s.outlen ∧
    (latchOp s = 6 → t.outlen = some t.rd.bytesRead ∧ ∃ b, Memory.loadBytes t.outbuf 0 t.rd.bytesRead.toNat = some b) ∧
    (latchOp s = 7 → t.res.elems = some t.wt.sent))

/-- 41_slicer_continuation.md R204, R207, R214: a read whose requests all succeed and whose replies carry the data in order, with the continuation flag set while data remain,
completes OK after `ceil(db / 1400)` exchanges with exactly those data in OUTBUF and no diagnostic bit. -/
def Obligations.ReadTransferDelivers : Prop :=
  ∀ (s : State) (o : Offer) (f : Fields) (cfg : EosCfg) (opc : Byte) (data : List Byte) (offers : List Offer) (more : List Response),
    Ready s → Quiet s → s.offered = o :: offers → o.wf = true → decodeCommand o.cmdw = .xferRd f →
    validDesc o.desc true = true → dataBytes o.desc f.kind = data.length → data.length ≤ 14000 → PlainData data →
    s.responses = .eos cfg .ok :: .done .ok :: .done .ok ::
      (readExchanges opc (exchangeCount data.length) data ++ .done .ok :: more) →
    ∃ t, Host.Core.run Sys2Proof.core (5 + 2 * exchangeCount data.length) s = .next t ∧ t.phase = .idle ∧
      statusw t = 0x00000008 ∧ t.outlen = some (BitVec.ofNat 16 data.length) ∧ Memory.loadBytes t.outbuf 0 data.length = some data ∧
      t.rd.slice.toNat + 1 = exchangeCount data.length ∧ t.issued.length = 4 + 2 * exchangeCount data.length ∧
      t.responses = more ∧ t.offered = offers ∧ Ready t

/-- 41_slicer_continuation.md R208, R214, 43_slice_wrap_tracker.md R281, R285: a write all of whose chunks are acknowledged completes OK with every element counted, after one exchange a record of
PLAN_WR's plan, and its frames have the opcodes and lengths of that plan. -/
def Obligations.WriteTransferCompletes : Prop :=
  ∀ (s : State) (o : Offer) (f : Fields) (cfg : EosCfg) (opS opL : Byte) (t0 t1 : WtCounts) (plan : List ChunkRecord)
    (offers : List Offer) (more : List Response),
    Ready s → Quiet s → s.offered = o :: offers → o.wf = true → decodeCommand o.cmdw = .xferWr f →
    validDesc o.desc false = true → o.data.length = numElements o.desc → writeOpcodes f.kind = .ok (opS, opL) →
    wtInit o.desc f.kind (wtCounts s.wt) = .ok t0 → planLoop o.desc f.kind opS opL (numElements o.desc) t0 = .ok (t1, plan) →
    s.responses = .eos cfg .ok :: .done .ok :: .done .ok :: (writeExchanges plan ++ .done .ok :: more) →
    ∃ t, Host.Core.run Sys2Proof.core (5 + 2 * plan.length) s = .next t ∧ t.phase = .idle ∧ statusw t = 0x00000008 ∧
      t.res.elems = some (BitVec.ofNat 32 (numElements o.desc)) ∧ t.wt = wtRegs t1 ∧
      (writtenFrames t.issued).map List.length = plan.map (fun r => r.outBytes.toNat) ∧
      (writtenFrames t.issued).map (fun b => byteAt b 1) = plan.map ChunkRecord.opcode ∧
      t.issued.length = 4 + 2 * plan.length ∧ t.responses = more ∧ Ready t

/-! ## Frames -/

/-- 10_state.md R45 (and the chapters of the commands): ENC_RD, ENC_RDSL, ENC_WR, DEC_ERR and an illegal word leave everything unchanged but the
latches, STATUSW, the results, OUTBUF and OUTLEN (which acceptance empties), the request log (empty: they issue none) and the command taken from the port. No byte of
TXBUF or RXBUF changes. -/
def Obligations.PureCommandFrame : Prop :=
  ∀ (f : Fields) (w : CmdWord) (i : Instr) (s t : State), Ready s →
    (i = .encRd f ∨ i = .encRdsl f ∨ i = .encWr f ∨ i = .decErr f ∨ i = .illegal w) → exec i s = .next t →
    t = { s with
      latch := t.latch, status := t.status, errcode := t.errcode, done := true, diagEcho := false, diagLegacy := t.diagLegacy
      diagContEnd := false, res := t.res, outbuf := [], outlen := none, issued := [], offered := s.offered.tail } ∧
    (∀ a, Memory.load t.txbuf a = Memory.load s.txbuf a ∧ Memory.load t.rxbuf a = Memory.load s.rxbuf a) ∧
    t.latch.desc = (portOperands s).desc ∧ t.latch.data = (portOperands s).data ∧ t.latch.buf = (portOperands s).buf ∧
    i.command = some t.latch.cmdw ∧ (t.diagLegacy = true → i = .decErr f)

/-- 10_state.md R39, 43_slice_wrap_tracker.md R281: PLAN_WR leaves everything unchanged but what acceptance writes, STATUSW, RES_PLAN and the WT registers; on an ARGUMENT, UNSUPPORTED or
PROTOCOL_LIMIT of its plan check the WT registers too. -/
def Obligations.PlanWrFrame : Prop :=
  ∀ (f : Fields) (s t : State), Ready s → exec (.planWr f) s = .next t →
    t = { s with
      latch := t.latch, status := t.status, errcode := 0, done := true, diagEcho := false, diagLegacy := false
      diagContEnd := false, res := { Results.none with plan := t.res.plan }, wt := t.wt
      outbuf := [], outlen := none, issued := [], offered := s.offered.tail } ∧
    (∀ a, Memory.load t.txbuf a = Memory.load s.txbuf a ∧ Memory.load t.rxbuf a = Memory.load s.rxbuf a) ∧
    (validDesc (portOperands s).desc false = false ∨ (∃ e, writeOpcodes f.kind = .error e) ∨
      (∃ e, planCheck (portOperands s).desc f.kind = .error e) → t.wt = s.wt ∧ t.res.plan = none)

/-- 10_state.md R38, R39: the start of XFER_RD writes no WT register and no byte of RXBUF, that of XFER_WR no RD register and no byte of TXBUF or RXBUF; both leave
EOS_SAVED, EOS_HELD and LAST_OPC, and both issue no request but EosSave. That no byte of TXBUF at or above TXLEN holds a value after the start of XFER_RD is the model's
choice (log 8, DESIGN CHOICE): the rules assign the frame to TXBUF and say nothing of the bytes above it. -/
def Obligations.TransferStartFrame : Prop :=
  ∀ (f : Fields) (s t : State), Ready s →
    (exec (.xferRd f) s = .next t →
      t = { s with
        latch := t.latch, status := t.status, errcode := 0, done := t.done, diagEcho := false, diagLegacy := false
        diagContEnd := false, res := Results.none, rd := t.rd, txbuf := t.txbuf, txlen := t.txlen
        outbuf := [], outlen := t.outlen, phase := t.phase, issued := t.issued, offered := s.offered.tail } ∧
      (t.issued = [] ∧ t.phase = .idle ∨ t.issued = [.eosSave] ∧ t.phase = .wEosSave) ∧
      (∀ a, Memory.load t.rxbuf a = Memory.load s.rxbuf a) ∧
      (∀ a, t.txlen.toNat ≤ a → t.issued = [.eosSave] → Memory.load t.txbuf a = none) ∧
      (t.issued = [] → ∀ a, Memory.load t.txbuf a = Memory.load s.txbuf a)) ∧
    (exec (.xferWr f) s = .next t →
      t = { s with
        latch := t.latch, status := t.status, errcode := 0, done := t.done, diagEcho := false, diagLegacy := false
        diagContEnd := false, res := { Results.none with elems := t.res.elems }, wt := t.wt
        outbuf := [], outlen := none, phase := t.phase, issued := t.issued, offered := s.offered.tail } ∧
      (t.issued = [] ∧ t.phase = .idle ∨ t.issued = [.eosSave] ∧ t.phase = .wEosSave) ∧
      (∀ a, Memory.load t.txbuf a = Memory.load s.txbuf a ∧ Memory.load t.rxbuf a = Memory.load s.rxbuf a))

/-- 41_slicer_continuation.md R204, R208: a wire opcode writes TXBUF (the frame, from index 0), TXLEN, LAST_OPC, PHASE, the request log and, for a read, RD_EXPECTED; nothing
else. The statement is about every state. Those rules speak of an opcode that is sent, in EXEC of a transfer whose next frame has it; that an opcode run in any other
state leaves that state as it is (t = s) is the model's choice (log 13, DESIGN CHOICE), and so is that a TXBUF with a frame in it holds no byte at or above the frame's length (log 8,
DESIGN CHOICE). -/
def Obligations.WireOpcodeFrame : Prop :=
  ∀ (i : Instr) (s t : State), i.command = none → exec i s = .next t →
    t = { s with
      txbuf := t.txbuf, txlen := t.txlen, lastOpc := t.lastOpc, phase := t.phase, issued := t.issued
      rd := { s.rd with expected := t.rd.expected } } ∧
    (latchOp s ≠ 6 → t.rd = s.rd) ∧
    (∀ a, Memory.load t.rxbuf a = Memory.load s.rxbuf a ∧ Memory.load t.outbuf a = Memory.load s.outbuf a) ∧
    (t = s ∨ ∃ b tm, t.issued = s.issued ++ [.write b tm] ∧ t.txlen.toNat = b.length ∧
      (∀ a, Memory.load t.txbuf a = if a < b.length then b[a]? else none))

/-- 10_state.md R45: no value of an earlier command reaches the next one: from two ready states with the same commands at the port, a command leaves the same STATUSW,
results, OUTBUF, OUTLEN, requests, phase and latches, whatever the other registers hold. That is the whole outcome but for a transfer that issues its first request: of that, the
registers its rest reads agree too, the RD registers (but RD_CONT, which each reply writes before it is read) and TXBUF of XFER_RD and the WT registers of XFER_WR. That TXBUF agrees above TXLEN too, where no rule reads it,
is the model's choice (log 8, DESIGN CHOICE): a whole-buffer assignment leaves no value above the new length. -/
def Obligations.EarlierValuesDoNotMatter : Prop :=
  ∀ (i : Instr) (w : CmdWord) (s s' t t' : State), i.command = some w → Ready s → Ready s' → s.offered = s'.offered →
    exec i s = .next t → exec i s' = .next t' →
    statusw t = statusw t' ∧ t.res = t'.res ∧ t.outbuf = t'.outbuf ∧ t.outlen = t'.outlen ∧ t.issued = t'.issued ∧ t.phase = t'.phase ∧
    t.latch = t'.latch ∧
    (t.phase = .wEosSave →
      (∀ f, i = .xferRd f → { t.rd with cont := false } = { t'.rd with cont := false } ∧ t.txbuf = t'.txbuf ∧ t.txlen = t'.txlen) ∧
      (∀ f, i = .xferWr f → t.wt = t'.wt))
end

