-- ==== Sys2Proof/Laws/Bytes.lean ====
section
/-! SUPPORT. The laws of the byte and text helpers. -/

namespace Sys2Proof.Machine

open Sys2Proof

@[simp] theorem leBytes_length (n v : Nat) : (leBytes n v).length = n := by
  induction n generalizing v with
  | zero => rfl
  | succ n ih => simp [leBytes, ih]

/-- Reading back the little-endian bytes of a value gives its low `n` bytes. -/
theorem rdle_leBytes (n v : Nat) (xs rest : List Byte) :
    rdle (xs ++ leBytes n v ++ rest) xs.length n = v % 256 ^ n := by
  induction n generalizing v xs with
  | zero => simp [rdle, Nat.mod_one]
  | succ n ih =>
    have h0 : byteAt (xs ++ leBytes (n + 1) v ++ rest) xs.length = BitVec.ofNat 8 v := by
      simp [byteAt, leBytes, List.getD_eq_getElem?_getD]
    have hs : xs ++ leBytes (n + 1) v ++ rest = (xs ++ [BitVec.ofNat 8 v]) ++ leBytes n (v / 256) ++ rest := by
      simp [leBytes]
    have := ih (v / 256) (xs ++ [BitVec.ofNat 8 v])
    rw [List.length_append, List.length_singleton, ← hs] at this
    rw [rdle, h0, this, BitVec.toNat_ofNat, Nat.pow_succ' (m := 256), Nat.mod_mul]

theorem decUpTo_length_le (f n : Nat) : (decUpTo f n).length ≤ f := by
  induction f generalizing n with
  | zero => simp [decUpTo]
  | succ f ih =>
    unfold decUpTo
    split
    · simp
    · simp only [List.length_append, List.length_singleton]; exact Nat.add_le_add_right (ih _) 1

/-- A bound above the number's own digit count is never used up. -/
theorem decUpTo_stable (f g n : Nat) (hf : n < f) (hg : n < g) : decUpTo f n = decUpTo g n := by
  induction f generalizing g n with
  | zero => omega
  | succ f ih =>
    obtain ⟨g, rfl⟩ : ∃ k, g = k + 1 := ⟨g - 1, by omega⟩
    unfold decUpTo
    split
    · rfl
    · rw [ih g (n / 10) (by omega) (by omega)]

/-- `dec` of a one-digit number is that digit. -/
theorem dec_digit {n : Nat} (h : n < 10) : dec n = [digit n] := by simp [dec, decUpTo, h]

/-- `dec` of a longer number is `dec` of its tens and then its last digit. -/
theorem dec_step {n : Nat} (h : 10 ≤ n) : dec n = dec (n / 10) ++ [digit (n % 10)] := by
  have h1 : ¬ n < 10 := by omega
  rw [dec, decUpTo, if_neg h1, decUpTo_stable n (n / 10 + 1) (n / 10) (by omega) (by omega)]
  rfl

theorem dec_length_pos (n : Nat) : 1 ≤ (dec n).length := by
  rcases Nat.lt_or_ge n 10 with h | h
  · simp [dec_digit h]
  · simp [dec_step h]

theorem dec_length_mono {n m : Nat} (h : n ≤ m) : (dec n).length ≤ (dec m).length := by
  induction m using Nat.strong_induction_on generalizing n with
  | _ m ih =>
    rcases Nat.lt_or_ge m 10 with hm | hm
    · simp [dec_digit hm, dec_digit (Nat.lt_of_le_of_lt h hm)]
    · rw [dec_step hm]
      rcases Nat.lt_or_ge n 10 with hn | hn
      · simp [dec_digit hn]
      · rw [dec_step hn]
        simpa using ih (m / 10) (by omega) (by omega)

theorem esize_pos (k : Kind) : 0 < esize k := by cases k <;> decide

theorem esize_cases (k : Kind) : esize k = 8 ∨ esize k = 4 := by cases k <;> simp [esize]

theorem numElements_pos (d : Descriptor) : 1 ≤ numElements d := by
  unfold numElements
  apply Nat.mul_pos <;> first | omega | (split <;> omega)

@[simp] theorem dataField_length (k : Kind) (l : List Elem) : (dataField k l).length = l.length * esize k := by
  induction l with
  | nil => simp [dataField]
  | cons v l ih =>
    simp only [dataField, List.flatMap_cons, List.length_append, List.length_cons] at ih ⊢
    rw [ih, elemBytes, leBytes_length, Nat.succ_mul, Nat.add_comm]

/-- The length `asciiLen` states is the one 40_frame_codec.md R150 gives. -/
theorem asciiLen_eq (d : Descriptor) :
    asciiLen d = d.name.length + 3 + (dec d.d1s.toNat).length + (dec d.d1e.toNat).length +
      (if d.hasD2 then 3 + (dec d.d2s.toNat).length + (dec d.d2e.toNat).length else 0) := by
  unfold asciiLen ascii
  cases d.hasD2 <;> simp <;> omega

end Sys2Proof.Machine
end

