-- ==== Sys2Proof/Laws/Codec.lean ====
section
/-! SUPPORT. The laws of the frame encoder: lengths, the geometry of a write, and what each encoder answers. -/

namespace Sys2Proof.Machine

open Sys2Proof

@[simp] theorem frame_length (opc : Byte) (b : List Byte) : (frame opc b).length = b.length + 5 := by
  simp [frame]; omega

@[simp] theorem frame_opcode (opc : Byte) (b : List Byte) : byteAt (frame opc b) 1 = opc := by
  simp [byteAt, frame]

@[simp] theorem readBody_length (k : Kind) (d : Descriptor) : (readBody k d).length = asciiLen d + 4 := by
  simp [readBody, asciiLen]

@[simp] theorem sliceBody_length (n : Nat) (k : Kind) (d : Descriptor) :
    (sliceBody n k d).length = asciiLen d + 5 + (dec n).length := by
  simp [sliceBody, asciiLen]; omega

@[simp] theorem singleBody_length (k : Kind) (d : Descriptor) (l : List Elem) :
    (singleBody k d l).length = asciiLen d + 6 + l.length * esize k := by
  simp [singleBody, asciiLen]; omega

@[simp] theorem chunkBody_length (n : Nat) (k : Kind) (d : Descriptor) (l : List Elem) :
    (chunkBody n k d l).length = asciiLen d + 8 + l.length * esize k := by
  simp [chunkBody, asciiLen]; omega

/-- A valid read descriptor's text leaves room for the longest read body (40_frame_codec.md R151, condition 5). -/
theorem validDesc_asciiLen {d : Descriptor} (h : validDesc d true = true) : asciiLen d ≤ 1394 := by
  simp only [validDesc, Bool.and_eq_true, Bool.or_eq_true, Bool.not_true, Bool.false_eq_true, false_or,
    decide_eq_true_eq] at h
  exact h.2

/-- What the first-read encoder answers. -/
theorem encodeRead_ok {d : Descriptor} {k : Kind} {c : ReadCmd} (h : encodeRead d k = .ok c) :
    validDesc d true = true ∧ c.op = readOp k (isLong d k) ∧ c.frame = frame (readOpcode k (isLong d k)) (readBody k d) ∧
      c.expected = replySize (dataBytes d k) 0 ∧ c.dataBytes = dataBytes d k := by
  unfold encodeRead at h
  split at h
  · rename_i hv; cases h; exact ⟨hv, rfl, rfl, rfl, rfl⟩
  · cases h

theorem encodeRead_valid {d : Descriptor} (k : Kind) (h : validDesc d true = true) :
    encodeRead d k = .ok { op := readOp k (isLong d k), frame := frame (readOpcode k (isLong d k)) (readBody k d),
                           expected := replySize (dataBytes d k) 0, dataBytes := dataBytes d k } := by
  simp [encodeRead, h]

/-- What the slice-read encoder answers. -/
theorem encodeReadSlice_ok {d : Descriptor} {k : Kind} {n : Nat} {c : ReadCmd} (h : encodeReadSlice d k n = .ok c) :
    validDesc d true = true ∧ (1 ≤ n ∧ n ≤ 9 ∧ n * 1400 < dataBytes d k) ∧ c.op = sliceOp k ∧
      c.frame = frame (sliceOpcode k) (sliceBody n k d) ∧ c.expected = replySize (dataBytes d k) n ∧
      c.dataBytes = dataBytes d k := by
  unfold encodeReadSlice at h
  split at h
  · rename_i hv
    split at h
    · rename_i hr
      cases h
      simp only [sliceInRange, Bool.and_eq_true, decide_eq_true_eq] at hr
      exact ⟨hv, ⟨hr.1.1, hr.1.2, hr.2⟩, rfl, rfl, rfl, rfl⟩
    · cases h
  · cases h

theorem encodeReadSlice_valid {d : Descriptor} {k : Kind} {n : Nat} (h : validDesc d true = true) (h1 : 1 ≤ n) (h9 : n ≤ 9)
    (hn : n * 1400 < dataBytes d k) :
    encodeReadSlice d k n = .ok { op := sliceOp k, frame := frame (sliceOpcode k) (sliceBody n k d),
                                  expected := replySize (dataBytes d k) n, dataBytes := dataBytes d k } := by
  simp [encodeReadSlice, h, sliceInRange, h1, h9, hn]

/-- Every read frame fits TXBUF (20_memory.md R71). -/
theorem encodeRead_length {d : Descriptor} {k : Kind} {c : ReadCmd} (h : encodeRead d k = .ok c) : c.frame.length ≤ 1405 := by
  obtain ⟨hv, -, hf, -, -⟩ := encodeRead_ok h
  have := validDesc_asciiLen hv
  rw [hf, frame_length, readBody_length]; omega

theorem encodeReadSlice_length {d : Descriptor} {k : Kind} {n : Nat} {c : ReadCmd} (h : encodeReadSlice d k n = .ok c) :
    c.frame.length ≤ 1405 := by
  obtain ⟨hv, ⟨h1, h9, -⟩, -, hf, -, -⟩ := encodeReadSlice_ok h
  have := validDesc_asciiLen hv
  rw [hf, frame_length, sliceBody_length, dec_digit (by omega)]
  simp; omega

/-- The geometry of a write (40_frame_codec.md R158): a single packet that fits, or `M ≥ 1` elements a packet, `n > M` and `P ≥ 2` packets
of at most 1400 bytes each. -/
theorem geom_ok {d : Descriptor} {k : Kind} {g : Geometry} (h : geom d k = .ok g) :
    (g.single = true ∧ g.m = 0 ∧ g.p = 1 ∧ asciiLen d + 6 + numElements d * esize k ≤ 1400) ∨
    (g.single = false ∧ 1 ≤ g.m ∧ g.m < numElements d ∧ 2 ≤ g.p ∧ asciiLen d + 8 + g.m * esize k ≤ 1400 ∧
      (g.p - 1) * g.m < numElements d ∧ numElements d ≤ g.p * g.m ∧ 1400 < asciiLen d + 6 + numElements d * esize k) := by
  unfold geom at h
  split at h
  · cases h; exact Or.inl ⟨rfl, rfl, rfl, by assumption⟩
  · split at h
    · cases h
    · rename_i hs hm
      cases h
      refine Or.inr ⟨rfl, ?_⟩
      simp only [Config.maxPacketData] at *
      have he := esize_pos k
      generalize hM : (1400 - asciiLen d - 8) / esize k = M
      have hM1 : 1 ≤ M := by rw [← hM]; exact (Nat.one_le_div_iff he).mpr (by omega)
      have hMe : M * esize k ≤ 1400 - asciiLen d - 8 := by rw [← hM]; exact Nat.div_mul_le_self _ _
      have hlt : M < numElements d := by
        by_contra hc
        have := Nat.mul_le_mul_right (esize k) (Nat.le_of_not_lt hc)
        omega
      generalize hP : (numElements d + M - 1) / M = P
      have hdm := Nat.div_add_mod (numElements d + M - 1) M
      have hmod := Nat.mod_lt (numElements d + M - 1) (Nat.lt_of_lt_of_le Nat.zero_lt_one hM1)
      rw [hP] at hdm
      have hcomm : M * P = P * M := Nat.mul_comm _ _
      have hup : numElements d ≤ P * M := by omega
      have hP2 : 2 ≤ P := by
        by_contra hc
        have : P * M ≤ 1 * M := Nat.mul_le_mul_right M (by omega)
        omega
      have hlow : (P - 1) * M < numElements d := by
        rw [Nat.sub_mul, Nat.one_mul]; omega
      exact ⟨hM1, hlt, hP2, by omega, hlow, hup, by omega⟩

/-- The elements of every chunk of a multi-packet write: at least one, at most `M`. -/
theorem chunkElems_bounds {d : Descriptor} {k : Kind} {g : Geometry} (h : geom d k = .ok g) (hs : g.single = false) (n : Nat) :
    1 ≤ chunkElems g (numElements d) n ∧ chunkElems g (numElements d) n ≤ g.m := by
  rcases geom_ok h with ⟨h1, -⟩ | ⟨-, h1, h2, h3, -, h4, h5, -⟩
  · simp [h1] at hs
  · unfold chunkElems
    split
    · exact ⟨h1, Nat.le_refl _⟩
    · have : g.p * g.m = (g.p - 1) * g.m + g.m := by
        rw [← Nat.succ_mul]; congr 1; omega
      omega

theorem chunkData_length {d : Descriptor} {k : Kind} {g : Geometry} {n : Nat} {data : List Elem} (h : geom d k = .ok g)
    (hs : g.single = false) (hn : n < g.p) (hd : data.length = numElements d) :
    (chunkData g n (chunkElems g (numElements d) n) data).length = chunkElems g (numElements d) n := by
  rcases geom_ok h with ⟨h1, -⟩ | ⟨-, h1, h2, h3, -, h4, h5, -⟩
  · simp [h1] at hs
  · unfold chunkData chunkElems
    rw [List.length_take, List.length_drop, hd]
    split
    · rename_i hl
      have : (n + 1) * g.m ≤ (g.p - 1) * g.m := Nat.mul_le_mul_right _ (by omega)
      rw [Nat.succ_mul] at this
      omega
    · have : n = g.p - 1 := by omega
      subst this
      omega

/-- What the write encoder answers: its checks passed, and the frame is that of a single packet or of one chunk. -/
theorem encodeWrite_ok {d : Descriptor} {k : Kind} {data : List Elem} {n : Nat} {c : WriteCmd}
    (h : encodeWrite d k data n = .ok c) :
    validDesc d false = true ∧ data.length = numElements d ∧ ∃ opS opL g, writeOpcodes k = .ok (opS, opL) ∧ geom d k = .ok g ∧
      ((g.single = true ∧ n = 0 ∧ c = { op := writeOp k true, frame := frame opS (singleBody k d data), elems := numElements d, rem := 0 }) ∨
       (g.single = false ∧ n ≤ 9 ∧ n < g.p ∧
        c = { op := writeOp k false,
              frame := frame opL (chunkBody n k d (chunkData g n (chunkElems g (numElements d) n) data)),
              elems := chunkElems g (numElements d) n, rem := g.p - n - 1 })) := by
  unfold encodeWrite at h
  split at h
  · cases h
  · rename_i hv
    split at h
    · cases h
    · rename_i hd
      split at h
      · cases h
      · rename_i opS opL ho
        split at h
        · cases h
        · rename_i g hg
          refine ⟨by simpa using hv, by simpa using hd, opS, opL, g, ho, hg, ?_⟩
          unfold encodeChunk at h
          split at h
          · rename_i hs
            split at h
            · cases h
            · cases h; exact Or.inl ⟨hs, by omega, rfl⟩
          · rename_i hs
            split at h
            · rename_i hn; cases h; exact Or.inr ⟨by simpa using hs, hn.1, hn.2, rfl⟩
            · cases h

/-- The write encoder answers when its checks pass. -/
theorem encodeWrite_checked {d : Descriptor} {k : Kind} {data : List Elem} {n : Nat} {opS opL : Byte} {g : Geometry}
    (hv : validDesc d false = true) (hd : data.length = numElements d) (ho : writeOpcodes k = .ok (opS, opL))
    (hg : geom d k = .ok g) : encodeWrite d k data n = encodeChunk d k data n opS opL g := by
  simp [encodeWrite, hv, hd, ho, hg]

/-- Every write frame fits TXBUF (20_memory.md R71). -/
theorem encodeWrite_length {d : Descriptor} {k : Kind} {data : List Elem} {n : Nat} {c : WriteCmd}
    (h : encodeWrite d k data n = .ok c) : c.frame.length ≤ 1405 := by
  obtain ⟨-, hd, opS, opL, g, -, hg, ⟨hs, -, rfl⟩ | ⟨hs, -, hp, rfl⟩⟩ := encodeWrite_ok h
  · rcases geom_ok hg with ⟨-, -, -, hl⟩ | ⟨hs', -⟩
    · simp only [frame_length, singleBody_length, hd]; omega
    · simp [hs'] at hs
  · have hb := chunkElems_bounds hg hs n
    rcases geom_ok hg with ⟨hs', -⟩ | ⟨-, -, -, -, hl, -⟩
    · simp [hs'] at hs
    · simp only [frame_length, chunkBody_length, chunkData_length hg hs hp hd]
      have := Nat.mul_le_mul_right (esize k) hb.2
      omega

theorem readOp_opcode (k : Kind) (l : Bool) : (readOp k l).opcode = some (readOpcode k l) := by
  cases k <;> cases l <;> rfl

theorem sliceOp_opcode (k : Kind) : (sliceOp k).opcode = some (sliceOpcode k) := by cases k <;> rfl

/-- The Float64 write opcodes are the opcode bytes of their wire opcodes, and so are configured Int32 ones. -/
theorem writeOp_opcode {k : Kind} {opS opL : Byte} (h : writeOpcodes k = .ok (opS, opL)) :
    (writeOp k true).opcode = some opS ∧ (writeOp k false).opcode = some opL := by
  cases k with
  | float64 => cases h; exact ⟨rfl, rfl⟩
  | int32 =>
    cases ha : Config.opcWrShortI32 <;> cases hb : Config.opcWrLongI32 <;> simp only [writeOpcodes, ha, hb] at h <;> cases h
    exact ⟨ha, hb⟩

end Sys2Proof.Machine
end

