-- ==== Sys2Proof/Laws/Decode.lean ====
section
/-! SUPPORT. The laws of the decoder: the bits of a command word, its fields, and what it decodes to. -/

namespace Sys2Proof

/-- Each bit of a command word (30_encoding.md R100). -/
theorem commandWord_bit (op : BitVec 3) (f : Fields) (i : Nat) : (commandWord op f).getLsbD i =
   if i < 3 then op.getLsbD i else if i = 3 then (kindBit f.kind).getLsbD 0 else if i = 4 then (pathBit f.path).getLsbD 0
   else if i < 8 then false else f.slice.getLsbD (i - 8) := by
  show (commandBits op f).getLsbD i = _
  unfold commandBits
  simp only [BitVec.getLsbD_append, BitVec.getLsbD_zero]
  by_cases h : i < 8
  · interval_cases i <;> simp
  · split_ifs <;> first | omega | rfl

/-- The fields of a command word are read back from it (30_encoding.md R100). -/
theorem cmdKind_commandWord (op : BitVec 3) (f : Fields) : cmdKind (commandWord op f) = f.kind := by
  unfold cmdKind; rw [commandWord_bit]; cases f.kind <;> rfl

theorem cmdPath_commandWord (op : BitVec 3) (f : Fields) : cmdPath (commandWord op f) = f.path := by
  unfold cmdPath; rw [commandWord_bit]; cases f.path <;> rfl

theorem cmdOp_commandWord (op : BitVec 3) (f : Fields) : cmdOp (commandWord op f) = op := by
  unfold cmdOp; ext i hi; rw [BitVec.getElem_extractLsb', commandWord_bit, if_pos (by omega)]; simp [hi]

theorem cmdSlice_commandWord (op : BitVec 3) (f : Fields) : cmdSlice (commandWord op f) = f.slice := by
  unfold cmdSlice; ext i hi; rw [BitVec.getElem_extractLsb', commandWord_bit]
  rw [if_neg (by omega), if_neg (by omega), if_neg (by omega), if_neg (by omega)]
  simp [hi]

/-- The reserved bits of a command word are 0. -/
theorem reserved_commandWord (op : BitVec 3) (f : Fields) : (commandWord op f).extractLsb' 5 3 = 0#3 := by
  ext i hi; rw [BitVec.getElem_extractLsb', commandWord_bit]
  rw [if_neg (by omega), if_neg (by omega), if_neg (by omega), if_pos (by omega)]
  simp

theorem cmdFields_commandWord (op : BitVec 3) (f : Fields) : cmdFields (commandWord op f) = f := by
  simp [cmdFields, cmdKind_commandWord, cmdPath_commandWord, cmdSlice_commandWord]

/-- A command word with `OP` not 0 is legal (30_encoding.md R102). -/
theorem illegalWord_commandWord {op : BitVec 3} (f : Fields) (h : op ≠ 0) : illegalWord (commandWord op f) = false := by
  have := cmdOp_commandWord op f
  unfold cmdOp at this
  simp only [illegalWord, this, reserved_commandWord, bne_self_eq_false, Bool.or_false, beq_eq_false_iff_ne]
  exact h

/-- What a command word decodes to (30_encoding.md R101). -/
theorem decodeCommand_commandWord (op : BitVec 3) (f : Fields) (h : op ≠ 0) :
  decodeCommand (commandWord op f) = match op.toNat with
    | 1 => .encRd f
    | 2 => .encRdsl f
    | 3 => .encWr f
    | 4 => .decErr f
    | 5 => .planWr f
    | 6 => .xferRd f
    | 7 => .xferWr f
    | _ => .illegal (commandWord op f) := by
  unfold decodeCommand
  rw [illegalWord_commandWord f h, cmdOp_commandWord, cmdFields_commandWord]
  rfl

/-- The two bytes of a command word, joined, are the word. -/
theorem wordBytes_join (w : CmdWord) : (w.extractLsb' 8 8 ++ w.extractLsb' 0 8 : BitVec 16) = w := by
  ext i hi
  have hi' : i < 8 + 8 := hi
  show (w.extractLsb' 8 8 ++ w.extractLsb' 0 8).getLsbD i = _
  rw [BitVec.getLsbD_append]
  by_cases h : i < 8
  · simp [h]; rfl
  · rw [if_neg h, BitVec.getLsbD_extractLsb', show 8 + (i - 8) = i by omega, decide_eq_true (by omega), Bool.true_and]
    rfl

/-- The two bytes of a command word are decoded as that word. -/
theorem wordBytes_decode (w : CmdWord) : decode (wordBytes w) = .ok (decodeCommand w) := by
  simp only [decode, wordBytes]
  rw [wordBytes_join]

/-- A legal command word is spelt by its own fields: no bit of it is lost. -/
theorem commandWord_fields (w : CmdWord) (h : illegalWord w = false) : commandWord (cmdOp w) (cmdFields w) = w := by
  simp only [illegalWord, Bool.or_eq_false_iff, bne_eq_false_iff_eq] at h
  obtain ⟨-, h⟩ := h
  ext i hi
  show (commandWord (cmdOp w) (cmdFields w)).getLsbD i = _
  rw [commandWord_bit]
  by_cases h8 : i < 8
  · have b5 : w.getLsbD 5 = false ∧ w.getLsbD 6 = false ∧ w.getLsbD 7 = false := by
      refine ⟨?_, ?_, ?_⟩
      · have := congrArg (·.getLsbD 0) h; simpa using this
      · have := congrArg (·.getLsbD 1) h; simpa using this
      · have := congrArg (·.getLsbD 2) h; simpa using this
    obtain ⟨b5, b6, b7⟩ := b5
    simp only [BitVec.getLsbD_eq_getElem, Nat.reduceLT] at b5 b6 b7
    interval_cases i
    · simp [cmdOp]
    · simp [cmdOp]
    · simp [cmdOp]
    · simp only [cmdFields, cmdKind]; cases hh : w.getLsbD 3 <;> simp_all [kindBit]
    · simp only [cmdFields, cmdPath]; cases hh : w.getLsbD 4 <;> simp_all [pathBit]
    · simp [b5]
    · simp [b6]
    · simp [b7]
  · simp only [cmdFields, cmdSlice]
    rw [if_neg (by omega), if_neg (by omega), if_neg (by omega), if_neg (by omega), BitVec.getLsbD_extractLsb',
      show 8 + (i - 8) = i by omega, decide_eq_true (by omega), Bool.true_and]
    rfl

end Sys2Proof
end

