-- ==== Sys2Proof/Laws/Flags.lean ====
section
/-! SUPPORT. The laws of STATUSW. -/

namespace Sys2Proof.Machine

open Sys2Proof

/-- Each bit of STATUSW (10_state.md R33). -/
theorem statusw_bit (s : State) (i : Nat) : (statusw s).getLsbD i =
    if i < 3 then (statusCode s.status).getLsbD i
    else if i = 3 then s.done else if i = 4 then busy s else if i = 5 then s.diagEcho
    else if i = 6 then s.diagLegacy else if i = 7 then s.diagContEnd
    else if i < 16 then false else s.errcode.getLsbD (i - 16) := by
  show (statuswFields s).getLsbD i = _
  unfold statuswFields
  simp only [BitVec.getLsbD_append, BitVec.getLsbD_ofBool, BitVec.getLsbD_zero]
  by_cases h : i < 8
  · interval_cases i <;> simp
  · have : ∀ n, n < 8 → ¬ i < n + 1 := by omega
    split_ifs <;> first | omega | rfl

/-- STATUSW is a function of the fields it shows. -/
theorem statusw_congr {s t : State} (h1 : s.status = t.status) (h2 : s.done = t.done) (h3 : s.phase = t.phase)
    (h4 : s.diagEcho = t.diagEcho) (h5 : s.diagLegacy = t.diagLegacy) (h6 : s.diagContEnd = t.diagContEnd)
    (h7 : s.errcode = t.errcode) : statusw s = statusw t := by
  simp only [statusw, statuswFields, busy, h1, h2, h3, h4, h5, h6, h7]

/-- What each diagnostic operation does to its bit, and to nothing else (10_state.md R36). -/
theorem noteLegacy_eq (l : Bool) (s : State) : noteLegacy l s = { s with diagLegacy := l || s.diagLegacy } := by
  cases l <;> rfl

theorem noteEcho_eq (b : Byte) (s : State) : noteEcho b s = { s with diagEcho := decide (b ≠ s.lastOpc) || s.diagEcho } := by
  unfold noteEcho
  by_cases h : b ≠ s.lastOpc <;> simp [h]

theorem noteContEnd_eq (s : State) : noteContEnd s = { s with diagContEnd := s.rd.cont || s.diagContEnd } := by
  unfold noteContEnd
  cases h : s.rd.cont <;> simp

end Sys2Proof.Machine
end

