-- ==== Sys2Proof/Laws/Memory.lean ====
section
/-! SUPPORT. The laws of the byte buffers: a read after a write, the bytes a write leaves alone, the canonical form, the capacity. -/

namespace Sys2Proof.Machine

theorem cellsFrom_mem {a : Nat} {bs : List Byte} {c : Host.Cell} (h : c ∈ cellsFrom a bs) :
    a ≤ c.1 ∧ c.1 < a + bs.length := by
  induction bs generalizing a with
  | nil => cases h
  | cons b bs ih =>
    rcases List.mem_cons.mp h with rfl | h
    · simp
    · have := ih h
      simp only [List.length_cons]
      omega

theorem cellsFrom_wf (a : Nat) (bs : List Byte) : Memory.wf (cellsFrom a bs) := by
  induction bs generalizing a with
  | nil => exact List.Pairwise.nil
  | cons b bs ih => exact List.Pairwise.cons (fun c hc => by have := cellsFrom_mem hc; simp; omega) (ih (a + 1))

/-- Every write keeps the canonical form. -/
theorem store_wf {m : Memory} (h : Memory.wf m) (a : Nat) (bs : List Byte) : Memory.wf (Memory.store m a bs) := by
  simp only [Memory.store, Memory.wf, List.pairwise_append, List.mem_append, List.mem_filter, decide_eq_true_eq]
  refine ⟨⟨h.filter _, cellsFrom_wf a bs, ?_⟩, h.filter _, ?_⟩
  · rintro c ⟨-, hc⟩ d hd
    have := cellsFrom_mem hd
    omega
  · rintro c (⟨-, hc⟩ | hc) d ⟨-, hd⟩
    · omega
    · have := cellsFrom_mem hc
      omega

theorem memWrite_wf {cap a : Nat} {m m' : Memory} {bs : List Byte} (h : Memory.wf m) (hw : memWrite cap m a bs = some m') :
    Memory.wf m' := by
  unfold memWrite at hw
  split at hw
  · cases hw; exact store_wf h a bs
  · cases hw

/-- Every index of a buffer lies below its capacity. -/
def Memory.within (cap : Nat) (m : Memory) : Prop := ∀ c ∈ m, c.1 < cap

/-- A write within the capacity keeps every index below it. -/
theorem memWrite_within {cap a : Nat} {m m' : Memory} {bs : List Byte} (h : Memory.within cap m)
    (hw : memWrite cap m a bs = some m') : Memory.within cap m' := by
  unfold memWrite at hw
  split at hw
  · cases hw
    intro c hc
    simp only [Memory.store, List.mem_append, List.mem_filter] at hc
    rcases hc with (hc | hc) | hc
    · exact h c hc.1
    · have := cellsFrom_mem hc; omega
    · exact h c hc.1
  · cases hw

/-- A write succeeds exactly when its last index is below the capacity. -/
theorem memWrite_isSome {cap a : Nat} {m : Memory} {bs : List Byte} (h : a + bs.length ≤ cap) :
    memWrite cap m a bs = some (Memory.store m a bs) := by
  simp [memWrite, h]

theorem load_append (m n : Memory) (a : Nat) :
    Memory.load (m ++ n) a = (Memory.load m a).or (Memory.load n a) := by
  unfold Memory.load
  rw [List.find?_append]
  cases List.find? (fun c => c.1 == a) m <;> rfl

theorem load_filter (m : Memory) (a : Nat) (p : Nat → Bool) :
    Memory.load (m.filter fun c => p c.1) a = if p a then Memory.load m a else none := by
  unfold Memory.load
  induction m with
  | nil => simp
  | cons c m ih =>
    by_cases hc : c.1 = a
    · subst hc
      by_cases hp : p c.1
      · simp [hp]
      · simp only [List.filter_cons, hp, if_false, Bool.false_eq_true] at ih ⊢
        exact ih
    · by_cases hp : p c.1
      · simp only [List.filter_cons, hp, if_true, List.find?_cons, beq_eq_false_iff_ne.mpr hc]
        exact ih
      · simp only [List.filter_cons, hp, List.find?_cons, beq_eq_false_iff_ne.mpr hc, Bool.false_eq_true, if_false]
        exact ih

theorem load_cellsFrom (a : Nat) (bs : List Byte) (i : Nat) :
    Memory.load (cellsFrom a bs) i = if a ≤ i then bs[i - a]? else none := by
  induction bs generalizing a with
  | nil => simp [cellsFrom, Memory.load]
  | cons b bs ih =>
    have step : Memory.load (cellsFrom a (b :: bs)) i =
        if a = i then some b else Memory.load (cellsFrom (a + 1) bs) i := by
      by_cases h : a = i
      · simp [cellsFrom, Memory.load, h]
      · simp [cellsFrom, Memory.load, h]
    rw [step, ih]
    by_cases h : a = i
    · subst h; simp
    · by_cases h' : a ≤ i
      · rw [if_neg h, if_pos (by omega : a + 1 ≤ i), if_pos h', (by omega : i - a = (i - (a + 1)) + 1)]
        simp
      · rw [if_neg h, if_neg (by omega), if_neg h']

/-- Reading one byte after a write: a byte written, or what was there before. -/
theorem load_store (m : Memory) (a : Nat) (bs : List Byte) (i : Nat) :
    Memory.load (Memory.store m a bs) i =
      if a ≤ i ∧ i < a + bs.length then bs[i - a]? else Memory.load m i := by
  unfold Memory.store
  rw [load_append, load_append, load_filter m i (fun n => decide (n < a)),
    load_filter m i (fun n => decide (a + bs.length ≤ n)), load_cellsFrom]
  by_cases h1 : i < a
  · simp only [decide_eq_true_eq, h1, if_true, if_neg (by omega : ¬ a ≤ i), if_neg (by omega : ¬ a + bs.length ≤ i),
      if_neg (by omega : ¬ (a ≤ i ∧ i < a + bs.length)), Option.or_none]
  · by_cases h2 : i < a + bs.length
    · have h3 : i - a < bs.length := by omega
      simp only [decide_eq_true_eq, h1, if_false, if_pos (by omega : a ≤ i), if_neg (by omega : ¬ a + bs.length ≤ i),
        if_pos (⟨by omega, h2⟩ : a ≤ i ∧ i < a + bs.length), Option.none_or, Option.or_none]
    · have h3 : bs[i - a]? = none := List.getElem?_eq_none (by omega)
      simp only [decide_eq_true_eq, h1, if_false, if_pos (by omega : a ≤ i), if_pos (by omega : a + bs.length ≤ i),
        if_neg (by omega : ¬ (a ≤ i ∧ i < a + bs.length)), Option.none_or, h3]

/-- A byte outside the bytes written reads as before. -/
theorem load_store_outside {m : Memory} {a i : Nat} {bs : List Byte} (h : i < a ∨ a + bs.length ≤ i) :
    Memory.load (Memory.store m a bs) i = Memory.load m i := by
  rw [load_store, if_neg (by omega)]

theorem loadBytes_congr {m m' : Memory} {a : Nat} (n : Nat)
    (h : ∀ i, a ≤ i → i < a + n → Memory.load m i = Memory.load m' i) :
    Memory.loadBytes m a n = Memory.loadBytes m' a n := by
  induction n generalizing a with
  | zero => rfl
  | succ n ih =>
    have hr : Memory.loadBytes m (a + 1) n = Memory.loadBytes m' (a + 1) n :=
      ih fun i h1 h2 => h i (by omega) (by omega)
    simp only [Memory.loadBytes, h a (by omega) (by omega), hr]

theorem loadBytes_cells {m : Memory} {a : Nat} {bs : List Byte}
    (h : ∀ i, i < bs.length → Memory.load m (a + i) = bs[i]?) : Memory.loadBytes m a bs.length = some bs := by
  induction bs generalizing a with
  | nil => rfl
  | cons b bs ih =>
    have h0 := h 0 (by simp)
    have hr := ih (a := a + 1) fun i hi => by
      have := h (i + 1) (by simpa using hi)
      rw [show a + 1 + i = a + (i + 1) by omega, this]
      simp
    simp only [List.length_cons, Memory.loadBytes]
    rw [hr]
    rw [Nat.add_zero] at h0
    rw [h0]
    simp

/-- Reading back the bytes written gives those bytes. -/
theorem loadBytes_store (m : Memory) (a : Nat) (bs : List Byte) :
    Memory.loadBytes (Memory.store m a bs) a bs.length = some bs :=
  loadBytes_cells fun i hi => by
    rw [load_store, if_pos ⟨by omega, by omega⟩]
    congr 1
    omega

/-- Bytes below a write read back as before. -/
theorem loadBytes_store_below {m : Memory} {a b n : Nat} {bs : List Byte} (h : a + n ≤ b) :
    Memory.loadBytes (Memory.store m b bs) a n = Memory.loadBytes m a n :=
  loadBytes_congr n fun i _ h2 => load_store_outside (Or.inl (by omega))

theorem loadBytes_append {m : Memory} {a n k : Nat} {xs ys : List Byte} (hx : Memory.loadBytes m a n = some xs)
    (hy : Memory.loadBytes m (a + n) k = some ys) : Memory.loadBytes m a (n + k) = some (xs ++ ys) := by
  induction n generalizing a xs with
  | zero =>
    simp only [Memory.loadBytes, Option.some.injEq] at hx
    subst hx
    simpa using hy
  | succ n ih =>
    rw [show n + 1 + k = (n + k) + 1 by omega]
    simp only [Memory.loadBytes] at hx ⊢
    cases hb : Memory.load m a with
    | none => simp [hb] at hx
    | some b =>
      cases hr : Memory.loadBytes m (a + 1) n with
      | none => simp [hb, hr] at hx
      | some r =>
        simp only [hb, hr, Option.some.injEq] at hx
        subst hx
        rw [ih hr (by rw [show a + 1 + n = a + (n + 1) by omega]; exact hy)]
        rfl

/-- Appending at the end of what a buffer holds (41_slicer_continuation.md R204) gives the old bytes and then the new ones. -/
theorem loadBytes_store_append {m : Memory} {n : Nat} {xs bs : List Byte} (h : Memory.loadBytes m 0 n = some xs) :
    Memory.loadBytes (Memory.store m n bs) 0 (n + bs.length) = some (xs ++ bs) :=
  loadBytes_append (by rw [loadBytes_store_below (by omega)]; exact h) (by simpa using loadBytes_store m n bs)

end Sys2Proof.Machine
end

