-- ==== Sys2Proof/Laws/State.lean ====
section
/-! SUPPORT. The fields of a state after each named update: one lemma a field, so that no proof unfolds an update. -/

namespace Sys2Proof.Machine

open Sys2Proof

/-! `issue` -/

@[simp] theorem issue_phase (r : Request) (p : Phase) (s : State) : (issue r p s).phase = p := rfl
@[simp] theorem issue_status (r : Request) (p : Phase) (s : State) : (issue r p s).status = s.status := rfl
@[simp] theorem issue_done (r : Request) (p : Phase) (s : State) : (issue r p s).done = s.done := rfl
@[simp] theorem issue_diagEcho (r : Request) (p : Phase) (s : State) : (issue r p s).diagEcho = s.diagEcho := rfl
@[simp] theorem issue_diagLegacy (r : Request) (p : Phase) (s : State) : (issue r p s).diagLegacy = s.diagLegacy := rfl
@[simp] theorem issue_diagContEnd (r : Request) (p : Phase) (s : State) : (issue r p s).diagContEnd = s.diagContEnd := rfl
@[simp] theorem issue_errcode (r : Request) (p : Phase) (s : State) : (issue r p s).errcode = s.errcode := rfl
@[simp] theorem issue_latch (r : Request) (p : Phase) (s : State) : (issue r p s).latch = s.latch := rfl
@[simp] theorem issue_rd (r : Request) (p : Phase) (s : State) : (issue r p s).rd = s.rd := rfl
@[simp] theorem issue_wt (r : Request) (p : Phase) (s : State) : (issue r p s).wt = s.wt := rfl
@[simp] theorem issue_txbuf (r : Request) (p : Phase) (s : State) : (issue r p s).txbuf = s.txbuf := rfl
@[simp] theorem issue_txlen (r : Request) (p : Phase) (s : State) : (issue r p s).txlen = s.txlen := rfl
@[simp] theorem issue_rxbuf (r : Request) (p : Phase) (s : State) : (issue r p s).rxbuf = s.rxbuf := rfl
@[simp] theorem issue_rxlen (r : Request) (p : Phase) (s : State) : (issue r p s).rxlen = s.rxlen := rfl
@[simp] theorem issue_outbuf (r : Request) (p : Phase) (s : State) : (issue r p s).outbuf = s.outbuf := rfl
@[simp] theorem issue_outlen (r : Request) (p : Phase) (s : State) : (issue r p s).outlen = s.outlen := rfl
@[simp] theorem issue_eosSaved (r : Request) (p : Phase) (s : State) : (issue r p s).eosSaved = s.eosSaved := rfl
@[simp] theorem issue_eosHeld (r : Request) (p : Phase) (s : State) : (issue r p s).eosHeld = s.eosHeld := rfl
@[simp] theorem issue_lastOpc (r : Request) (p : Phase) (s : State) : (issue r p s).lastOpc = s.lastOpc := rfl
@[simp] theorem issue_res (r : Request) (p : Phase) (s : State) : (issue r p s).res = s.res := rfl
@[simp] theorem issue_finStatus (r : Request) (p : Phase) (s : State) : (issue r p s).finStatus = s.finStatus := rfl
@[simp] theorem issue_finCode (r : Request) (p : Phase) (s : State) : (issue r p s).finCode = s.finCode := rfl
@[simp] theorem issue_ackHead (r : Request) (p : Phase) (s : State) : (issue r p s).ackHead = s.ackHead := rfl
@[simp] theorem issue_issued (r : Request) (p : Phase) (s : State) : (issue r p s).issued = s.issued ++ [r] := rfl
@[simp] theorem issue_rst (r : Request) (p : Phase) (s : State) : (issue r p s).rst = s.rst := rfl
@[simp] theorem issue_hostRead (r : Request) (p : Phase) (s : State) : (issue r p s).hostRead = s.hostRead := rfl
@[simp] theorem issue_hostData (r : Request) (p : Phase) (s : State) : (issue r p s).hostData = s.hostData := rfl
@[simp] theorem issue_offered (r : Request) (p : Phase) (s : State) : (issue r p s).offered = s.offered := rfl
@[simp] theorem issue_responses (r : Request) (p : Phase) (s : State) : (issue r p s).responses = s.responses := rfl

/-! `complete` -/

@[simp] theorem complete_phase (st : Status) (c : Nat) (s : State) : (complete st c s).phase = .idle := rfl
@[simp] theorem complete_status (st : Status) (c : Nat) (s : State) : (complete st c s).status = st := rfl
@[simp] theorem complete_done (st : Status) (c : Nat) (s : State) : (complete st c s).done = true := rfl
@[simp] theorem complete_diagEcho (st : Status) (c : Nat) (s : State) : (complete st c s).diagEcho = s.diagEcho := rfl
@[simp] theorem complete_diagLegacy (st : Status) (c : Nat) (s : State) : (complete st c s).diagLegacy = s.diagLegacy := rfl
@[simp] theorem complete_diagContEnd (st : Status) (c : Nat) (s : State) : (complete st c s).diagContEnd = s.diagContEnd := rfl
@[simp] theorem complete_errcode (st : Status) (c : Nat) (s : State) : (complete st c s).errcode = if st = .controller then BitVec.ofNat 16 c else 0 := rfl
@[simp] theorem complete_latch (st : Status) (c : Nat) (s : State) : (complete st c s).latch = s.latch := rfl
@[simp] theorem complete_rd (st : Status) (c : Nat) (s : State) : (complete st c s).rd = s.rd := rfl
@[simp] theorem complete_wt (st : Status) (c : Nat) (s : State) : (complete st c s).wt = s.wt := rfl
@[simp] theorem complete_txbuf (st : Status) (c : Nat) (s : State) : (complete st c s).txbuf = s.txbuf := rfl
@[simp] theorem complete_txlen (st : Status) (c : Nat) (s : State) : (complete st c s).txlen = s.txlen := rfl
@[simp] theorem complete_rxbuf (st : Status) (c : Nat) (s : State) : (complete st c s).rxbuf = s.rxbuf := rfl
@[simp] theorem complete_rxlen (st : Status) (c : Nat) (s : State) : (complete st c s).rxlen = s.rxlen := rfl
@[simp] theorem complete_outbuf (st : Status) (c : Nat) (s : State) : (complete st c s).outbuf = s.outbuf := rfl
@[simp] theorem complete_outlen (st : Status) (c : Nat) (s : State) : (complete st c s).outlen = s.outlen := rfl
@[simp] theorem complete_eosSaved (st : Status) (c : Nat) (s : State) : (complete st c s).eosSaved = s.eosSaved := rfl
@[simp] theorem complete_eosHeld (st : Status) (c : Nat) (s : State) : (complete st c s).eosHeld = s.eosHeld := rfl
@[simp] theorem complete_lastOpc (st : Status) (c : Nat) (s : State) : (complete st c s).lastOpc = s.lastOpc := rfl
@[simp] theorem complete_res (st : Status) (c : Nat) (s : State) : (complete st c s).res = s.res := rfl
@[simp] theorem complete_finStatus (st : Status) (c : Nat) (s : State) : (complete st c s).finStatus = s.finStatus := rfl
@[simp] theorem complete_finCode (st : Status) (c : Nat) (s : State) : (complete st c s).finCode = s.finCode := rfl
@[simp] theorem complete_ackHead (st : Status) (c : Nat) (s : State) : (complete st c s).ackHead = s.ackHead := rfl
@[simp] theorem complete_issued (st : Status) (c : Nat) (s : State) : (complete st c s).issued = s.issued := rfl
@[simp] theorem complete_rst (st : Status) (c : Nat) (s : State) : (complete st c s).rst = s.rst := rfl
@[simp] theorem complete_hostRead (st : Status) (c : Nat) (s : State) : (complete st c s).hostRead = s.hostRead := rfl
@[simp] theorem complete_hostData (st : Status) (c : Nat) (s : State) : (complete st c s).hostData = s.hostData := rfl
@[simp] theorem complete_offered (st : Status) (c : Nat) (s : State) : (complete st c s).offered = s.offered := rfl
@[simp] theorem complete_responses (st : Status) (c : Nat) (s : State) : (complete st c s).responses = s.responses := rfl

/-! `accept` -/

@[simp] theorem accept_phase (w : CmdWord) (s : State) : (accept w s).phase = .exec := rfl
@[simp] theorem accept_status (w : CmdWord) (s : State) : (accept w s).status = .ok := rfl
@[simp] theorem accept_done (w : CmdWord) (s : State) : (accept w s).done = false := rfl
@[simp] theorem accept_diagEcho (w : CmdWord) (s : State) : (accept w s).diagEcho = false := rfl
@[simp] theorem accept_diagLegacy (w : CmdWord) (s : State) : (accept w s).diagLegacy = false := rfl
@[simp] theorem accept_diagContEnd (w : CmdWord) (s : State) : (accept w s).diagContEnd = false := rfl
@[simp] theorem accept_errcode (w : CmdWord) (s : State) : (accept w s).errcode = 0 := rfl
@[simp] theorem accept_latch (w : CmdWord) (s : State) : (accept w s).latch = { cmdw := w, desc := (portOperands s).desc, data := (portOperands s).data, buf := (portOperands s).buf } := rfl
@[simp] theorem accept_rd (w : CmdWord) (s : State) : (accept w s).rd = s.rd := rfl
@[simp] theorem accept_wt (w : CmdWord) (s : State) : (accept w s).wt = s.wt := rfl
@[simp] theorem accept_txbuf (w : CmdWord) (s : State) : (accept w s).txbuf = s.txbuf := rfl
@[simp] theorem accept_txlen (w : CmdWord) (s : State) : (accept w s).txlen = s.txlen := rfl
@[simp] theorem accept_rxbuf (w : CmdWord) (s : State) : (accept w s).rxbuf = s.rxbuf := rfl
@[simp] theorem accept_rxlen (w : CmdWord) (s : State) : (accept w s).rxlen = s.rxlen := rfl
@[simp] theorem accept_outbuf (w : CmdWord) (s : State) : (accept w s).outbuf = [] := rfl
@[simp] theorem accept_outlen (w : CmdWord) (s : State) : (accept w s).outlen = none := rfl
@[simp] theorem accept_eosSaved (w : CmdWord) (s : State) : (accept w s).eosSaved = s.eosSaved := rfl
@[simp] theorem accept_eosHeld (w : CmdWord) (s : State) : (accept w s).eosHeld = s.eosHeld := rfl
@[simp] theorem accept_lastOpc (w : CmdWord) (s : State) : (accept w s).lastOpc = s.lastOpc := rfl
@[simp] theorem accept_res (w : CmdWord) (s : State) : (accept w s).res = Results.none := rfl
@[simp] theorem accept_finStatus (w : CmdWord) (s : State) : (accept w s).finStatus = s.finStatus := rfl
@[simp] theorem accept_finCode (w : CmdWord) (s : State) : (accept w s).finCode = s.finCode := rfl
@[simp] theorem accept_ackHead (w : CmdWord) (s : State) : (accept w s).ackHead = s.ackHead := rfl
@[simp] theorem accept_issued (w : CmdWord) (s : State) : (accept w s).issued = [] := rfl
@[simp] theorem accept_rst (w : CmdWord) (s : State) : (accept w s).rst = s.rst := rfl
@[simp] theorem accept_hostRead (w : CmdWord) (s : State) : (accept w s).hostRead = s.hostRead := rfl
@[simp] theorem accept_hostData (w : CmdWord) (s : State) : (accept w s).hostData = s.hostData := rfl
@[simp] theorem accept_offered (w : CmdWord) (s : State) : (accept w s).offered = s.offered.tail := rfl
@[simp] theorem accept_responses (w : CmdWord) (s : State) : (accept w s).responses = s.responses := rfl

/-! `startRead` -/

@[simp] theorem startRead_phase (c : ReadCmd) (s : State) : (startRead c s).phase = s.phase := rfl
@[simp] theorem startRead_status (c : ReadCmd) (s : State) : (startRead c s).status = s.status := rfl
@[simp] theorem startRead_done (c : ReadCmd) (s : State) : (startRead c s).done = s.done := rfl
@[simp] theorem startRead_diagEcho (c : ReadCmd) (s : State) : (startRead c s).diagEcho = s.diagEcho := rfl
@[simp] theorem startRead_diagLegacy (c : ReadCmd) (s : State) : (startRead c s).diagLegacy = s.diagLegacy := rfl
@[simp] theorem startRead_diagContEnd (c : ReadCmd) (s : State) : (startRead c s).diagContEnd = s.diagContEnd := rfl
@[simp] theorem startRead_errcode (c : ReadCmd) (s : State) : (startRead c s).errcode = s.errcode := rfl
@[simp] theorem startRead_latch (c : ReadCmd) (s : State) : (startRead c s).latch = s.latch := rfl
@[simp] theorem startRead_rd (c : ReadCmd) (s : State) : (startRead c s).rd =
    { s.rd with
      slice := 0, dataBytes := BitVec.ofNat 16 c.dataBytes, bytesRead := 0, remain := BitVec.ofNat 16 c.dataBytes
      expected := BitVec.ofNat 16 c.expected } := rfl
@[simp] theorem startRead_wt (c : ReadCmd) (s : State) : (startRead c s).wt = s.wt := rfl
@[simp] theorem startRead_txbuf (c : ReadCmd) (s : State) : (startRead c s).txbuf = s.txbuf := rfl
@[simp] theorem startRead_txlen (c : ReadCmd) (s : State) : (startRead c s).txlen = s.txlen := rfl
@[simp] theorem startRead_rxbuf (c : ReadCmd) (s : State) : (startRead c s).rxbuf = s.rxbuf := rfl
@[simp] theorem startRead_rxlen (c : ReadCmd) (s : State) : (startRead c s).rxlen = s.rxlen := rfl
@[simp] theorem startRead_outbuf (c : ReadCmd) (s : State) : (startRead c s).outbuf = s.outbuf := rfl
@[simp] theorem startRead_outlen (c : ReadCmd) (s : State) : (startRead c s).outlen = some 0 := rfl
@[simp] theorem startRead_eosSaved (c : ReadCmd) (s : State) : (startRead c s).eosSaved = s.eosSaved := rfl
@[simp] theorem startRead_eosHeld (c : ReadCmd) (s : State) : (startRead c s).eosHeld = s.eosHeld := rfl
@[simp] theorem startRead_lastOpc (c : ReadCmd) (s : State) : (startRead c s).lastOpc = s.lastOpc := rfl
@[simp] theorem startRead_res (c : ReadCmd) (s : State) : (startRead c s).res = s.res := rfl
@[simp] theorem startRead_finStatus (c : ReadCmd) (s : State) : (startRead c s).finStatus = s.finStatus := rfl
@[simp] theorem startRead_finCode (c : ReadCmd) (s : State) : (startRead c s).finCode = s.finCode := rfl
@[simp] theorem startRead_ackHead (c : ReadCmd) (s : State) : (startRead c s).ackHead = s.ackHead := rfl
@[simp] theorem startRead_issued (c : ReadCmd) (s : State) : (startRead c s).issued = s.issued := rfl
@[simp] theorem startRead_rst (c : ReadCmd) (s : State) : (startRead c s).rst = s.rst := rfl
@[simp] theorem startRead_hostRead (c : ReadCmd) (s : State) : (startRead c s).hostRead = s.hostRead := rfl
@[simp] theorem startRead_hostData (c : ReadCmd) (s : State) : (startRead c s).hostData = s.hostData := rfl
@[simp] theorem startRead_offered (c : ReadCmd) (s : State) : (startRead c s).offered = s.offered := rfl
@[simp] theorem startRead_responses (c : ReadCmd) (s : State) : (startRead c s).responses = s.responses := rfl

/-! `countRead` -/

@[simp] theorem countRead_phase (m : Nat) (s : State) : (countRead m s).phase = s.phase := rfl
@[simp] theorem countRead_status (m : Nat) (s : State) : (countRead m s).status = s.status := rfl
@[simp] theorem countRead_done (m : Nat) (s : State) : (countRead m s).done = s.done := rfl
@[simp] theorem countRead_diagEcho (m : Nat) (s : State) : (countRead m s).diagEcho = s.diagEcho := rfl
@[simp] theorem countRead_diagLegacy (m : Nat) (s : State) : (countRead m s).diagLegacy = s.diagLegacy := rfl
@[simp] theorem countRead_diagContEnd (m : Nat) (s : State) : (countRead m s).diagContEnd = s.diagContEnd := rfl
@[simp] theorem countRead_errcode (m : Nat) (s : State) : (countRead m s).errcode = s.errcode := rfl
@[simp] theorem countRead_latch (m : Nat) (s : State) : (countRead m s).latch = s.latch := rfl
@[simp] theorem countRead_rd (m : Nat) (s : State) : (countRead m s).rd =
    { s.rd with bytesRead := BitVec.ofNat 16 (s.rd.bytesRead.toNat + m), remain := BitVec.ofNat 16 (s.rd.remain.toNat - m) } := rfl
@[simp] theorem countRead_wt (m : Nat) (s : State) : (countRead m s).wt = s.wt := rfl
@[simp] theorem countRead_txbuf (m : Nat) (s : State) : (countRead m s).txbuf = s.txbuf := rfl
@[simp] theorem countRead_txlen (m : Nat) (s : State) : (countRead m s).txlen = s.txlen := rfl
@[simp] theorem countRead_rxbuf (m : Nat) (s : State) : (countRead m s).rxbuf = s.rxbuf := rfl
@[simp] theorem countRead_rxlen (m : Nat) (s : State) : (countRead m s).rxlen = s.rxlen := rfl
@[simp] theorem countRead_outbuf (m : Nat) (s : State) : (countRead m s).outbuf = s.outbuf := rfl
@[simp] theorem countRead_outlen (m : Nat) (s : State) : (countRead m s).outlen =
    some (BitVec.ofNat 16 (s.rd.bytesRead.toNat + m)) := rfl
@[simp] theorem countRead_eosSaved (m : Nat) (s : State) : (countRead m s).eosSaved = s.eosSaved := rfl
@[simp] theorem countRead_eosHeld (m : Nat) (s : State) : (countRead m s).eosHeld = s.eosHeld := rfl
@[simp] theorem countRead_lastOpc (m : Nat) (s : State) : (countRead m s).lastOpc = s.lastOpc := rfl
@[simp] theorem countRead_res (m : Nat) (s : State) : (countRead m s).res = s.res := rfl
@[simp] theorem countRead_finStatus (m : Nat) (s : State) : (countRead m s).finStatus = s.finStatus := rfl
@[simp] theorem countRead_finCode (m : Nat) (s : State) : (countRead m s).finCode = s.finCode := rfl
@[simp] theorem countRead_ackHead (m : Nat) (s : State) : (countRead m s).ackHead = s.ackHead := rfl
@[simp] theorem countRead_issued (m : Nat) (s : State) : (countRead m s).issued = s.issued := rfl
@[simp] theorem countRead_rst (m : Nat) (s : State) : (countRead m s).rst = s.rst := rfl
@[simp] theorem countRead_hostRead (m : Nat) (s : State) : (countRead m s).hostRead = s.hostRead := rfl
@[simp] theorem countRead_hostData (m : Nat) (s : State) : (countRead m s).hostData = s.hostData := rfl
@[simp] theorem countRead_offered (m : Nat) (s : State) : (countRead m s).offered = s.offered := rfl
@[simp] theorem countRead_responses (m : Nat) (s : State) : (countRead m s).responses = s.responses := rfl

/-! `quiet` -/

@[simp] theorem quiet_phase (s : State) : (quiet s).phase = s.phase := rfl
@[simp] theorem quiet_status (s : State) : (quiet s).status = s.status := rfl
@[simp] theorem quiet_done (s : State) : (quiet s).done = s.done := rfl
@[simp] theorem quiet_diagEcho (s : State) : (quiet s).diagEcho = s.diagEcho := rfl
@[simp] theorem quiet_diagLegacy (s : State) : (quiet s).diagLegacy = s.diagLegacy := rfl
@[simp] theorem quiet_diagContEnd (s : State) : (quiet s).diagContEnd = s.diagContEnd := rfl
@[simp] theorem quiet_errcode (s : State) : (quiet s).errcode = s.errcode := rfl
@[simp] theorem quiet_latch (s : State) : (quiet s).latch = s.latch := rfl
@[simp] theorem quiet_rd (s : State) : (quiet s).rd = s.rd := rfl
@[simp] theorem quiet_wt (s : State) : (quiet s).wt = s.wt := rfl
@[simp] theorem quiet_txbuf (s : State) : (quiet s).txbuf = s.txbuf := rfl
@[simp] theorem quiet_txlen (s : State) : (quiet s).txlen = s.txlen := rfl
@[simp] theorem quiet_rxbuf (s : State) : (quiet s).rxbuf = s.rxbuf := rfl
@[simp] theorem quiet_rxlen (s : State) : (quiet s).rxlen = s.rxlen := rfl
@[simp] theorem quiet_outbuf (s : State) : (quiet s).outbuf = s.outbuf := rfl
@[simp] theorem quiet_outlen (s : State) : (quiet s).outlen = s.outlen := rfl
@[simp] theorem quiet_eosSaved (s : State) : (quiet s).eosSaved = s.eosSaved := rfl
@[simp] theorem quiet_eosHeld (s : State) : (quiet s).eosHeld = s.eosHeld := rfl
@[simp] theorem quiet_lastOpc (s : State) : (quiet s).lastOpc = s.lastOpc := rfl
@[simp] theorem quiet_res (s : State) : (quiet s).res = s.res := rfl
@[simp] theorem quiet_finStatus (s : State) : (quiet s).finStatus = s.finStatus := rfl
@[simp] theorem quiet_finCode (s : State) : (quiet s).finCode = s.finCode := rfl
@[simp] theorem quiet_ackHead (s : State) : (quiet s).ackHead = s.ackHead := rfl
@[simp] theorem quiet_issued (s : State) : (quiet s).issued = s.issued := rfl
@[simp] theorem quiet_rst (s : State) : (quiet s).rst = false := rfl
@[simp] theorem quiet_hostRead (s : State) : (quiet s).hostRead = none := rfl
@[simp] theorem quiet_hostData (s : State) : (quiet s).hostData = s.hostData := rfl
@[simp] theorem quiet_offered (s : State) : (quiet s).offered = s.offered := rfl
@[simp] theorem quiet_responses (s : State) : (quiet s).responses = s.responses := rfl

/-! `resetBlock` -/

@[simp] theorem resetBlock_phase (s : State) : (resetBlock s).phase = State.reset.phase := rfl
@[simp] theorem resetBlock_status (s : State) : (resetBlock s).status = State.reset.status := rfl
@[simp] theorem resetBlock_done (s : State) : (resetBlock s).done = State.reset.done := rfl
@[simp] theorem resetBlock_diagEcho (s : State) : (resetBlock s).diagEcho = State.reset.diagEcho := rfl
@[simp] theorem resetBlock_diagLegacy (s : State) : (resetBlock s).diagLegacy = State.reset.diagLegacy := rfl
@[simp] theorem resetBlock_diagContEnd (s : State) : (resetBlock s).diagContEnd = State.reset.diagContEnd := rfl
@[simp] theorem resetBlock_errcode (s : State) : (resetBlock s).errcode = State.reset.errcode := rfl
@[simp] theorem resetBlock_latch (s : State) : (resetBlock s).latch = State.reset.latch := rfl
@[simp] theorem resetBlock_rd (s : State) : (resetBlock s).rd = State.reset.rd := rfl
@[simp] theorem resetBlock_wt (s : State) : (resetBlock s).wt = State.reset.wt := rfl
@[simp] theorem resetBlock_txbuf (s : State) : (resetBlock s).txbuf = State.reset.txbuf := rfl
@[simp] theorem resetBlock_txlen (s : State) : (resetBlock s).txlen = State.reset.txlen := rfl
@[simp] theorem resetBlock_rxbuf (s : State) : (resetBlock s).rxbuf = State.reset.rxbuf := rfl
@[simp] theorem resetBlock_rxlen (s : State) : (resetBlock s).rxlen = State.reset.rxlen := rfl
@[simp] theorem resetBlock_outbuf (s : State) : (resetBlock s).outbuf = State.reset.outbuf := rfl
@[simp] theorem resetBlock_outlen (s : State) : (resetBlock s).outlen = State.reset.outlen := rfl
@[simp] theorem resetBlock_eosSaved (s : State) : (resetBlock s).eosSaved = State.reset.eosSaved := rfl
@[simp] theorem resetBlock_eosHeld (s : State) : (resetBlock s).eosHeld = State.reset.eosHeld := rfl
@[simp] theorem resetBlock_lastOpc (s : State) : (resetBlock s).lastOpc = State.reset.lastOpc := rfl
@[simp] theorem resetBlock_res (s : State) : (resetBlock s).res = State.reset.res := rfl
@[simp] theorem resetBlock_finStatus (s : State) : (resetBlock s).finStatus = State.reset.finStatus := rfl
@[simp] theorem resetBlock_finCode (s : State) : (resetBlock s).finCode = State.reset.finCode := rfl
@[simp] theorem resetBlock_ackHead (s : State) : (resetBlock s).ackHead = State.reset.ackHead := rfl
@[simp] theorem resetBlock_issued (s : State) : (resetBlock s).issued = State.reset.issued := rfl
@[simp] theorem resetBlock_rst (s : State) : (resetBlock s).rst = State.reset.rst := rfl
@[simp] theorem resetBlock_hostRead (s : State) : (resetBlock s).hostRead = s.hostRead := rfl
@[simp] theorem resetBlock_hostData (s : State) : (resetBlock s).hostData = s.hostData := rfl
@[simp] theorem resetBlock_offered (s : State) : (resetBlock s).offered = s.offered := rfl
@[simp] theorem resetBlock_responses (s : State) : (resetBlock s).responses = discardStale s := rfl

/-! `finish` -/

@[simp] theorem finish_diagEcho (st : Status) (c : Nat) (s : State) : (finish st c s).diagEcho = s.diagEcho := by unfold finish; split <;> rfl
@[simp] theorem finish_diagLegacy (st : Status) (c : Nat) (s : State) : (finish st c s).diagLegacy = s.diagLegacy := by unfold finish; split <;> rfl
@[simp] theorem finish_diagContEnd (st : Status) (c : Nat) (s : State) : (finish st c s).diagContEnd = s.diagContEnd := by unfold finish; split <;> rfl
@[simp] theorem finish_latch (st : Status) (c : Nat) (s : State) : (finish st c s).latch = s.latch := by unfold finish; split <;> rfl
@[simp] theorem finish_rd (st : Status) (c : Nat) (s : State) : (finish st c s).rd = s.rd := by unfold finish; split <;> rfl
@[simp] theorem finish_wt (st : Status) (c : Nat) (s : State) : (finish st c s).wt = s.wt := by unfold finish; split <;> rfl
@[simp] theorem finish_txbuf (st : Status) (c : Nat) (s : State) : (finish st c s).txbuf = s.txbuf := by unfold finish; split <;> rfl
@[simp] theorem finish_txlen (st : Status) (c : Nat) (s : State) : (finish st c s).txlen = s.txlen := by unfold finish; split <;> rfl
@[simp] theorem finish_rxbuf (st : Status) (c : Nat) (s : State) : (finish st c s).rxbuf = s.rxbuf := by unfold finish; split <;> rfl
@[simp] theorem finish_rxlen (st : Status) (c : Nat) (s : State) : (finish st c s).rxlen = s.rxlen := by unfold finish; split <;> rfl
@[simp] theorem finish_outbuf (st : Status) (c : Nat) (s : State) : (finish st c s).outbuf = s.outbuf := by unfold finish; split <;> rfl
@[simp] theorem finish_outlen (st : Status) (c : Nat) (s : State) : (finish st c s).outlen = s.outlen := by unfold finish; split <;> rfl
@[simp] theorem finish_eosSaved (st : Status) (c : Nat) (s : State) : (finish st c s).eosSaved = s.eosSaved := by unfold finish; split <;> rfl
@[simp] theorem finish_eosHeld (st : Status) (c : Nat) (s : State) : (finish st c s).eosHeld = s.eosHeld := by unfold finish; split <;> rfl
@[simp] theorem finish_lastOpc (st : Status) (c : Nat) (s : State) : (finish st c s).lastOpc = s.lastOpc := by unfold finish; split <;> rfl
@[simp] theorem finish_res (st : Status) (c : Nat) (s : State) : (finish st c s).res = s.res := by unfold finish; split <;> rfl
@[simp] theorem finish_ackHead (st : Status) (c : Nat) (s : State) : (finish st c s).ackHead = s.ackHead := by unfold finish; split <;> rfl
@[simp] theorem finish_rst (st : Status) (c : Nat) (s : State) : (finish st c s).rst = s.rst := by unfold finish; split <;> rfl
@[simp] theorem finish_hostRead (st : Status) (c : Nat) (s : State) : (finish st c s).hostRead = s.hostRead := by unfold finish; split <;> rfl
@[simp] theorem finish_hostData (st : Status) (c : Nat) (s : State) : (finish st c s).hostData = s.hostData := by unfold finish; split <;> rfl
@[simp] theorem finish_offered (st : Status) (c : Nat) (s : State) : (finish st c s).offered = s.offered := by unfold finish; split <;> rfl
@[simp] theorem finish_responses (st : Status) (c : Nat) (s : State) : (finish st c s).responses = s.responses := by unfold finish; split <;> rfl

/-! `finishRestored` -/

@[simp] theorem finishRestored_phase (x : XStatus) (s : State) : (finishRestored x s).phase = .idle := rfl
@[simp] theorem finishRestored_status (x : XStatus) (s : State) : (finishRestored x s).status = if x ≠ .ok ∧ s.finStatus = .ok then .transport else s.finStatus := rfl
@[simp] theorem finishRestored_done (x : XStatus) (s : State) : (finishRestored x s).done = true := rfl
@[simp] theorem finishRestored_diagEcho (x : XStatus) (s : State) : (finishRestored x s).diagEcho = s.diagEcho := rfl
@[simp] theorem finishRestored_diagLegacy (x : XStatus) (s : State) : (finishRestored x s).diagLegacy = s.diagLegacy := rfl
@[simp] theorem finishRestored_diagContEnd (x : XStatus) (s : State) : (finishRestored x s).diagContEnd = s.diagContEnd := rfl
@[simp] theorem finishRestored_latch (x : XStatus) (s : State) : (finishRestored x s).latch = s.latch := rfl
@[simp] theorem finishRestored_rd (x : XStatus) (s : State) : (finishRestored x s).rd = s.rd := rfl
@[simp] theorem finishRestored_wt (x : XStatus) (s : State) : (finishRestored x s).wt = s.wt := rfl
@[simp] theorem finishRestored_txbuf (x : XStatus) (s : State) : (finishRestored x s).txbuf = s.txbuf := rfl
@[simp] theorem finishRestored_txlen (x : XStatus) (s : State) : (finishRestored x s).txlen = s.txlen := rfl
@[simp] theorem finishRestored_rxbuf (x : XStatus) (s : State) : (finishRestored x s).rxbuf = s.rxbuf := rfl
@[simp] theorem finishRestored_rxlen (x : XStatus) (s : State) : (finishRestored x s).rxlen = s.rxlen := rfl
@[simp] theorem finishRestored_outbuf (x : XStatus) (s : State) : (finishRestored x s).outbuf = s.outbuf := rfl
@[simp] theorem finishRestored_outlen (x : XStatus) (s : State) : (finishRestored x s).outlen = s.outlen := rfl
@[simp] theorem finishRestored_eosSaved (x : XStatus) (s : State) : (finishRestored x s).eosSaved = s.eosSaved := rfl
@[simp] theorem finishRestored_eosHeld (x : XStatus) (s : State) : (finishRestored x s).eosHeld = false := rfl
@[simp] theorem finishRestored_lastOpc (x : XStatus) (s : State) : (finishRestored x s).lastOpc = s.lastOpc := rfl
@[simp] theorem finishRestored_res (x : XStatus) (s : State) : (finishRestored x s).res = s.res := rfl
@[simp] theorem finishRestored_finStatus (x : XStatus) (s : State) : (finishRestored x s).finStatus = s.finStatus := rfl
@[simp] theorem finishRestored_finCode (x : XStatus) (s : State) : (finishRestored x s).finCode = s.finCode := rfl
@[simp] theorem finishRestored_ackHead (x : XStatus) (s : State) : (finishRestored x s).ackHead = s.ackHead := rfl
@[simp] theorem finishRestored_issued (x : XStatus) (s : State) : (finishRestored x s).issued = s.issued := rfl
@[simp] theorem finishRestored_rst (x : XStatus) (s : State) : (finishRestored x s).rst = s.rst := rfl
@[simp] theorem finishRestored_hostRead (x : XStatus) (s : State) : (finishRestored x s).hostRead = s.hostRead := rfl
@[simp] theorem finishRestored_hostData (x : XStatus) (s : State) : (finishRestored x s).hostData = s.hostData := rfl
@[simp] theorem finishRestored_offered (x : XStatus) (s : State) : (finishRestored x s).offered = s.offered := rfl
@[simp] theorem finishRestored_responses (x : XStatus) (s : State) : (finishRestored x s).responses = s.responses := rfl

/-! `noteEcho` -/

@[simp] theorem noteEcho_phase (b : Byte) (s : State) : (noteEcho b s).phase = s.phase := by unfold noteEcho; split <;> rfl
@[simp] theorem noteEcho_status (b : Byte) (s : State) : (noteEcho b s).status = s.status := by unfold noteEcho; split <;> rfl
@[simp] theorem noteEcho_done (b : Byte) (s : State) : (noteEcho b s).done = s.done := by unfold noteEcho; split <;> rfl
@[simp] theorem noteEcho_diagLegacy (b : Byte) (s : State) : (noteEcho b s).diagLegacy = s.diagLegacy := by unfold noteEcho; split <;> rfl
@[simp] theorem noteEcho_diagContEnd (b : Byte) (s : State) : (noteEcho b s).diagContEnd = s.diagContEnd := by unfold noteEcho; split <;> rfl
@[simp] theorem noteEcho_errcode (b : Byte) (s : State) : (noteEcho b s).errcode = s.errcode := by unfold noteEcho; split <;> rfl
@[simp] theorem noteEcho_latch (b : Byte) (s : State) : (noteEcho b s).latch = s.latch := by unfold noteEcho; split <;> rfl
@[simp] theorem noteEcho_rd (b : Byte) (s : State) : (noteEcho b s).rd = s.rd := by unfold noteEcho; split <;> rfl
@[simp] theorem noteEcho_wt (b : Byte) (s : State) : (noteEcho b s).wt = s.wt := by unfold noteEcho; split <;> rfl
@[simp] theorem noteEcho_txbuf (b : Byte) (s : State) : (noteEcho b s).txbuf = s.txbuf := by unfold noteEcho; split <;> rfl
@[simp] theorem noteEcho_txlen (b : Byte) (s : State) : (noteEcho b s).txlen = s.txlen := by unfold noteEcho; split <;> rfl
@[simp] theorem noteEcho_rxbuf (b : Byte) (s : State) : (noteEcho b s).rxbuf = s.rxbuf := by unfold noteEcho; split <;> rfl
@[simp] theorem noteEcho_rxlen (b : Byte) (s : State) : (noteEcho b s).rxlen = s.rxlen := by unfold noteEcho; split <;> rfl
@[simp] theorem noteEcho_outbuf (b : Byte) (s : State) : (noteEcho b s).outbuf = s.outbuf := by unfold noteEcho; split <;> rfl
@[simp] theorem noteEcho_outlen (b : Byte) (s : State) : (noteEcho b s).outlen = s.outlen := by unfold noteEcho; split <;> rfl
@[simp] theorem noteEcho_eosSaved (b : Byte) (s : State) : (noteEcho b s).eosSaved = s.eosSaved := by unfold noteEcho; split <;> rfl
@[simp] theorem noteEcho_eosHeld (b : Byte) (s : State) : (noteEcho b s).eosHeld = s.eosHeld := by unfold noteEcho; split <;> rfl
@[simp] theorem noteEcho_lastOpc (b : Byte) (s : State) : (noteEcho b s).lastOpc = s.lastOpc := by unfold noteEcho; split <;> rfl
@[simp] theorem noteEcho_res (b : Byte) (s : State) : (noteEcho b s).res = s.res := by unfold noteEcho; split <;> rfl
@[simp] theorem noteEcho_finStatus (b : Byte) (s : State) : (noteEcho b s).finStatus = s.finStatus := by unfold noteEcho; split <;> rfl
@[simp] theorem noteEcho_finCode (b : Byte) (s : State) : (noteEcho b s).finCode = s.finCode := by unfold noteEcho; split <;> rfl
@[simp] theorem noteEcho_ackHead (b : Byte) (s : State) : (noteEcho b s).ackHead = s.ackHead := by unfold noteEcho; split <;> rfl
@[simp] theorem noteEcho_issued (b : Byte) (s : State) : (noteEcho b s).issued = s.issued := by unfold noteEcho; split <;> rfl
@[simp] theorem noteEcho_rst (b : Byte) (s : State) : (noteEcho b s).rst = s.rst := by unfold noteEcho; split <;> rfl
@[simp] theorem noteEcho_hostRead (b : Byte) (s : State) : (noteEcho b s).hostRead = s.hostRead := by unfold noteEcho; split <;> rfl
@[simp] theorem noteEcho_hostData (b : Byte) (s : State) : (noteEcho b s).hostData = s.hostData := by unfold noteEcho; split <;> rfl
@[simp] theorem noteEcho_offered (b : Byte) (s : State) : (noteEcho b s).offered = s.offered := by unfold noteEcho; split <;> rfl
@[simp] theorem noteEcho_responses (b : Byte) (s : State) : (noteEcho b s).responses = s.responses := by unfold noteEcho; split <;> rfl

/-! `countAcknowledged` -/

@[simp] theorem countAcknowledged_phase (s : State) : (countAcknowledged s).phase = s.phase := rfl
@[simp] theorem countAcknowledged_status (s : State) : (countAcknowledged s).status = s.status := rfl
@[simp] theorem countAcknowledged_done (s : State) : (countAcknowledged s).done = s.done := rfl
@[simp] theorem countAcknowledged_diagEcho (s : State) : (countAcknowledged s).diagEcho = s.diagEcho := rfl
@[simp] theorem countAcknowledged_diagLegacy (s : State) : (countAcknowledged s).diagLegacy = s.diagLegacy := rfl
@[simp] theorem countAcknowledged_diagContEnd (s : State) : (countAcknowledged s).diagContEnd = s.diagContEnd := rfl
@[simp] theorem countAcknowledged_errcode (s : State) : (countAcknowledged s).errcode = s.errcode := rfl
@[simp] theorem countAcknowledged_latch (s : State) : (countAcknowledged s).latch = s.latch := rfl
@[simp] theorem countAcknowledged_rd (s : State) : (countAcknowledged s).rd = s.rd := rfl
@[simp] theorem countAcknowledged_txbuf (s : State) : (countAcknowledged s).txbuf = s.txbuf := rfl
@[simp] theorem countAcknowledged_txlen (s : State) : (countAcknowledged s).txlen = s.txlen := rfl
@[simp] theorem countAcknowledged_rxbuf (s : State) : (countAcknowledged s).rxbuf = s.rxbuf := rfl
@[simp] theorem countAcknowledged_rxlen (s : State) : (countAcknowledged s).rxlen = s.rxlen := rfl
@[simp] theorem countAcknowledged_outbuf (s : State) : (countAcknowledged s).outbuf = s.outbuf := rfl
@[simp] theorem countAcknowledged_outlen (s : State) : (countAcknowledged s).outlen = s.outlen := rfl
@[simp] theorem countAcknowledged_eosSaved (s : State) : (countAcknowledged s).eosSaved = s.eosSaved := rfl
@[simp] theorem countAcknowledged_eosHeld (s : State) : (countAcknowledged s).eosHeld = s.eosHeld := rfl
@[simp] theorem countAcknowledged_lastOpc (s : State) : (countAcknowledged s).lastOpc = s.lastOpc := rfl
@[simp] theorem countAcknowledged_finStatus (s : State) : (countAcknowledged s).finStatus = s.finStatus := rfl
@[simp] theorem countAcknowledged_finCode (s : State) : (countAcknowledged s).finCode = s.finCode := rfl
@[simp] theorem countAcknowledged_ackHead (s : State) : (countAcknowledged s).ackHead = s.ackHead := rfl
@[simp] theorem countAcknowledged_issued (s : State) : (countAcknowledged s).issued = s.issued := rfl
@[simp] theorem countAcknowledged_rst (s : State) : (countAcknowledged s).rst = s.rst := rfl
@[simp] theorem countAcknowledged_hostRead (s : State) : (countAcknowledged s).hostRead = s.hostRead := rfl
@[simp] theorem countAcknowledged_hostData (s : State) : (countAcknowledged s).hostData = s.hostData := rfl
@[simp] theorem countAcknowledged_offered (s : State) : (countAcknowledged s).offered = s.offered := rfl
@[simp] theorem countAcknowledged_responses (s : State) : (countAcknowledged s).responses = s.responses := rfl
@[simp] theorem countAcknowledged_wt (s : State) : (countAcknowledged s).wt = wtRegs (countChunk (wtCounts s.wt)) := rfl
@[simp] theorem countAcknowledged_elems (s : State) : (countAcknowledged s).res.elems = some (countAcknowledged s).wt.sent := rfl

/-! `noteLegacy` -/

@[simp] theorem noteLegacy_phase (l : Bool) (s : State) : (noteLegacy l s).phase = s.phase := by unfold noteLegacy; split <;> rfl
@[simp] theorem noteLegacy_status (l : Bool) (s : State) : (noteLegacy l s).status = s.status := by unfold noteLegacy; split <;> rfl
@[simp] theorem noteLegacy_done (l : Bool) (s : State) : (noteLegacy l s).done = s.done := by unfold noteLegacy; split <;> rfl
@[simp] theorem noteLegacy_diagEcho (l : Bool) (s : State) : (noteLegacy l s).diagEcho = s.diagEcho := by unfold noteLegacy; split <;> rfl
@[simp] theorem noteLegacy_diagContEnd (l : Bool) (s : State) : (noteLegacy l s).diagContEnd = s.diagContEnd := by unfold noteLegacy; split <;> rfl
@[simp] theorem noteLegacy_errcode (l : Bool) (s : State) : (noteLegacy l s).errcode = s.errcode := by unfold noteLegacy; split <;> rfl
@[simp] theorem noteLegacy_latch (l : Bool) (s : State) : (noteLegacy l s).latch = s.latch := by unfold noteLegacy; split <;> rfl
@[simp] theorem noteLegacy_rd (l : Bool) (s : State) : (noteLegacy l s).rd = s.rd := by unfold noteLegacy; split <;> rfl
@[simp] theorem noteLegacy_wt (l : Bool) (s : State) : (noteLegacy l s).wt = s.wt := by unfold noteLegacy; split <;> rfl
@[simp] theorem noteLegacy_txbuf (l : Bool) (s : State) : (noteLegacy l s).txbuf = s.txbuf := by unfold noteLegacy; split <;> rfl
@[simp] theorem noteLegacy_txlen (l : Bool) (s : State) : (noteLegacy l s).txlen = s.txlen := by unfold noteLegacy; split <;> rfl
@[simp] theorem noteLegacy_rxbuf (l : Bool) (s : State) : (noteLegacy l s).rxbuf = s.rxbuf := by unfold noteLegacy; split <;> rfl
@[simp] theorem noteLegacy_rxlen (l : Bool) (s : State) : (noteLegacy l s).rxlen = s.rxlen := by unfold noteLegacy; split <;> rfl
@[simp] theorem noteLegacy_outbuf (l : Bool) (s : State) : (noteLegacy l s).outbuf = s.outbuf := by unfold noteLegacy; split <;> rfl
@[simp] theorem noteLegacy_outlen (l : Bool) (s : State) : (noteLegacy l s).outlen = s.outlen := by unfold noteLegacy; split <;> rfl
@[simp] theorem noteLegacy_eosSaved (l : Bool) (s : State) : (noteLegacy l s).eosSaved = s.eosSaved := by unfold noteLegacy; split <;> rfl
@[simp] theorem noteLegacy_eosHeld (l : Bool) (s : State) : (noteLegacy l s).eosHeld = s.eosHeld := by unfold noteLegacy; split <;> rfl
@[simp] theorem noteLegacy_lastOpc (l : Bool) (s : State) : (noteLegacy l s).lastOpc = s.lastOpc := by unfold noteLegacy; split <;> rfl
@[simp] theorem noteLegacy_res (l : Bool) (s : State) : (noteLegacy l s).res = s.res := by unfold noteLegacy; split <;> rfl
@[simp] theorem noteLegacy_finStatus (l : Bool) (s : State) : (noteLegacy l s).finStatus = s.finStatus := by unfold noteLegacy; split <;> rfl
@[simp] theorem noteLegacy_finCode (l : Bool) (s : State) : (noteLegacy l s).finCode = s.finCode := by unfold noteLegacy; split <;> rfl
@[simp] theorem noteLegacy_ackHead (l : Bool) (s : State) : (noteLegacy l s).ackHead = s.ackHead := by unfold noteLegacy; split <;> rfl
@[simp] theorem noteLegacy_issued (l : Bool) (s : State) : (noteLegacy l s).issued = s.issued := by unfold noteLegacy; split <;> rfl
@[simp] theorem noteLegacy_rst (l : Bool) (s : State) : (noteLegacy l s).rst = s.rst := by unfold noteLegacy; split <;> rfl
@[simp] theorem noteLegacy_hostRead (l : Bool) (s : State) : (noteLegacy l s).hostRead = s.hostRead := by unfold noteLegacy; split <;> rfl
@[simp] theorem noteLegacy_hostData (l : Bool) (s : State) : (noteLegacy l s).hostData = s.hostData := by unfold noteLegacy; split <;> rfl
@[simp] theorem noteLegacy_offered (l : Bool) (s : State) : (noteLegacy l s).offered = s.offered := by unfold noteLegacy; split <;> rfl
@[simp] theorem noteLegacy_responses (l : Bool) (s : State) : (noteLegacy l s).responses = s.responses := by unfold noteLegacy; split <;> rfl

/-! `noteContEnd` -/

@[simp] theorem noteContEnd_phase (s : State) : (noteContEnd s).phase = s.phase := by unfold noteContEnd; split <;> rfl
@[simp] theorem noteContEnd_status (s : State) : (noteContEnd s).status = s.status := by unfold noteContEnd; split <;> rfl
@[simp] theorem noteContEnd_done (s : State) : (noteContEnd s).done = s.done := by unfold noteContEnd; split <;> rfl
@[simp] theorem noteContEnd_diagEcho (s : State) : (noteContEnd s).diagEcho = s.diagEcho := by unfold noteContEnd; split <;> rfl
@[simp] theorem noteContEnd_diagLegacy (s : State) : (noteContEnd s).diagLegacy = s.diagLegacy := by unfold noteContEnd; split <;> rfl
@[simp] theorem noteContEnd_errcode (s : State) : (noteContEnd s).errcode = s.errcode := by unfold noteContEnd; split <;> rfl
@[simp] theorem noteContEnd_latch (s : State) : (noteContEnd s).latch = s.latch := by unfold noteContEnd; split <;> rfl
@[simp] theorem noteContEnd_rd (s : State) : (noteContEnd s).rd = s.rd := by unfold noteContEnd; split <;> rfl
@[simp] theorem noteContEnd_wt (s : State) : (noteContEnd s).wt = s.wt := by unfold noteContEnd; split <;> rfl
@[simp] theorem noteContEnd_txbuf (s : State) : (noteContEnd s).txbuf = s.txbuf := by unfold noteContEnd; split <;> rfl
@[simp] theorem noteContEnd_txlen (s : State) : (noteContEnd s).txlen = s.txlen := by unfold noteContEnd; split <;> rfl
@[simp] theorem noteContEnd_rxbuf (s : State) : (noteContEnd s).rxbuf = s.rxbuf := by unfold noteContEnd; split <;> rfl
@[simp] theorem noteContEnd_rxlen (s : State) : (noteContEnd s).rxlen = s.rxlen := by unfold noteContEnd; split <;> rfl
@[simp] theorem noteContEnd_outbuf (s : State) : (noteContEnd s).outbuf = s.outbuf := by unfold noteContEnd; split <;> rfl
@[simp] theorem noteContEnd_outlen (s : State) : (noteContEnd s).outlen = s.outlen := by unfold noteContEnd; split <;> rfl
@[simp] theorem noteContEnd_eosSaved (s : State) : (noteContEnd s).eosSaved = s.eosSaved := by unfold noteContEnd; split <;> rfl
@[simp] theorem noteContEnd_eosHeld (s : State) : (noteContEnd s).eosHeld = s.eosHeld := by unfold noteContEnd; split <;> rfl
@[simp] theorem noteContEnd_lastOpc (s : State) : (noteContEnd s).lastOpc = s.lastOpc := by unfold noteContEnd; split <;> rfl
@[simp] theorem noteContEnd_res (s : State) : (noteContEnd s).res = s.res := by unfold noteContEnd; split <;> rfl
@[simp] theorem noteContEnd_finStatus (s : State) : (noteContEnd s).finStatus = s.finStatus := by unfold noteContEnd; split <;> rfl
@[simp] theorem noteContEnd_finCode (s : State) : (noteContEnd s).finCode = s.finCode := by unfold noteContEnd; split <;> rfl
@[simp] theorem noteContEnd_ackHead (s : State) : (noteContEnd s).ackHead = s.ackHead := by unfold noteContEnd; split <;> rfl
@[simp] theorem noteContEnd_issued (s : State) : (noteContEnd s).issued = s.issued := by unfold noteContEnd; split <;> rfl
@[simp] theorem noteContEnd_rst (s : State) : (noteContEnd s).rst = s.rst := by unfold noteContEnd; split <;> rfl
@[simp] theorem noteContEnd_hostRead (s : State) : (noteContEnd s).hostRead = s.hostRead := by unfold noteContEnd; split <;> rfl
@[simp] theorem noteContEnd_hostData (s : State) : (noteContEnd s).hostData = s.hostData := by unfold noteContEnd; split <;> rfl
@[simp] theorem noteContEnd_offered (s : State) : (noteContEnd s).offered = s.offered := by unfold noteContEnd; split <;> rfl
@[simp] theorem noteContEnd_responses (s : State) : (noteContEnd s).responses = s.responses := by unfold noteContEnd; split <;> rfl

/-- With nothing held, `finish` completes the command. -/
@[simp] theorem finish_not_held {st : Status} {c : Nat} {s : State} (h : s.eosHeld = false) : finish st c s = complete st c s := by
  simp [finish, h]

/-- With the EOS configuration held, `finish` restores it first. -/
@[simp] theorem finish_held {st : Status} {c : Nat} {s : State} (h : s.eosHeld = true) :
    finish st c s = issue (.eosRestore s.eosSaved) .wEosRestore { s with finStatus := st, finCode := c } := by
  simp [finish, h]

/-- `raise E` is `finish(E, 0)` (41_slicer_continuation.md R203). -/
theorem raise_eq (e : Status) (s : State) : raise e s = finish e 0 s := rfl

/-- Where `finish` leaves the sequencer. -/
theorem finish_phase (st : Status) (c : Nat) (s : State) :
    (finish st c s).phase = if s.eosHeld then .wEosRestore else .idle := by
  unfold finish; split <;> rfl

/-- The requests after `finish`. -/
theorem finish_issued (st : Status) (c : Nat) (s : State) :
    (finish st c s).issued = if s.eosHeld then s.issued ++ [.eosRestore s.eosSaved] else s.issued := by
  unfold finish; split <;> rfl

end Sys2Proof.Machine
end

