-- ==== Sys2Proof/Laws/Ops.lean ====
section
/-! SUPPORT. The laws of the shared operations: what each can do, said once. -/

namespace Sys2Proof.Machine

open Sys2Proof

/-- A host command in IDLE runs on the state after acceptance (41_slicer_continuation.md R202). -/
theorem hostCommand_idle {w : CmdWord} {s : State} {run : State → Answer} (h : s.phase = .idle) :
    hostCommand w s run = run (accept w s) := by
  simp [hostCommand, h]

/-- A host command in another phase is held, and nothing changes (41_slicer_continuation.md R202). -/
theorem hostCommand_busy {w : CmdWord} {s : State} {run : State → Answer} (h : s.phase ≠ .idle) :
    hostCommand w s run = .next s := by
  simp [hostCommand, h]

/-- A host command held by the host, or run after acceptance. -/
theorem hostCommand_cases {w : CmdWord} {s t : State} {run : State → Answer} (h : hostCommand w s run = .next t) :
    s.phase ≠ .idle ∧ t = s ∨ s.phase = .idle ∧ run (accept w s) = .next t := by
  by_cases hp : s.phase = .idle
  · rw [hostCommand_idle hp] at h; exact Or.inr ⟨hp, h⟩
  · rw [hostCommand_busy hp] at h; cases h; exact Or.inl ⟨hp, rfl⟩

/-- A frame that fits goes into TXBUF (10_state.md R40). -/
theorem withTx_fits {b : List Byte} {s : State} {k : State → Answer} (h : b.length ≤ 1405) :
    withTx b s k = k { s with txbuf := Memory.store [] 0 b, txlen := BitVec.ofNat 16 b.length } := by
  simp [withTx, memWrite, h]

/-- A reply that fits goes into RXBUF (10_state.md R40). -/
theorem withRx_fits {b : List Byte} {s : State} {k : State → Answer} (h : b.length ≤ 1405) :
    withRx b s k = k { s with rxbuf := Memory.store [] 0 b, rxlen := BitVec.ofNat 16 b.length } := by
  simp [withRx, memWrite, h]

/-- Data that fit go into OUTBUF (41_slicer_continuation.md R204). -/
theorem withOut_fits {a : Nat} {b : List Byte} {s : State} {k : State → Answer} (h : a + b.length ≤ 14000) :
    withOut a b s k = k { s with outbuf := Memory.store s.outbuf a b } := by
  simp [withOut, memWrite, h]

theorem withTx_cases {b : List Byte} {s t : State} {k : State → Answer} (h : withTx b s k = .next t) :
    b.length ≤ 1405 ∧ k { s with txbuf := Memory.store [] 0 b, txlen := BitVec.ofNat 16 b.length } = .next t := by
  by_cases hb : b.length ≤ 1405
  · rw [withTx_fits hb] at h; exact ⟨hb, h⟩
  · simp [withTx, memWrite, hb] at h

theorem withRx_cases {b : List Byte} {s t : State} {k : State → Answer} (h : withRx b s k = .next t) :
    b.length ≤ 1405 ∧ k { s with rxbuf := Memory.store [] 0 b, rxlen := BitVec.ofNat 16 b.length } = .next t := by
  by_cases hb : b.length ≤ 1405
  · rw [withRx_fits hb] at h; exact ⟨hb, h⟩
  · simp [withRx, memWrite, hb] at h

theorem withOut_cases {a : Nat} {b : List Byte} {s t : State} {k : State → Answer} (h : withOut a b s k = .next t) :
    a + b.length ≤ 14000 ∧ k { s with outbuf := Memory.store s.outbuf a b } = .next t := by
  by_cases hb : a + b.length ≤ 14000
  · rw [withOut_fits hb] at h; exact ⟨hb, h⟩
  · simp [withOut, memWrite, hb] at h

/-- A host read succeeds with the value read, and changes nothing but the port (70_reset_and_hazards.md R343). -/
theorem hostReadStep_cases {r : HostReg} {s t : State} (h : hostReadStep r s = .next t) :
    ∃ v, hostValue r s = some v ∧ t = { s with hostRead := none, hostData := some v } := by
  unfold hostReadStep at h
  split at h
  · cases h
  · split at h
    · rename_i v hv; cases h; exact ⟨v, hv, rfl⟩
    · cases h

/-- The memory after reset is in canonical form. -/
theorem reset_wf : Memory.wf State.reset.txbuf ∧ Memory.wf State.reset.rxbuf ∧ Memory.wf State.reset.outbuf :=
  ⟨List.Pairwise.nil, List.Pairwise.nil, List.Pairwise.nil⟩

/-- A buffer replaced whole is in canonical form and within a capacity that its contents fit. -/
theorem store_empty {b : List Byte} {cap : Nat} (h : b.length ≤ cap) :
    Memory.wf (Memory.store [] 0 b) ∧ ∀ c ∈ Memory.store [] 0 b, c.1 < cap :=
  ⟨store_wf List.Pairwise.nil 0 b,
    memWrite_within (m := []) (a := 0) (bs := b) (by intro c hc; cases hc) (memWrite_isSome (by omega))⟩

end Sys2Proof.Machine
end

