-- ==== Sys2Proof/Laws/Tracker.lean ====
section
/-! SUPPORT. The laws of the wraparound tracker: what a shifted descriptor covers, and that from every chunk the tracker goes on to the next
or has sent everything. -/

namespace Sys2Proof.Machine

open Sys2Proof

/-- The parts of a valid write descriptor (40_frame_codec.md R151). -/
theorem validDesc_parts {d : Descriptor} (h : validDesc d false = true) :
    d.d1s.toNat ≤ d.d1e.toNat ∧ d.d1e.toNat ≤ 2147483647 ∧
      (d.hasD2 = true → d.d2s.toNat ≤ d.d2e.toNat ∧ d.d2e.toNat ≤ 2147483647) ∧ numElements d ≤ 2147483647 := by
  simp only [validDesc, Bool.and_eq_true, Bool.or_eq_true, Bool.not_false, true_or, and_true,
    decide_eq_true_eq, Bool.not_eq_true'] at h
  obtain ⟨⟨⟨-, h1, h2⟩, h3⟩, h4⟩ := h
  refine ⟨h1, h2, ?_, h4⟩
  intro hd
  rcases h3 with h3 | h3
  · simp [hd] at h3
  · exact h3

@[simp] theorem shift_zero (d : Descriptor) : shift d 0 = d := by simp [shift]

/-- The elements of a descriptor whose second dimension does not span. -/
theorem numElements_flat {d : Descriptor} (h : validDesc d false = true) (hs : d2spans d = false) :
    numElements d = d.d1e.toNat - d.d1s.toNat + 1 := by
  obtain ⟨-, -, h3, -⟩ := validDesc_parts h
  unfold numElements
  cases hd : d.hasD2 with
  | false => simp
  | true =>
    have := h3 hd
    simp only [d2spans, hd, Bool.true_and, decide_eq_false_iff_not] at hs
    simp [show d.d2e.toNat - d.d2s.toNat = 0 by omega]

theorem shift_d1s {d : Descriptor} {base : Nat} (h : validDesc d false = true) (hb : base < numElements d)
    (hs : base = 0 ∨ d2spans d = false) : (shift d base).d1s.toNat = d.d1s.toNat + base := by
  rcases hs with rfl | hs
  · simp
  · obtain ⟨h1, h2, -, -⟩ := validDesc_parts h
    rw [numElements_flat h hs] at hb
    simp only [shift, BitVec.toNat_ofNat]
    exact Nat.mod_eq_of_lt (by omega)

/-- A segment's descriptor covers the elements from its base on (43_slice_wrap_tracker.md R282). -/
theorem numElements_shift {d : Descriptor} {base : Nat} (h : validDesc d false = true) (hb : base < numElements d)
    (hs : base = 0 ∨ d2spans d = false) : numElements (shift d base) = numElements d - base := by
  rcases hs with rfl | hs
  · simp
  · have h1 := shift_d1s h hb (Or.inr hs)
    obtain ⟨h2, -, h3, -⟩ := validDesc_parts h
    have hf := numElements_flat h hs
    have : numElements (shift d base) = d.d1e.toNat - (d.d1s.toNat + base) + 1 := by
      unfold numElements
      rw [h1]
      cases hd : d.hasD2 with
      | false => simp [shift, hd]
      | true =>
        have := h3 hd
        simp only [d2spans, hd, Bool.true_and, decide_eq_false_iff_not] at hs
        simp [shift, hd, show d.d2e.toNat - d.d2s.toNat = 0 by omega]
    omega

/-- A segment's descriptor is a valid write descriptor. -/
theorem validDesc_shift {d : Descriptor} {base : Nat} (h : validDesc d false = true) (hb : base < numElements d)
    (hs : base = 0 ∨ d2spans d = false) : validDesc (shift d base) false = true := by
  rcases hs with rfl | hs
  · simpa using h
  · have h1 := shift_d1s h hb (Or.inr hs)
    have h2 := numElements_shift h hb (Or.inr hs)
    have hf := numElements_flat h hs
    obtain ⟨p1, p2, p3, p4⟩ := validDesc_parts h
    simp only [validDesc, Bool.and_eq_true, Bool.or_eq_true, Bool.not_false, true_or, and_true, decide_eq_true_eq,
      Bool.not_eq_true'] at h ⊢
    obtain ⟨⟨⟨hn, -, -⟩, hd⟩, -⟩ := h
    refine ⟨⟨⟨hn, ?_, ?_⟩, hd⟩, ?_⟩
    · rw [h1]; show _ ≤ d.d1e.toNat; omega
    · exact p2
    · simp only [Config.maxElements] at *; omega

/-- `setChunk` is idempotent: the chunk registers are a function of the segment and the slice. -/
theorem setChunk_idem (t : WtCounts) : setChunk (setChunk t) = setChunk t := by
  unfold setChunk
  simp only
  split
  · rfl
  · split <;> rfl

@[simp] theorem setChunk_slice (t : WtCounts) : (setChunk t).slice = t.slice := by
  unfold setChunk; simp only; split <;> (try split) <;> rfl
@[simp] theorem setChunk_segBase (t : WtCounts) : (setChunk t).segBase = t.segBase := by
  unfold setChunk; simp only; split <;> (try split) <;> rfl
@[simp] theorem setChunk_segDesc (t : WtCounts) : (setChunk t).segDesc = t.segDesc := by
  unfold setChunk; simp only; split <;> (try split) <;> rfl
@[simp] theorem setChunk_m (t : WtCounts) : (setChunk t).m = t.m := by
  unfold setChunk; simp only; split <;> (try split) <;> rfl
@[simp] theorem setChunk_p (t : WtCounts) : (setChunk t).p = t.p := by
  unfold setChunk; simp only; split <;> (try split) <;> rfl
@[simp] theorem setChunk_sent (t : WtCounts) : (setChunk t).sent = t.sent := by
  unfold setChunk; simp only; split <;> (try split) <;> rfl
@[simp] theorem setChunk_total (t : WtCounts) : (setChunk t).total = t.total := by
  unfold setChunk; simp only; split <;> (try split) <;> rfl
@[simp] theorem setChunk_offset (t : WtCounts) : (setChunk t).offset = t.segBase + t.slice * t.m := by
  unfold setChunk; simp only; split <;> (try split) <;> rfl

/-- The chunk of a tracker at a chunk of the plan (43_slice_wrap_tracker.md R285, items 2 to 4, 6): at least one element, none beyond the
array, and `WT_REMSL = 0` exactly at the last one. -/
theorem tracking_chunk {d : Descriptor} {k : Kind} {t : WtCounts} (hv : validDesc d false = true) (h : Tracking d k t) :
    1 ≤ t.chunk ∧ t.offset + t.chunk ≤ numElements d ∧ (t.remsl = 0 ↔ t.offset + t.chunk = numElements d) ∧
      (t.m ≠ 0 → t.chunk ≤ t.m) := by
  obtain ⟨ht, hb, hs, hd, ⟨g, hg, hm, hp, hsl⟩, h9, hc, -, -⟩ := h
  have hn : numElements t.segDesc = numElements d - t.segBase := by rw [hd]; exact numElements_shift hv (ht ▸ hb) hs
  rw [← hc]
  rcases geom_ok hg with ⟨g1, g2, g3, -⟩ | ⟨g1, g2, g3, g4, -, g6, g7, -⟩
  · have hm0 : t.m = 0 := by simpa [g1] using hm
    have hsl0 : t.slice = 0 := by omega
    unfold setChunk
    simp only [hm0, if_true, hsl0]
    exact ⟨by omega, by omega, by rw [true_iff]; omega, by omega⟩
  · have hmg : t.m = g.m := by simpa [g1] using hm
    have hm0 : t.m ≠ 0 := by omega
    unfold setChunk
    simp only [hm0, if_false, hp]
    split
    · rename_i hlt
      have : (t.slice + 1) * t.m ≤ (g.p - 1) * t.m := Nat.mul_le_mul_right _ (by omega)
      rw [Nat.succ_mul, hmg] at this
      simp only [hmg]
      refine ⟨by omega, by omega, ?_, fun _ => Nat.le_refl _⟩
      omega
    · have hlast : t.slice = g.p - 1 := by omega
      have hpm : g.p * g.m = (g.p - 1) * g.m + g.m := by rw [← Nat.succ_mul]; congr 1; omega
      simp only [hlast, hmg]
      exact ⟨by omega, by omega, by rw [true_iff]; omega, by omega⟩

/-- A segment started at a base from which the plan check passes is tracked. -/
theorem startSegment_tracking {d : Descriptor} {k : Kind} {t : WtCounts} {base fuel : Nat} (ht : t.total = numElements d)
    (hb : base < numElements d) (hs : base = 0 ∨ d2spans d = false) (hc : planCheckFrom d k fuel base = .ok ())
    (hsent : t.sent = base) :
    ∃ t', startSegment d k base t = .ok t' ∧ Tracking d k t' ∧ t'.offset = base := by
  cases fuel with
  | zero => cases hc
  | succ fuel =>
    have hc' := hc
    unfold planCheckFrom at hc
    cases hg : geom (shift d base) k with
    | error e => simp [hg] at hc
    | ok g =>
      refine ⟨_, by rw [startSegment, hg], ?_, by simp⟩
      have hgp : 0 < g.p := by rcases geom_ok hg with ⟨-, -, h, -⟩ | ⟨-, -, -, h, -⟩ <;> omega
      refine ⟨by simpa using ht, by simpa [ht] using hb, by simpa using hs, by simp, ⟨g, ?_, by simp, by simp, ?_⟩, by simp,
        setChunk_idem _, by simp [hsent], fuel + 1, ?_⟩
      · simpa using hg
      · simpa using hgp
      · rw [setChunk_segBase]; exact hc'

/-- From a chunk that is not the last the tracker goes on to the next one (43_slice_wrap_tracker.md R283, R285). -/
theorem tracking_advance {d : Descriptor} {k : Kind} {t : WtCounts} (hv : validDesc d false = true) (h : Tracking d k t)
    (hr : t.remsl ≠ 0) :
    ∃ t', wtAdvance d k (countChunk t) = .ok t' ∧ Tracking d k t' ∧ t'.offset = t.offset + t.chunk := by
  have hchunk := tracking_chunk hv h
  obtain ⟨ht, hb, hs, hd, ⟨g, hg, hm, hp, hsl⟩, h9, hc, hsent, fuel, hfuel⟩ := h
  have hn : numElements t.segDesc = numElements d - t.segBase := by rw [hd]; exact numElements_shift hv (ht ▸ hb) hs
  have hoff : t.offset = t.segBase + t.slice * t.m := by rw [← hc]; simp
  have hoff' : (setChunk t).offset = t.segBase + t.slice * t.m := by simp
  -- a chunk that is not the last belongs to a multi-packet segment, and it is not the segment's last
  rcases geom_ok hg with ⟨g1, g2, g3, -⟩ | ⟨g1, g2, g3, g4, -, g6, g7, -⟩
  · exfalso
    have hm0 : t.m = 0 := by simpa [g1] using hm
    apply hr
    rw [← hc]
    unfold setChunk
    simp [hm0]
  have hmg : t.m = g.m := by simpa [g1] using hm
  have hm0 : t.m ≠ 0 := by omega
  have hlt : t.slice < g.p - 1 := by
    by_contra hge
    apply hr
    rw [← hc]
    unfold setChunk
    simp [hm0, hp, hge]
  have hchunkm : t.chunk = t.m := by
    rw [← hc]
    unfold setChunk
    simp [hm0, hp, hlt]
  by_cases h9' : t.slice < 9
  · refine ⟨setChunk { countChunk t with slice := t.slice + 1 }, by simp [wtAdvance, countChunk, h9', Config.sliceWrap], ?_, ?_⟩
    · refine ⟨by simpa [countChunk] using ht, by simpa [countChunk] using hb, by simpa [countChunk] using hs,
        by simpa [countChunk] using hd, ⟨g, by simpa [countChunk] using hg, by simpa [countChunk] using hm,
        by simpa [countChunk] using hp, by simp [countChunk]; omega⟩, by simp [countChunk]; omega, setChunk_idem _, ?_,
        fuel, by simpa [countChunk] using hfuel⟩
      simp only [setChunk_sent, setChunk_offset, countChunk, hsent, hoff, hchunkm, Nat.succ_mul]
      omega
    · simp only [setChunk_offset, countChunk, hoff, hchunkm, Nat.succ_mul]
      omega
  · have hs9 : t.slice = 9 := by omega
    have hp10 : 10 < g.p := by omega
    cases fuel with
    | zero => cases hfuel
    | succ fuel =>
      unfold planCheckFrom at hfuel
      rw [← hd, hg] at hfuel
      simp only [g1, Config.sliceWrap, Bool.false_eq_true, false_or, if_neg (by omega : ¬ g.p ≤ 10)] at hfuel
      split at hfuel
      · cases hfuel
      · rename_i hd2
        have hbase : t.segBase + 10 * g.m = t.offset + t.chunk := by rw [hoff, hchunkm, hs9, hmg]; omega
        have := startSegment_tracking (t := countChunk t) (k := k) (base := t.segBase + 10 * g.m) (fuel := fuel)
          (by simpa [countChunk] using ht) (by omega) (Or.inr (by simpa using hd2)) hfuel
          (by simp [countChunk, hsent, hbase])
        obtain ⟨t', h1, h2, h3⟩ := this
        refine ⟨t', ?_, h2, by rw [h3, hbase]⟩
        have : (countChunk t).sent = t.segBase + 10 * g.m := by simp [countChunk, hsent, hbase]
        simp only [wtAdvance]
        rw [if_neg (by simp [countChunk, Config.sliceWrap]; omega), this, h1]

/-- How the next chunk stands to the one before it: the next slice of the segment, or slice 0 of a segment that begins at what was sent. -/
theorem advance_cases {d : Descriptor} {k : Kind} {t t' : WtCounts} (h : wtAdvance d k (countChunk t) = .ok t') :
    t.slice < 9 ∧ t'.segBase = t.segBase ∧ t'.slice = t.slice + 1 ∨
      9 ≤ t.slice ∧ t'.slice = 0 ∧ t'.segBase = t.sent + t.chunk := by
  unfold wtAdvance at h
  split at h
  · rename_i hlt
    cases h
    exact Or.inl ⟨by simpa [countChunk, Config.sliceWrap] using hlt, by simp [countChunk], by simp [countChunk]⟩
  · rename_i hge
    unfold startSegment at h
    split at h
    · cases h
    · cases h
      exact Or.inr ⟨by simpa [countChunk, Config.sliceWrap] using hge, by simp, by simp [countChunk]⟩

/-- The registers hold a tracker at a chunk of the plan exactly: no number is cut (10_state.md R39; log 9). -/
theorem tracking_fits {d : Descriptor} {k : Kind} {t : WtCounts} (hv : validDesc d false = true) (h : Tracking d k t) :
    wtCounts (wtRegs t) = t := by
  obtain ⟨hc1, hc2, -, -⟩ := tracking_chunk hv h
  obtain ⟨-, -, -, hmax⟩ := validDesc_parts hv
  obtain ⟨ht, hb, hs, hd, ⟨g, hg, hm, hp, hsl⟩, h9, hset, hsent, -⟩ := h
  have hn : numElements t.segDesc = numElements d - t.segBase := by rw [hd]; exact numElements_shift hv (ht ▸ hb) hs
  have hgm : g.m ≤ numElements t.segDesc ∧ g.p ≤ numElements t.segDesc := by
    rcases geom_ok hg with ⟨-, g2, g3, -⟩ | ⟨-, g2, g3, -, -, g6, -⟩
    · exact ⟨by omega, by omega⟩
    · have := Nat.mul_le_mul_left (g.p - 1) g2
      exact ⟨by omega, by omega⟩
  have hm' : t.m ≤ g.m := by rw [hm]; split <;> omega
  have hr : t.remsl ≤ t.p := by
    rw [← hset]; unfold setChunk; simp only; split <;> (try split) <;> simp only <;> omega
  have e : wtCounts (wtRegs t) = { t with
      slice := t.slice % 16, chunk := t.chunk % 4294967296, offset := t.offset % 4294967296, remsl := t.remsl % 4294967296
      segBase := t.segBase % 4294967296, m := t.m % 4294967296, p := t.p % 4294967296, sent := t.sent % 4294967296
      total := t.total % 4294967296 } := rfl
  rw [e, Nat.mod_eq_of_lt, Nat.mod_eq_of_lt, Nat.mod_eq_of_lt, Nat.mod_eq_of_lt, Nat.mod_eq_of_lt, Nat.mod_eq_of_lt, Nat.mod_eq_of_lt,
    Nat.mod_eq_of_lt, Nat.mod_eq_of_lt] <;> omega

/-- The elements acknowledged after a tracked chunk fit too (10_state.md R39). -/
theorem tracking_count_fits {d : Descriptor} {k : Kind} {t : WtCounts} (hv : validDesc d false = true) (h : Tracking d k t) :
    wtCounts (wtRegs (countChunk t)) = countChunk t := by
  have hf := tracking_fits hv h
  obtain ⟨-, hc, -, -⟩ := tracking_chunk hv h
  obtain ⟨-, -, -, hmax⟩ := validDesc_parts hv
  obtain ⟨-, -, -, -, -, -, -, hsent, -⟩ := h
  have e : wtCounts (wtRegs (countChunk t)) = { wtCounts (wtRegs t) with sent := (t.sent + t.chunk) % 4294967296 } := rfl
  rw [e, hf, Nat.mod_eq_of_lt (by omega)]
  rfl

/-- The length of a tracked chunk's frame (43_slice_wrap_tracker.md R281, R285 item 5): it fits a packet, and the record holds it. -/
theorem chunkRecord_outBytes {d : Descriptor} {k : Kind} {t : WtCounts} (opS opL : Byte) (hv : validDesc d false = true)
    (h : Tracking d k t) :
    (chunkRecord k opS opL t).outBytes.toNat = 5 + asciiLen t.segDesc + (if t.m = 0 then 6 else 8) + t.chunk * esize k ∧
      (chunkRecord k opS opL t).outBytes.toNat ≤ 1405 := by
  have hch := tracking_chunk hv h
  obtain ⟨ht, hb, hs, hd, ⟨g, hg, hm, hp, hsl⟩, h9, hc, -, -⟩ := h
  have hn : numElements t.segDesc = numElements d - t.segBase := by rw [hd]; exact numElements_shift hv (ht ▸ hb) hs
  have hle : 5 + asciiLen t.segDesc + (if t.m = 0 then 6 else 8) + t.chunk * esize k ≤ 1405 := by
    rcases geom_ok hg with ⟨g1, g2, g3, gl⟩ | ⟨g1, g2, -, -, gl, -⟩
    · have hm0 : t.m = 0 := by simpa [g1] using hm
      have hchunk : t.chunk = numElements t.segDesc := by
        rw [← hc]; unfold setChunk; simp only [hm0, if_true]; omega
      rw [hm0, if_pos rfl, hchunk]
      omega
    · have hmg : t.m = g.m := by simpa [g1] using hm
      rw [if_neg (by omega)]
      have := Nat.mul_le_mul_right (esize k) (hch.2.2.2 (by omega))
      rw [hmg] at this
      omega
  have e : (chunkRecord k opS opL t).outBytes.toNat =
      (5 + asciiLen t.segDesc + (if t.m = 0 then 6 else 8) + t.chunk * esize k) % 65536 := rfl
  rw [e, Nat.mod_eq_of_lt (by omega)]
  exact ⟨rfl, hle⟩

/-- The record of a tracked chunk holds its numbers exactly (43_slice_wrap_tracker.md R280; log 9). -/
theorem chunkRecord_fits {d : Descriptor} {k : Kind} {t : WtCounts} (opS opL : Byte) (hv : validDesc d false = true)
    (h : Tracking d k t) :
    (chunkRecord k opS opL t).segBase.toNat = t.segBase ∧ (chunkRecord k opS opL t).slice.toNat = t.slice ∧
      (chunkRecord k opS opL t).offset.toNat = t.offset ∧ (chunkRecord k opS opL t).count.toNat = t.chunk ∧
      (chunkRecord k opS opL t).rem.toNat = t.remsl := by
  have hf := tracking_fits hv h
  exact ⟨congrArg WtCounts.segBase hf, congrArg WtCounts.slice hf, congrArg WtCounts.offset hf, congrArg WtCounts.chunk hf,
    congrArg WtCounts.remsl hf⟩

/-- From a chunk of the plan the loop of PLAN_WR ends with the rest of the plan (43_slice_wrap_tracker.md R281, R285). -/
theorem planLoop_planFrom {d : Descriptor} {k : Kind} {opS opL : Byte} (hv : validDesc d false = true) (fuel : Nat) {t : WtCounts}
    (h : Tracking d k t) (hf : numElements d - t.offset ≤ fuel) :
    ∃ t' rest, planLoop d k opS opL fuel t = .ok (t', chunkRecord k opS opL t :: rest) ∧
      PlanFrom (numElements d) t.offset (chunkRecord k opS opL t :: rest) ∧ t'.sent = numElements d ∧ rest.length < fuel := by
  induction fuel generalizing t with
  | zero =>
    have := tracking_chunk hv h
    omega
  | succ fuel ih =>
    have hch := tracking_chunk hv h
    have hout := (chunkRecord_outBytes opS opL hv h).2
    obtain ⟨f1, f2, f3, f4, f5⟩ := chunkRecord_fits opS opL hv h
    obtain ⟨-, -, -, -, -, h9, -, hsent, -⟩ := id h
    by_cases hr : t.remsl = 0
    · refine ⟨countChunk t, [], by simp [planLoop, hr],
        ⟨f3, by rw [f4]; exact hch.1, by rw [f2]; exact h9, hout, BitVec.eq_of_toNat_eq (by rw [f5, hr]; rfl), ?_⟩, ?_, by simp⟩
      · rw [f4]; exact hch.2.2.1.mp hr
      · simp only [countChunk, hsent]; exact hch.2.2.1.mp hr
    · obtain ⟨t1, ha, h1, ho⟩ := tracking_advance hv h hr
      obtain ⟨f1', f2', -, -, -⟩ := chunkRecord_fits opS opL hv h1
      obtain ⟨t', rest, hl, hp, hs, hlen⟩ := ih h1 (by omega)
      refine ⟨t', chunkRecord k opS opL t1 :: rest, by simp [planLoop, hr, ha, hl],
        ⟨f3, by rw [f4]; exact hch.1, by rw [f2]; exact h9, hout, fun hc => hr (by rw [← f5, hc]; rfl), ?_,
          by rw [ho] at hp; rw [f4]; exact hp⟩, hs, by simpa using hlen⟩
      rcases advance_cases ha with ⟨-, hb, hsl⟩ | ⟨hge, hsl, hb⟩
      · exact Or.inl ⟨BitVec.eq_of_toNat_eq (by rw [f1, f1', hb]), by rw [f2, f2', hsl]⟩
      · refine Or.inr ⟨BitVec.eq_of_toNat_eq ?_, BitVec.eq_of_toNat_eq (by rw [f2', hsl]; rfl), ?_⟩
        · rw [f2]; show t.slice = 9; omega
        · rw [f1', f4, hb, hsent]

/-- The record of a tracked chunk is a record of the plan, field by field (43_slice_wrap_tracker.md R281, R282, R285 item 4). -/
theorem chunkRecord_planRecord {d : Descriptor} {k : Kind} {t : WtCounts} (opS opL : Byte) (hv : validDesc d false = true)
    (h : Tracking d k t) : PlanRecord d k opS opL (chunkRecord k opS opL t) := by
  obtain ⟨f1, f2, f3, f4, f5⟩ := chunkRecord_fits opS opL hv h
  have hout := (chunkRecord_outBytes opS opL hv h).1
  have hle := (tracking_chunk hv h).2.2.2
  obtain ⟨ht, hb, hs, hd, ⟨g, hg, hm, hp, hsl⟩, -, hc, -, -⟩ := h
  have hn : numElements t.segDesc = numElements d - t.segBase := by rw [hd]; exact numElements_shift hv (ht ▸ hb) hs
  unfold PlanRecord
  rw [f1, f2, f3, f4, f5, hout]
  refine ⟨hd, g, hg, hp ▸ hsl, ?_⟩
  rcases geom_ok hg with ⟨g1, g2, g3, -⟩ | ⟨g1, g2, -⟩
  · have hm0 : t.m = 0 := by simpa [g1] using hm
    rw [← hc]; unfold setChunk chunkRecord
    simp [hm0, g1, g2, g3, hn, ht]
  · have hmg : t.m = g.m := by simpa [g1] using hm
    have hm0 : g.m ≠ 0 := by omega
    have hoff : t.offset = t.segBase + t.slice * g.m := by rw [← hc]; simp [hmg]
    have hrem : t.remsl = g.p - 1 - t.slice := by
      rw [← hc]; unfold setChunk
      simp only [hmg, hm0, if_false, hp]
      split <;> simp only <;> omega
    have hcnt : t.slice + 1 ≠ g.p → t.chunk = g.m := fun hne => by
      rw [← hc]; unfold setChunk
      simp only [hmg, hm0, if_false, hp, if_pos (show t.slice < g.p - 1 by omega)]
    exact ⟨hoff, hrem, by simp [chunkRecord, hmg, hm0, g1], by simp [chunkRecord, hmg, hm0, g1], fun hx => by simp [g1] at hx,
      fun _ => ⟨hmg ▸ hle (by omega), hcnt⟩⟩

/-- Every record the loop of PLAN_WR leaves is a record of the plan, field by field (43_slice_wrap_tracker.md R281). -/
theorem planLoop_records {d : Descriptor} {k : Kind} {opS opL : Byte} (hv : validDesc d false = true) (fuel : Nat) {t t' : WtCounts}
    {plan : List ChunkRecord} (h : Tracking d k t) (hl : planLoop d k opS opL fuel t = .ok (t', plan)) :
    ∀ r ∈ plan, PlanRecord d k opS opL r := by
  induction fuel generalizing t t' plan with
  | zero => cases hl
  | succ fuel ih =>
    have hr := chunkRecord_planRecord opS opL hv h
    by_cases h0 : t.remsl = 0
    · simp only [planLoop, h0, if_true] at hl
      cases hl
      intro r hm
      rw [List.mem_singleton.mp hm]; exact hr
    · obtain ⟨t1, ha, h1, -⟩ := tracking_advance hv h h0
      cases hn : planLoop d k opS opL fuel t1 with
      | error e => simp [planLoop, h0, ha, hn] at hl
      | ok x =>
        simp only [planLoop, h0, ha, hn, if_false] at hl
        cases hl
        intro r hm
        rcases List.mem_cons.mp hm with rfl | hm
        · exact hr
        · exact ih h1 hn r hm

/-- What `wtInit` answers (43_slice_wrap_tracker.md R282): the tracker at the first chunk, when the plan check passes. -/
theorem wtInit_tracking {d : Descriptor} {k : Kind} {t t' : WtCounts} (h : wtInit d k t = .ok t') :
    Tracking d k t' ∧ t'.offset = 0 ∧ t'.slice = 0 ∧ t'.segBase = 0 ∧ t'.total = numElements d ∧ planCheck d k = .ok () := by
  unfold wtInit at h
  split at h
  · cases h
  · rename_i u hc
    have hn := numElements_pos d
    obtain ⟨t1, h1, h2, h3⟩ := startSegment_tracking (d := d) (k := k) (t := { t with total := numElements d, sent := 0 })
      (base := 0) (fuel := numElements d) rfl (by omega) (Or.inl rfl) hc rfl
    have heq : t1 = t' := by rw [h1] at h; exact Except.ok.inj h
    subst heq
    unfold startSegment at h1
    split at h1
    · cases h1
    · cases h1
      exact ⟨h2, h3, by simp, by simp, by simp, hc⟩

/-- When the plan check passes, `wtInit` answers. -/
theorem wtInit_ok {d : Descriptor} {k : Kind} (t : WtCounts) (hc : planCheck d k = .ok ()) : ∃ t', wtInit d k t = .ok t' := by
  have hn := numElements_pos d
  obtain ⟨t1, h1, -, -⟩ := startSegment_tracking (d := d) (k := k) (t := { t with total := numElements d, sent := 0 })
    (base := 0) (fuel := numElements d) rfl (by omega) (Or.inl rfl) hc rfl
  exact ⟨t1, by simp [wtInit, hc, h1]⟩

/-- The plan check gives only `PROTOCOL_LIMIT` as an error. -/
theorem planCheckFrom_error {d : Descriptor} {k : Kind} {fuel base : Nat} {e : Status} (h : planCheckFrom d k fuel base = .error e) :
    e = .protocolLimit := by
  induction fuel generalizing base with
  | zero => cases h; rfl
  | succ fuel ih =>
    unfold planCheckFrom at h
    split at h
    · rename_i e' hg
      cases h
      unfold geom at hg
      split at hg
      · cases hg
      · split at hg
        · cases hg; rfl
        · cases hg
    · split at h
      · cases h
      · split at h
        · cases h; rfl
        · exact ih h

/-- The bound of the plan check is never used up (log 18): any bound of at least the elements left gives the same answer. -/
theorem planCheckFrom_stable {d : Descriptor} {k : Kind} (hv : validDesc d false = true) (f g : Nat) {base : Nat}
    (hb : base < numElements d) (hs : base = 0 ∨ d2spans d = false) (hf : numElements d - base ≤ f) (hg : numElements d - base ≤ g) :
    planCheckFrom d k f base = planCheckFrom d k g base := by
  induction f generalizing g base with
  | zero => omega
  | succ f ih =>
    obtain ⟨g, rfl⟩ : ∃ j, g = j + 1 := ⟨g - 1, by omega⟩
    unfold planCheckFrom
    cases hge : geom (shift d base) k with
    | error e => rfl
    | ok gg =>
      simp only
      split
      · rfl
      · rename_i hp
        split
        · rfl
        · rename_i hd2
          have hd2' : d2spans d = false := by simpa using hd2
          rcases geom_ok hge with ⟨g1, -⟩ | ⟨-, g2, -, g4, -, g6, -, -⟩
          · simp [g1] at hp
          · have hp' : ¬ gg.p ≤ 10 := fun hc => hp (Or.inr hc)
            rw [numElements_shift hv hb hs] at g6
            have hlt : 10 * gg.m ≤ (gg.p - 1) * gg.m := Nat.mul_le_mul_right _ (by omega)
            exact ih g (by simp only [Config.sliceWrap]; omega) (Or.inr hd2') (by simp only [Config.sliceWrap]; omega)
              (by simp only [Config.sliceWrap]; omega)

/-- The encoder on a tracked chunk's segment and slice answers, and its chunk is the tracker's (43_slice_wrap_tracker.md R282). -/
theorem encodeWrite_tracking {d : Descriptor} {k : Kind} {t : WtCounts} {data : List Elem} {opS opL : Byte}
    (hv : validDesc d false = true) (h : Tracking d k t) (hd : data.length = numElements d)
    (ho : writeOpcodes k = .ok (opS, opL)) :
    ∃ c, encodeWrite t.segDesc k ((data.drop t.segBase).take (t.total - t.segBase)) t.slice = .ok c ∧
      c.elems = t.chunk ∧ c.rem = t.remsl ∧ c.op = writeOp k (decide (t.m = 0)) ∧
      c.frame.length = (chunkRecord k opS opL t).outBytes.toNat ∧ byteAt c.frame 1 = (chunkRecord k opS opL t).opcode := by
  have hch := tracking_chunk hv h
  rw [(chunkRecord_outBytes opS opL hv h).1]
  obtain ⟨ht, hb, hs, hsd, ⟨g, hg, hm, hp, hsl⟩, h9, hc, -, -⟩ := h
  have hn : numElements t.segDesc = numElements d - t.segBase := by rw [hsd]; exact numElements_shift hv (ht ▸ hb) hs
  have hvs : validDesc t.segDesc false = true := by rw [hsd]; exact validDesc_shift hv (ht ▸ hb) hs
  have hlen : ((data.drop t.segBase).take (t.total - t.segBase)).length = numElements t.segDesc := by
    rw [List.length_take, List.length_drop, hd, ht, hn]; omega
  rw [encodeWrite_checked hvs hlen ho hg]
  rcases geom_ok hg with ⟨g1, g2, g3, gl⟩ | ⟨g1, g2, g3, g4, gl, g6, g7, -⟩
  · have hm0 : t.m = 0 := by simpa [g1] using hm
    have hsl0 : t.slice = 0 := by omega
    have hchunk : t.chunk = numElements t.segDesc := by
      rw [← hc]; unfold setChunk; simp only [hm0, if_true]; omega
    have hrem : t.remsl = 0 := by rw [← hc]; unfold setChunk; simp [hm0]
    refine ⟨_, by simp only [encodeChunk, g1, hsl0]; rfl, ?_, ?_, ?_, ?_, ?_⟩
    · exact hchunk.symm
    · exact hrem.symm
    · simp [hm0]
    · simp only [frame_length, singleBody_length, hlen, hm0, if_true, hchunk]; omega
    · simp [chunkRecord, hm0]
  · have hmg : t.m = g.m := by simpa [g1] using hm
    have hm0 : t.m ≠ 0 := by omega
    have he : chunkElems g (numElements t.segDesc) t.slice = t.chunk := by
      conv_rhs => rw [← hc]
      unfold setChunk chunkElems
      simp only [hm0, if_false, hp]
      split
      · exact hmg.symm
      · simp only [hn, ht, hmg]
    have hrem : t.remsl = g.p - t.slice - 1 := by
      conv_lhs => rw [← hc]
      unfold setChunk
      simp only [hm0, if_false, hp]
      split
      · rfl
      · show 0 = _; omega
    refine ⟨_, by simp only [encodeChunk, g1, Bool.false_eq_true, if_false, if_pos (And.intro h9 hsl)]; rfl, ?_, ?_, ?_, ?_, ?_⟩
    · exact he
    · exact hrem.symm
    · simp [hm0]
    · simp only [frame_length, chunkBody_length, chunkData_length hg g1 hsl hlen]
      simp only [hm0, if_false, he]; omega
    · simp [chunkRecord, hm0]

end Sys2Proof.Machine
end

