-- ==== Sys2Proof/Laws/Step.lean ====
section
/-! SUPPORT. What one step can do, said once: each theorem names every way an operation can answer a next state. -/

namespace Sys2Proof.Machine

open Sys2Proof

/-- A block step is a reset, a host read, or a step of the sequencer. -/
theorem step_cases {s t : State} (h : step s = .next t) :
    s.rst = true ∧ t = resetBlock s ∨
    (∃ r v, s.rst = false ∧ s.hostRead = some r ∧ hostValue r s = some v ∧ t = { s with hostRead := none, hostData := some v }) ∨
    Quiet s ∧ sequence s = .next t := by
  simp only [step, blockStep] at h
  split at h
  · rename_i hr; cases h; exact Or.inl ⟨hr, rfl⟩
  · rename_i hr
    have hr' : s.rst = false := by simpa using hr
    split at h
    · rename_i r hh
      obtain ⟨v, hv, rfl⟩ := hostReadStep_cases h
      exact Or.inr (Or.inl ⟨r, v, hr', hh, hv, rfl⟩)
    · rename_i hh; exact Or.inr (Or.inr ⟨⟨hr', hh⟩, h⟩)

/-- With the ports quiet, a step is a step of the sequencer. -/
theorem step_quiet {s : State} (h : Quiet s) : step s = sequence s := by
  simp [step, blockStep, h.1, h.2]

/-- In IDLE with a command offered that the port can carry, the sequencer runs it (41_slicer_continuation.md R202). -/
theorem sequence_idle {s : State} {o : Offer} {rest : List Offer} (h : s.phase = .idle) (ho : s.offered = o :: rest)
    (hw : o.wf = true) : sequence s = exec (decodeCommand o.cmdw) s := by
  simp [sequence, h, fetchCommand, ho, hw]

theorem sequence_exec {s : State} (h : s.phase = .exec) : sequence s = runWire s := by simp [sequence, h]

theorem sequence_waiting {s : State} (h1 : s.phase ≠ .idle) (h2 : s.phase ≠ .exec) : sequence s = settle (respond s) := by
  unfold sequence
  cases h : s.phase <;> first | rfl | exact absurd h h1 | exact absurd h h2

/-- A response taken in a waiting phase: what it does, and the next frame when it leaves EXEC. -/
theorem sequence_response {s : State} {r : Response} {rest : List Response} (h1 : s.phase ≠ .idle) (h2 : s.phase ≠ .exec)
    (hr : s.responses = r :: rest) : sequence s = settle (handle r { s with responses := rest }) := by
  rw [sequence_waiting h1 h2, respond, hr]

theorem sequence_cases {s t : State} (h : sequence s = .next t) :
    s.phase = .idle ∧ s.offered = [] ∧ t = s ∨
    (∃ o rest, s.phase = .idle ∧ s.offered = o :: rest ∧ o.wf = true ∧ exec (decodeCommand o.cmdw) s = .next t) ∨
    s.phase = .exec ∧ runWire s = .next t ∨
    s.phase ≠ .idle ∧ s.phase ≠ .exec ∧ s.responses = [] ∧ t = s ∨
    (∃ r rest u, s.phase ≠ .idle ∧ s.phase ≠ .exec ∧ s.responses = r :: rest ∧ handle r { s with responses := rest } = .next u ∧
      (u.phase ≠ .exec ∧ t = u ∨ u.phase = .exec ∧ runWire u = .next t)) := by
  by_cases h1 : s.phase = .idle
  · simp only [sequence, h1, fetchCommand] at h
    split at h
    · rename_i ho; cases h; exact Or.inl ⟨h1, ho, rfl⟩
    · rename_i o rest ho
      split at h
      · rename_i hw; exact Or.inr (Or.inl ⟨o, rest, h1, ho, hw, h⟩)
      · cases h
  · by_cases h2 : s.phase = .exec
    · rw [sequence_exec h2] at h; exact Or.inr (Or.inr (Or.inl ⟨h2, h⟩))
    · rw [sequence_waiting h1 h2, respond] at h
      refine Or.inr (Or.inr (Or.inr ?_))
      split at h
      · rename_i hr
        simp only [settle, h2, if_false] at h
        cases h
        exact Or.inl ⟨h1, h2, hr, rfl⟩
      · rename_i r rest hr
        cases hu : handle r { s with responses := rest } with
        | fault e => simp [hu, settle] at h
        | refused e => simp [hu, settle] at h
        | next u =>
          refine Or.inr ⟨r, rest, u, h1, h2, hr, hu, ?_⟩
          simp only [hu, settle] at h
          by_cases hp : u.phase = .exec
          · rw [if_pos hp] at h; exact Or.inr ⟨hp, h⟩
          · rw [if_neg hp] at h; cases h; exact Or.inl ⟨hp, rfl⟩

/-- The frame of a read goes out (41_slicer_continuation.md R204). -/
theorem sendRead_sent {c : ReadCmd} {s : State} (h : c.frame.length ≤ 1405) :
    sendRead c s = .next (sent c.frame (byteAt c.frame 1) .tCmd { s with rd := { s.rd with expected := BitVec.ofNat 16 c.expected } }) := by
  rw [sendRead, withTx_fits h]; rfl

/-- The frame of a write goes out (41_slicer_continuation.md R208). -/
theorem sendWrite_sent {c : WriteCmd} {s : State} (h : c.frame.length ≤ 1405) :
    sendWrite c s = .next (sent c.frame (byteAt c.frame 1) .tArray s) := by
  rw [sendWrite, withTx_fits h]; rfl

/-- The first read of a transfer that has read nothing, or the slice it goes on with. -/
theorem nextRead_ok {s : State} {c : ReadCmd} (h : nextRead s = .ok c) :
    validDesc s.latch.desc true = true ∧ c.expected = replySize (dataBytes s.latch.desc (latchKind s)) s.rd.slice.toNat ∧
      c.dataBytes = dataBytes s.latch.desc (latchKind s) ∧ c.frame.length ≤ 1405 ∧
      c.op.opcode = some (byteAt c.frame 1) ∧
      (s.rd.slice = 0 ∧ c.op = readOp (latchKind s) (isLong s.latch.desc (latchKind s)) ∧
        c.frame = frame (readOpcode (latchKind s) (isLong s.latch.desc (latchKind s))) (readBody (latchKind s) s.latch.desc) ∨
       (1 ≤ s.rd.slice.toNat ∧ s.rd.slice.toNat ≤ 9 ∧ s.rd.slice.toNat * 1400 < dataBytes s.latch.desc (latchKind s)) ∧
        c.op = sliceOp (latchKind s) ∧
        c.frame = frame (sliceOpcode (latchKind s)) (sliceBody s.rd.slice.toNat (latchKind s) s.latch.desc)) := by
  unfold nextRead at h
  split at h
  · rename_i h0
    obtain ⟨hv, ho, hf, he, hd⟩ := encodeRead_ok h
    exact ⟨hv, by rw [he, h0]; rfl, hd, encodeRead_length h, by rw [ho, hf, readOp_opcode, frame_opcode], Or.inl ⟨h0, ho, hf⟩⟩
  · obtain ⟨hv, hs, ho, hf, he, hd⟩ := encodeReadSlice_ok h
    exact ⟨hv, he, hd, encodeReadSlice_length h, by rw [ho, hf, sliceOp_opcode, frame_opcode], Or.inr ⟨hs, ho, hf⟩⟩

theorem exec_readOp (k : Kind) (l : Bool) (s : State) : exec (readOp k l) s = emitRead (readOp k l) s := by
  cases k <;> cases l <;> rfl

theorem exec_sliceOp (k : Kind) (s : State) : exec (sliceOp k) s = emitRead (sliceOp k) s := by cases k <;> rfl

theorem exec_writeOp (k : Kind) (b : Bool) (s : State) : exec (writeOp k b) s = emitWrite (writeOp k b) s := by
  cases k <;> cases b <;> rfl

/-- The wire opcode of a read frame, run in EXEC of XFER_RD, sends it. -/
theorem exec_readCmd {s : State} {c : ReadCmd} (hp : s.phase = .exec) (hl : latchOp s = 6) (h : nextRead s = .ok c) :
    exec c.op s =
      .next (sent c.frame (byteAt c.frame 1) .tCmd { s with rd := { s.rd with expected := BitVec.ofNat 16 c.expected } }) := by
  have hr := nextRead_ok h
  have he : ∀ i, c.op = i → emitRead i s = sendRead c s := fun i hi => by simp [emitRead, hp, hl, h, hi]
  rw [← sendRead_sent hr.2.2.2.1]
  rcases hr.2.2.2.2.2 with ⟨-, ho, -⟩ | ⟨-, ho, -⟩
  · rw [ho, exec_readOp, he _ ho]
  · rw [ho, exec_sliceOp, he _ ho]

/-- The wire opcode of a write frame, run in EXEC of XFER_WR, sends it. -/
theorem exec_writeCmd {s : State} {c : WriteCmd} (hp : s.phase = .exec) (hl : latchOp s = 7) (h : nextWrite s = .ok c) :
    exec c.op s = .next (sent c.frame (byteAt c.frame 1) .tArray s) := by
  have he : ∀ i, c.op = i → emitWrite i s = sendWrite c s := fun i hi => by simp [emitWrite, hp, hl, h, hi]
  rw [← sendWrite_sent (encodeWrite_length h)]
  obtain ⟨-, -, opS, opL, g, -, -, ⟨-, -, hc⟩ | ⟨-, -, -, hc⟩⟩ := encodeWrite_ok h
  · have ho : c.op = writeOp (latchKind s) true := by rw [hc]
    rw [ho, exec_writeOp, he _ ho]
  · have ho : c.op = writeOp (latchKind s) false := by rw [hc]
    rw [ho, exec_writeOp, he _ ho]

theorem runWire_read {s : State} {c : ReadCmd} (hp : s.phase = .exec) (hl : latchOp s = 6) (h : nextRead s = .ok c) :
    runWire s =
      .next (sent c.frame (byteAt c.frame 1) .tCmd { s with rd := { s.rd with expected := BitVec.ofNat 16 c.expected } }) := by
  rw [← exec_readCmd hp hl h]; simp [runWire, selectWire, hl, h]

theorem runWire_write {s : State} {c : WriteCmd} (hp : s.phase = .exec) (hl : latchOp s = 7) (h : nextWrite s = .ok c) :
    runWire s = .next (sent c.frame (byteAt c.frame 1) .tArray s) := by
  rw [← exec_writeCmd hp hl h]; simp [runWire, selectWire, hl, h]

/-- EXEC in a transfer: the next frame goes out, or its encoder's error is raised. -/
theorem runWire_cases {s t : State} (hp : s.phase = .exec) (h : runWire s = .next t) :
    (∃ c, latchOp s = 6 ∧ nextRead s = .ok c ∧
      t = sent c.frame (byteAt c.frame 1) .tCmd { s with rd := { s.rd with expected := BitVec.ofNat 16 c.expected } }) ∨
    (∃ c, latchOp s = 7 ∧ nextWrite s = .ok c ∧ t = sent c.frame (byteAt c.frame 1) .tArray s) ∨
    (∃ e, (latchOp s = 6 ∧ nextRead s = .error e ∨ latchOp s = 7 ∧ nextWrite s = .error e) ∧ t = raise e s) := by
  by_cases h6 : latchOp s = 6
  · cases hn : nextRead s with
    | ok c =>
      rw [runWire_read hp h6 hn] at h
      cases h
      exact Or.inl ⟨c, h6, rfl, rfl⟩
    | error e =>
      simp only [runWire, selectWire, h6, if_true, hn] at h
      cases h
      exact Or.inr (Or.inr ⟨e, Or.inl ⟨h6, rfl⟩, rfl⟩)
  · by_cases h7 : latchOp s = 7
    · cases hn : nextWrite s with
      | ok c =>
        rw [runWire_write hp h7 hn] at h
        cases h
        exact Or.inr (Or.inl ⟨c, h7, rfl, rfl⟩)
      | error e =>
        simp only [runWire, selectWire, h7, if_true, hn] at h
        cases h
        exact Or.inr (Or.inr ⟨e, Or.inr ⟨h7, rfl⟩, rfl⟩)
    · rw [runWire, selectWire, if_neg h6, if_neg h7] at h
      cases h

/-- The data reply of XFER_RD (41_slicer_continuation.md R204): the state after it was received. -/
def received (r : List Byte) (s : State) : State :=
  { s with phase := .exec, rxbuf := Memory.store [] 0 r, rxlen := BitVec.ofNat 16 r.length }

/-- The state after an accepted data reply's bytes were appended (41_slicer_continuation.md R204). -/
def appended (r : List Byte) (s : State) : State :=
  { received r s with
    rd := { s.rd with
      cont := contFlag r
      bytesRead := BitVec.ofNat 16 (s.rd.bytesRead.toNat + (s.rd.expected.toNat - 5))
      remain := BitVec.ofNat 16 (s.rd.remain.toNat - (s.rd.expected.toNat - 5)) }
    outbuf := Memory.store s.outbuf s.rd.bytesRead.toNat (bytesFrom r 4 (4 + (s.rd.expected.toNat - 5)))
    outlen := some (BitVec.ofNat 16 (s.rd.bytesRead.toNat + (s.rd.expected.toNat - 5))) }

/-- What a data reply does (41_slicer_continuation.md R204), in the order of 60_exceptions.md R307. -/
theorem onData_cases {r : List Byte} {st : XStatus} {s t : State} (h : onData r st s = .next t) :
    st ≠ .ok ∧ t = raise .transport s ∨
    st = .ok ∧ r.length ≤ 1405 ∧
      ((∃ code, classify .read r = .controllerError code ∧ t = finish .controller code (received r s)) ∨
       (classify .read r = .malformedError ∨ classify .read r = .noError ∧ replyWellFormed r s.rd.expected.toNat = false) ∧
        t = raise .malformed (received r s) ∨
       classify .read r = .noError ∧ replyWellFormed r s.rd.expected.toNat = true ∧
        s.rd.bytesRead.toNat + (bytesFrom r 4 (4 + (s.rd.expected.toNat - 5))).length ≤ 14000 ∧ t = continueRead (appended r s)) := by
  unfold onData at h
  split at h
  · rename_i hs; cases h; exact Or.inl ⟨hs, rfl⟩
  · rename_i hs
    obtain ⟨hl, h⟩ := withRx_cases h
    refine Or.inr ⟨by simpa using hs, hl, ?_⟩
    split at h
    · rename_i code hc; cases h; exact Or.inl ⟨code, hc, rfl⟩
    · rename_i hc; cases h; exact Or.inr (Or.inl ⟨Or.inl hc, rfl⟩)
    · rename_i hc
      split at h
      · rename_i hw
        unfold appendReply at h
        obtain ⟨hlo, h⟩ := withOut_cases h
        cases h
        exact Or.inr (Or.inr ⟨hc, hw, hlo, rfl⟩)
      · rename_i hw
        cases h
        exact Or.inr (Or.inl ⟨Or.inr ⟨hc, by simpa using hw⟩, rfl⟩)

/-- What an acknowledged chunk does in a run (41_slicer_continuation.md R208, 43_slice_wrap_tracker.md R283): after the last chunk the command
finishes, after another the tracker goes on, and its registers hold it exactly. -/
theorem chunkAcknowledged_cases {s : State} {k : Kind} (echo : Byte) (hk : latchKind s = k) (hv : validDesc s.latch.desc false = true)
    (h : Tracking s.latch.desc k (wtCounts s.wt)) :
    s.wt.remsl = 0 ∧ chunkAcknowledged echo s = finish .ok 0 (countAcknowledged (noteEcho echo s)) ∨
    s.wt.remsl ≠ 0 ∧ ∃ t', wtAdvance s.latch.desc k (countChunk (wtCounts s.wt)) = .ok t' ∧ Tracking s.latch.desc k t' ∧
      t'.offset = s.wt.offset.toNat + s.wt.chunk.toNat ∧ wtCounts (wtRegs t') = t' ∧
      chunkAcknowledged echo s = { countAcknowledged (noteEcho echo s) with wt := wtRegs t', phase := .exec } := by
  subst hk
  have hc := tracking_count_fits hv h
  have hr : (countAcknowledged (noteEcho echo s)).wt.remsl = s.wt.remsl := by
    rw [noteEcho_eq]
    show (wtRegs (countChunk (wtCounts s.wt))).remsl = s.wt.remsl
    exact BitVec.eq_of_toNat_eq (congrArg WtCounts.remsl hc)
  by_cases h0 : s.wt.remsl = 0
  · exact Or.inl ⟨h0, by simp only [chunkAcknowledged]; rw [if_pos (hr.trans h0)]⟩
  · obtain ⟨t', ha, ht, ho⟩ := tracking_advance hv h fun hz => h0 (BitVec.eq_of_toNat_eq hz)
    refine Or.inr ⟨h0, t', ha, ht, ho, tracking_fits hv ht, ?_⟩
    simp only [chunkAcknowledged]
    rw [if_neg fun hz => h0 (hr.symm.trans hz)]
    have hw : wtAdvance (countAcknowledged (noteEcho echo s)).latch.desc (latchKind (countAcknowledged (noteEcho echo s)))
        (wtCounts (countAcknowledged (noteEcho echo s)).wt) = .ok t' := by
      rw [noteEcho_eq]
      show wtAdvance s.latch.desc (latchKind s) (wtCounts (wtRegs (countChunk (wtCounts s.wt)))) = .ok t'
      rw [hc]; exact ha
    rw [hw]

/-- The tail of a non-acknowledged reply (41_slicer_continuation.md R210). -/
theorem onTail_cases {b : List Byte} {st : XStatus} {s t : State} (h : onTail b st s = .next t) :
    st = .error ∧ t = raise .transport { s with phase := .exec } ∨
    st ≠ .error ∧ (s.ackHead ++ b).length ≤ 1405 ∧ ∃ e code, t =
      finish e code (noteLegacy (isLegacy .nak (s.ackHead ++ b)) (received (s.ackHead ++ b) s)) ∧
      (classify .nak (s.ackHead ++ b) = .controllerError code ∧ e = .controller ∨
        (∀ c, classify .nak (s.ackHead ++ b) ≠ .controllerError c) ∧ e = .malformed ∧ code = 0) := by
  unfold onTail at h
  simp only at h
  split at h
  · rename_i hs; cases h; exact Or.inl ⟨hs, rfl⟩
  · rename_i hs
    obtain ⟨hl, h⟩ := withRx_cases h
    refine Or.inr ⟨hs, hl, ?_⟩
    split at h
    · rename_i code hc; cases h; exact ⟨_, _, rfl, Or.inl ⟨hc, rfl⟩⟩
    · rename_i hc; cases h; exact ⟨_, _, rfl, Or.inr ⟨by simp [hc], rfl, rfl⟩⟩
    · rename_i hc; cases h; exact ⟨_, _, rfl, Or.inr ⟨by simp [hc], rfl, rfl⟩⟩

/-- What the response to each phase's request does, and the shapes it can have (41_slicer_continuation.md R200). -/
theorem handle_cases {r : Response} {s t : State} (h : handle r s = .next t) :
    (∃ cfg st, s.phase = .wEosSave ∧ r = .eos cfg st ∧ st ≠ .timeout ∧ t = onEosSave cfg st s) ∨
    (∃ st, s.phase = .wEosClear ∧ r = .done st ∧ st ≠ .timeout ∧ t = onEosClear st s) ∨
    (∃ st, s.phase = .wFlush ∧ r = .done st ∧ st ≠ .timeout ∧ t = onFlush st s) ∨
    (∃ st, s.phase = .wTx ∧ r = .done st ∧ t = onWritten st s) ∨
    (∃ b st, s.phase = .wRxData ∧ r = .bytes b st ∧ handle.readShape s.rd.expected.toNat b st = true ∧ onData b st s = .next t) ∨
    (∃ b st, s.phase = .wRxAck ∧ r = .bytes b st ∧ handle.readShape 2 b st = true ∧ t = onAck b st s) ∨
    (∃ b st, s.phase = .wRxTail ∧ r = .bytes b st ∧ handle.readShape (1405 - s.ackHead.length) b st = true ∧
      onTail b st s = .next t) ∨
    (∃ st, s.phase = .wEosRestore ∧ r = .done st ∧ st ≠ .timeout ∧ t = finishRestored st s) := by
  unfold handle at h
  split at h
  · rename_i cfg st hp
    split at h
    · cases h
    · rename_i hs; cases h; exact Or.inl ⟨cfg, st, hp, rfl, hs, rfl⟩
  · rename_i st hp
    split at h
    · cases h
    · rename_i hs; cases h; exact Or.inr (Or.inl ⟨st, hp, rfl, hs, rfl⟩)
  · rename_i st hp
    split at h
    · cases h
    · rename_i hs; cases h; exact Or.inr (Or.inr (Or.inl ⟨st, hp, rfl, hs, rfl⟩))
  · rename_i st hp; cases h; exact Or.inr (Or.inr (Or.inr (Or.inl ⟨st, hp, rfl, rfl⟩)))
  · rename_i b st hp
    split at h
    · rename_i hs; exact Or.inr (Or.inr (Or.inr (Or.inr (Or.inl ⟨b, st, hp, rfl, hs, h⟩))))
    · cases h
  · rename_i b st hp
    split at h
    · rename_i hs; cases h; exact Or.inr (Or.inr (Or.inr (Or.inr (Or.inr (Or.inl ⟨b, st, hp, rfl, hs, rfl⟩)))))
    · cases h
  · rename_i b st hp
    split at h
    · rename_i hs; exact Or.inr (Or.inr (Or.inr (Or.inr (Or.inr (Or.inr (Or.inl ⟨b, st, hp, rfl, hs, h⟩))))))
    · cases h
  · rename_i st hp
    split at h
    · cases h
    · rename_i hs; cases h; exact Or.inr (Or.inr (Or.inr (Or.inr (Or.inr (Or.inr (Or.inr ⟨st, hp, rfl, hs, rfl⟩))))))
  · cases h

end Sys2Proof.Machine
end

