-- ==== Sys2Proof/Laws/Commands.lean ====
section
/-! SUPPORT. What a host command can do, said once. -/

namespace Sys2Proof.Machine

open Sys2Proof

/-- A command that uses no transport: held by the host, or completed with some status, having written its results, `DIAG_LEGACY`
and, for PLAN_WR, the tracker. -/
theorem pure_cases {i : Instr} {w : CmdWord} {s t : State} (hw : i.command = some w)
    (hx : (∀ f, i ≠ .xferRd f) ∧ ∀ f, i ≠ .xferWr f) (h : exec i s = .next t) :
    s.phase ≠ .idle ∧ t = s ∨
    s.phase = .idle ∧ ∃ e r l x, t = finish e 0 { accept w s with res := r, diagLegacy := l, wt := x } := by
  cases i with
  | encRd f =>
    cases hw
    simp only [exec, execEncRd] at h
    rcases hostCommand_cases h with h | ⟨hp, h⟩
    · exact Or.inl h
    · refine Or.inr ⟨hp, ?_⟩
      split at h <;> cases h <;> exact ⟨_, _, _, _, rfl⟩
  | encRdsl f =>
    cases hw
    simp only [exec, execEncRdsl] at h
    rcases hostCommand_cases h with h | ⟨hp, h⟩
    · exact Or.inl h
    · refine Or.inr ⟨hp, ?_⟩
      split at h <;> cases h <;> exact ⟨_, _, _, _, rfl⟩
  | encWr f =>
    cases hw
    simp only [exec, execEncWr] at h
    rcases hostCommand_cases h with h | ⟨hp, h⟩
    · exact Or.inl h
    · refine Or.inr ⟨hp, ?_⟩
      split at h <;> cases h <;> exact ⟨_, _, _, _, rfl⟩
  | decErr f =>
    cases hw
    simp only [exec, execDecErr] at h
    rcases hostCommand_cases h with h | ⟨hp, h⟩
    · exact Or.inl h
    · refine Or.inr ⟨hp, ?_⟩
      rw [noteLegacy_eq] at h
      cases h
      exact ⟨_, _, _, _, rfl⟩
  | planWr f =>
    cases hw
    simp only [exec, execPlanWr] at h
    rcases hostCommand_cases h with h | ⟨hp, h⟩
    · exact Or.inl h
    · refine Or.inr ⟨hp, ?_⟩
      split at h
      · cases h; exact ⟨_, _, _, _, rfl⟩
      · split at h
        · cases h; exact ⟨_, _, _, _, rfl⟩
        · split at h
          · cases h; exact ⟨_, _, _, _, rfl⟩
          · split at h <;> cases h <;> exact ⟨_, _, _, _, rfl⟩
  | illegal w' =>
    cases hw
    simp only [exec, execIllegal] at h
    rcases hostCommand_cases h with h | ⟨hp, h⟩
    · exact Or.inl h
    · cases h; exact Or.inr ⟨hp, _, _, _, _, rfl⟩
  | xferRd f => exact absurd rfl (hx.1 f)
  | xferWr f => exact absurd rfl (hx.2 f)
  | rdShortF64 => cases hw
  | rdLongF64 => cases hw
  | rdslF64 => cases hw
  | rdShortI32 => cases hw
  | rdLongI32 => cases hw
  | rdslI32 => cases hw
  | wrShortF64 => cases hw
  | wrLongF64 => cases hw
  | wrShortI32 => cases hw
  | wrLongI32 => cases hw

/-- XFER_RD up to its first request (41_slicer_continuation.md R204). -/
theorem execXferRd_cases {f : Fields} {s t : State} (h : execXferRd f s = .next t) :
    s.phase ≠ .idle ∧ t = s ∨
    s.phase = .idle ∧
      ((∃ e, t = raise e (accept (commandWord 6 f) s)) ∨
       ∃ c, encodeRead (portOperands s).desc f.kind = .ok c ∧ c.dataBytes ≤ 14000 ∧
        t = enterRaw { startRead c (accept (commandWord 6 f) s) with
          txbuf := Memory.store [] 0 c.frame, txlen := BitVec.ofNat 16 c.frame.length }) := by
  unfold execXferRd at h
  rcases hostCommand_cases h with h | ⟨hp, h⟩
  · exact Or.inl h
  · refine Or.inr ⟨hp, ?_⟩
    split at h
    · cases h; exact Or.inl ⟨_, rfl⟩
    · rename_i c hc
      split at h
      · cases h; exact Or.inl ⟨_, rfl⟩
      · rename_i hd
        obtain ⟨-, h⟩ := withTx_cases h
        cases h
        refine Or.inr ⟨c, hc, ?_, rfl⟩
        simp only [Config.readMaxSlice, Config.maxPacketData] at hd
        omega

/-- XFER_WR up to its first request (41_slicer_continuation.md R208). -/
theorem execXferWr_cases {f : Fields} {s t : State} (h : execXferWr f s = .next t) :
    s.phase ≠ .idle ∧ t = s ∨
    s.phase = .idle ∧
      ((∃ e, t = raise e (accept (commandWord 7 f) s)) ∨
       ∃ w x, validDesc (portOperands s).desc false = true ∧ (portOperands s).data.length = numElements (portOperands s).desc ∧
        writeOpcodes f.kind = .ok w ∧ wtInit (portOperands s).desc f.kind (wtCounts s.wt) = .ok x ∧
        t = enterRaw { accept (commandWord 7 f) s with wt := wtRegs x, res := { Results.none with elems := some 0 } }) := by
  unfold execXferWr at h
  rcases hostCommand_cases h with h | ⟨hp, h⟩
  · exact Or.inl h
  · refine Or.inr ⟨hp, ?_⟩
    dsimp only at h
    split at h
    · cases h; exact Or.inl ⟨_, rfl⟩
    · rename_i hv
      split at h
      · cases h; exact Or.inl ⟨_, rfl⟩
      · rename_i hl
        split at h
        · cases h; exact Or.inl ⟨_, rfl⟩
        · rename_i w hw
          split at h
          · cases h; exact Or.inl ⟨_, rfl⟩
          · rename_i x hx
            cases h
            exact Or.inr ⟨w, x, by simpa using hv, by simpa using hl, hw, hx, rfl⟩

/-- What a command word decodes to is a host command. -/
theorem decodeCommand_command (w : CmdWord) : ∃ w', (decodeCommand w).command = some w' := by
  unfold decodeCommand
  split
  · exact ⟨_, rfl⟩
  · split <;> exact ⟨_, rfl⟩

end Sys2Proof.Machine
end

