-- ==== Sys2Proof/Laws/PerInstr.lean ====
section
/-! SUPPORT. The per-instruction family `TableRow`: every well-formed instruction is encoded with the fixed bits of its row of
spec/opcode_table.json. -/

namespace Sys2Proof.Laws.TableRow

open Sys2Proof

/-- The bits of an instruction as the table numbers them: a command word, or an opcode byte in the low bits. -/
def bits : List Byte → CmdWord
  | [b] => b.setWidth 16
  | [b0, b1] => b1 ++ b0
  | _ => 0

/-- The bits of `i` under the row's mask are the row's match. -/
def Fits (i : Instr) (mask value : CmdWord) : Prop := bits (encode i) &&& mask = value

/-- The row of each instruction: its mask and its match. The row of `illegal` is `OP = 0`, or by its note a reserved bit set; the match of an
Int32 write is its OPEN parameter. -/
def Statement : Instr → Prop
  | .encRd f => Fits (.encRd f) 0x00E7 0x0001
  | .encRdsl f => Fits (.encRdsl f) 0x00E7 0x0002
  | .encWr f => Fits (.encWr f) 0x00E7 0x0003
  | .decErr f => Fits (.decErr f) 0x00E7 0x0004
  | .planWr f => Fits (.planWr f) 0x00E7 0x0005
  | .xferRd f => Fits (.xferRd f) 0x00E7 0x0006
  | .xferWr f => Fits (.xferWr f) 0x00E7 0x0007
  | .illegal w => (Instr.illegal w).wf = true → Fits (.illegal w) 0x0007 0x0000 ∨ ¬ Fits (.illegal w) 0x00E0 0x0000
  | .rdShortF64 => Fits .rdShortF64 0x00FF 0x00F0
  | .rdLongF64 => Fits .rdLongF64 0x00FF 0x0041
  | .rdslF64 => Fits .rdslF64 0x00FF 0x0042
  | .rdShortI32 => Fits .rdShortI32 0x00FF 0x00F1
  | .rdLongI32 => Fits .rdLongI32 0x00FF 0x0044
  | .rdslI32 => Fits .rdslI32 0x00FF 0x0045
  | .wrShortF64 => Fits .wrShortF64 0x00FF 0x00F2
  | .wrLongF64 => Fits .wrLongF64 0x00FF 0x0037
  | .wrShortI32 => ∀ b, Config.opcWrShortI32 = some b → Fits .wrShortI32 0x00FF (b.setWidth 16)
  | .wrLongI32 => ∀ b, Config.opcWrLongI32 = some b → Fits .wrLongI32 0x00FF (b.setWidth 16)

/-- The two bytes of a command word are its bits. -/
theorem bits_wordBytes (w : CmdWord) : bits (wordBytes w) = w := wordBytes_join w

/-- A command word has its `OP` in bits 2:0 and zeros in bits 7:5. -/
theorem commandWord_fixed (op : BitVec 3) (f : Fields) : commandWord op f &&& 0x00E7 = op.setWidth 16 := by
  ext i hi
  have h := commandWord_bit op f i
  rw [BitVec.getLsbD_eq_getElem hi] at h
  rw [BitVec.getElem_and, h]
  simp only [BitVec.getElem_setWidth]
  by_cases h8 : i < 8
  · interval_cases i <;> simp
  · rw [if_neg (by omega), if_neg (by omega), if_neg (by omega), if_neg (by omega),
      show op.getLsbD i = false from BitVec.getLsbD_of_ge op i (by omega)]
    interval_cases i <;> simp

/-- A byte in the low bits is what the mask of one byte leaves. -/
theorem byte_fixed (b : Byte) : (b.setWidth 16 : CmdWord) &&& 0x00FF = b.setWidth 16 := by
  ext i hi
  simp only [BitVec.getElem_and, BitVec.getElem_setWidth]
  by_cases h8 : i < 8
  · interval_cases i <;> simp
  · rw [BitVec.getLsbD_of_ge _ _ (by omega), Bool.false_and]

theorem encRd (f : Fields) : Statement (.encRd f) := (congrArg (· &&& _) (bits_wordBytes _)).trans (commandWord_fixed 1 f)

theorem encRdsl (f : Fields) : Statement (.encRdsl f) := (congrArg (· &&& _) (bits_wordBytes _)).trans (commandWord_fixed 2 f)

theorem encWr (f : Fields) : Statement (.encWr f) := (congrArg (· &&& _) (bits_wordBytes _)).trans (commandWord_fixed 3 f)

theorem decErr (f : Fields) : Statement (.decErr f) := (congrArg (· &&& _) (bits_wordBytes _)).trans (commandWord_fixed 4 f)

theorem planWr (f : Fields) : Statement (.planWr f) := (congrArg (· &&& _) (bits_wordBytes _)).trans (commandWord_fixed 5 f)

theorem xferRd (f : Fields) : Statement (.xferRd f) := (congrArg (· &&& _) (bits_wordBytes _)).trans (commandWord_fixed 6 f)

theorem xferWr (f : Fields) : Statement (.xferWr f) := (congrArg (· &&& _) (bits_wordBytes _)).trans (commandWord_fixed 7 f)

theorem illegal (w : CmdWord) : Statement (.illegal w) := by
  intro h
  have hb : bits (encode (.illegal w)) = w := bits_wordBytes w
  simp only [Fits, hb]
  by_contra hc
  push Not at hc
  obtain ⟨h1, h2⟩ := hc
  simp only [Instr.wf, illegalWord, Bool.or_eq_true, beq_iff_eq, bne_iff_ne] at h
  rcases h with h | h
  · apply h1
    ext i hi
    rw [BitVec.getElem_and]
    by_cases h3 : i < 3
    · have := congrArg (·.getLsbD i) h
      simp only [BitVec.getLsbD_extractLsb', h3, decide_true, Bool.true_and, Nat.zero_add, BitVec.getLsbD_zero] at this
      rw [← BitVec.getLsbD_eq_getElem hi, this]; simp
    · interval_cases i <;> simp
  · apply h
    ext i hi
    have := congrArg (·.getLsbD (5 + i)) h2
    simp only [BitVec.getLsbD_and] at this
    rw [BitVec.getElem_extractLsb']
    interval_cases i <;> simpa using this

theorem rdShortF64 : Statement .rdShortF64 := rfl

theorem rdLongF64 : Statement .rdLongF64 := rfl

theorem rdslF64 : Statement .rdslF64 := rfl

theorem rdShortI32 : Statement .rdShortI32 := rfl

theorem rdLongI32 : Statement .rdLongI32 := rfl

theorem rdslI32 : Statement .rdslI32 := rfl

theorem wrShortF64 : Statement .wrShortF64 := rfl

theorem wrLongF64 : Statement .wrLongF64 := rfl

theorem wrShortI32 : Statement .wrShortI32 := by
  intro b h
  simp only [Fits, encode, Instr.command, Instr.opcode, h, bits]
  exact byte_fixed b

theorem wrLongI32 : Statement .wrLongI32 := by
  intro b h
  simp only [Fits, encode, Instr.command, Instr.opcode, h, bits]
  exact byte_fixed b

end Sys2Proof.Laws.TableRow
end

