-- ==== Sys2Proof/Machine/Assembler.lean ====
section
/-! DEFINITION. The assembler syntax of 30_encoding.md R121: one line of ASCII text to a command word and its operand records (log 23). -/

namespace Sys2Proof.Machine

open Sys2Proof

/-- The text without the spaces at its front. -/
def skipSpaces (l : List Byte) : List Byte := l.dropWhile (· == 0x20)

/-- The text without the spaces at its ends. -/
def trimSpaces (l : List Byte) : List Byte := (skipSpaces (skipSpaces l).reverse).reverse

/-- The text before the first `c` and the text after it; `none` where there is no `c`. -/
def cutAt (c : Byte) : List Byte → Option (List Byte × List Byte)
  | [] => none
  | x :: xs => if x = c then some ([], xs) else (cutAt c xs).map fun p => (x :: p.1, p.2)

/-- The pieces of a text between the `c`s. -/
def splitAll (c : Byte) : List Byte → List (List Byte)
  | [] => [[]]
  | x :: xs =>
    match splitAll c xs with
    | [] => [[x]]
    | p :: ps => if x = c then [] :: p :: ps else (x :: p) :: ps

/-- A decimal number: one or more digits. -/
def decimal (l : List Byte) : Option Nat :=
  if l ≠ [] ∧ l.all isDigit then some (l.foldl (fun n c => 10 * n + dval c) 0) else none

/-- A hex digit. -/
def hexDigit (c : Byte) : Option Nat :=
  let n := c.toNat
  if 0x30 ≤ n ∧ n ≤ 0x39 then some (n - 0x30)
  else if 0x41 ≤ n ∧ n ≤ 0x46 then some (n - 0x37)
  else if 0x61 ≤ n ∧ n ≤ 0x66 then some (n - 0x57)
  else none

/-- The hex digits `l` after the value `n`. -/
def hexFrom : Nat → List Byte → Option Nat
  | n, [] => some n
  | n, c :: cs => (hexDigit c).bind fun d => hexFrom (16 * n + d) cs

/-- A hex number, with or without `0x` before it. -/
def hexNumber : List Byte → Option Nat
  | [] => none
  | 0x30 :: 0x78 :: c :: cs => hexFrom 0 (c :: cs)
  | c :: cs => hexFrom 0 (c :: cs)

/-- `(start,end)` at the front of a text, and the text after it. -/
def takeRange : List Byte → Option (Nat × Nat × List Byte)
  | 0x28 :: l =>
    (cutAt 0x2C l).bind fun a => (cutAt 0x29 a.2).bind fun b =>
      (decimal a.1).bind fun s => (decimal b.1).bind fun e => some (s, e, b.2)
  | _ => none

/-- A descriptor at the front of a text, written exactly as `ascii(d)`, and the text after it. -/
def takeDescriptor (l : List Byte) : Option (Descriptor × List Byte) :=
  let name := l.takeWhile (· ≠ 0x28)
  (takeRange (l.drop name.length)).bind fun r1 =>
    let d1 : Descriptor :=
      { name := name, d1s := BitVec.ofNat 32 r1.1, d1e := BitVec.ofNat 32 r1.2.1, hasD2 := false, d2s := 0, d2e := 0 }
    let read : Descriptor × List Byte :=
      match takeRange r1.2.2 with
      | some r2 => ({ d1 with hasD2 := true, d2s := BitVec.ofNat 32 r2.1, d2e := BitVec.ofNat 32 r2.2.1 }, r2.2.2)
      | none => (d1, r1.2.2)
    if ascii read.1 ++ read.2 = l then some read else none

/-- A comma and the spaces around it at the front of a text, and the text after them. -/
def takeComma (l : List Byte) : Option (List Byte) :=
  match skipSpaces l with
  | 0x2C :: r => some (skipSpaces r)
  | _ => none

/-- The slice: a decimal number of one byte. -/
def sliceNumber (l : List Byte) : Option (BitVec 8) :=
  (decimal (trimSpaces l)).bind fun n => if n < 256 then some (BitVec.ofNat 8 n) else none

/-- The numbers of a bracketed list, each below `bound`, with `sep` between them. R121 gives neither the spacing nor an empty list: that any number
of spaces is taken inside the brackets at both ends and around a comma (with spaces as the separator, exactly one between two numbers), and that a
list of no numbers is taken, is the model's choice (log 23, DESIGN CHOICE). -/
def hexList (opening closing sep : Byte) (bound : Nat) (l : List Byte) : Option (List Nat) :=
  match trimSpaces l with
  | [] => none
  | c :: rest =>
    if c = opening ∧ rest.getLast? = some closing then
      let inner := trimSpaces rest.dropLast
      if inner = [] then some []
      else
        ((splitAll sep inner).map trimSpaces).mapM fun t =>
          (hexNumber t).bind fun n => if n < bound then some n else none
    else none

/-- The element words in braces. -/
def elementList (k : Kind) (l : List Byte) : Option (List Elem) :=
  (hexList 0x7B 0x7D 0x2C (256 ^ esize k) l).map (List.map (BitVec.ofNat 64))

/-- The bytes in square brackets. -/
def byteList (l : List Byte) : Option (List Byte) :=
  (hexList 0x5B 0x5D 0x20 256 l).map (List.map (BitVec.ofNat 8))

/-- The mnemonics of R101 and their `OP`. -/
def mnemonics : List (List Byte × BitVec 3) :=
  [([0x45, 0x4E, 0x43, 0x5F, 0x52, 0x44], 1), ([0x45, 0x4E, 0x43, 0x5F, 0x52, 0x44, 0x53, 0x4C], 2),
    ([0x45, 0x4E, 0x43, 0x5F, 0x57, 0x52], 3), ([0x44, 0x45, 0x43, 0x5F, 0x45, 0x52, 0x52], 4),
    ([0x50, 0x4C, 0x41, 0x4E, 0x5F, 0x57, 0x52], 5), ([0x58, 0x46, 0x45, 0x52, 0x5F, 0x52, 0x44], 6),
    ([0x58, 0x46, 0x45, 0x52, 0x5F, 0x57, 0x52], 7)]

/-- The suffixes `.F64` (and none) and `.I32`, of every command but DEC_ERR. -/
def kindSuffix (l : List Byte) : Option Kind :=
  if l = [] ∨ l = [0x2E, 0x46, 0x36, 0x34] then some .float64
  else if l = [0x2E, 0x49, 0x33, 0x32] then some .int32
  else none

/-- The suffixes `.RD` and `.NAK` of DEC_ERR. -/
def pathSuffix (l : List Byte) : Option Path :=
  if l = [0x2E, 0x52, 0x44] then some .read
  else if l = [0x2E, 0x4E, 0x41, 0x4B] then some .nak
  else none

/-- A command whose only operand is a descriptor. -/
def assembleDesc (op : BitVec 3) (k : Kind) (l : List Byte) : Option Offer :=
  (takeDescriptor l).bind fun d =>
    if skipSpaces d.2 = [] then
      some { cmdw := commandWord op { kind := k, path := .read, slice := 0 }, desc := d.1, data := [], buf := [] }
    else none

/-- The operands of each command (R101, column "uses") after its mnemonic and suffix. R121 brackets each of them and gives no default:
that a line which leaves out one its command uses (the slice of ENC_RDSL and ENC_WR, the braces of ENC_WR and XFER_WR, the bytes of DEC_ERR, a
descriptor) is refused, is the model's choice (log 23). The spec does not say what the records hold that a command does not use: that they are the
empty descriptor, no data and an empty buffer, is the model's choice too (log 23, DESIGN CHOICE). -/
def assembleOperands (op : BitVec 3) (suffix l : List Byte) : Option Offer :=
  match op.toNat with
  | 2 =>
    (kindSuffix suffix).bind fun k => (takeDescriptor l).bind fun d => (takeComma d.2).bind fun r =>
      (sliceNumber r).bind fun n =>
        some { cmdw := commandWord op { kind := k, path := .read, slice := n }, desc := d.1, data := [], buf := [] }
  | 3 =>
    (kindSuffix suffix).bind fun k => (takeDescriptor l).bind fun d => (takeComma d.2).bind fun r =>
      (cutAt 0x2C r).bind fun p => (sliceNumber p.1).bind fun n => (elementList k p.2).bind fun ws =>
        some { cmdw := commandWord op { kind := k, path := .read, slice := n }, desc := d.1, data := ws, buf := [] }
  | 4 =>
    (pathSuffix suffix).bind fun p => (byteList l).bind fun bs =>
      some { cmdw := commandWord op { kind := .float64, path := p, slice := 0 }, desc := Descriptor.empty, data := [], buf := bs }
  | 7 =>
    (kindSuffix suffix).bind fun k => (takeDescriptor l).bind fun d => (takeComma d.2).bind fun r =>
      (elementList k r).bind fun ws =>
        some { cmdw := commandWord op { kind := k, path := .read, slice := 0 }, desc := d.1, data := ws, buf := [] }
  | _ => (kindSuffix suffix).bind fun k => assembleDesc op k l

/-- One line to a command as the host offers it (R121); `none` where the line is not of that syntax. -/
def assemble (line : List Byte) : Option Offer :=
  let head := line.takeWhile (· ≠ 0x20)
  let name := head.takeWhile (· ≠ 0x2E)
  match mnemonics.find? (fun m => m.1 = name) with
  | some m => assembleOperands m.2 (head.drop name.length) (skipSpaces (line.drop head.length))
  | none => none

end Sys2Proof.Machine
end

