-- ==== Sys2Proof/Tests/Slice0.lean ====
section
/-! SUPPORT. The model's own tests. Expected values are those of 95_test_vectors.md (the vector is named) or of the rule named; the
last part shows, for every statement with hypotheses, a state and operands that meet them. -/

namespace Sys2Proof.Tests

open Sys2Proof Sys2Proof.Machine

/-! ## Helpers -/

/-- The next state of an answer. -/
def next : Answer → Option State
  | .next s => some s
  | .fault _ => none
  | .refused _ => none

/-- What `k` says of the next state of an answer. -/
def after {α : Type} (a : Answer) (k : State → α) : Option α := (next a).map k

/-- The state after reset with a command at the host port. -/
def withOffer (w : CmdWord) (d : Descriptor) (data : List Elem) (buf : List Byte) : State :=
  { State.reset with offered := [{ cmdw := w, desc := d, data := data, buf := buf }] }

/-- A one-dimensional descriptor. -/
def desc1 (name : List Byte) (s e : Nat) : Descriptor :=
  { name := name, d1s := BitVec.ofNat 32 s, d1e := BitVec.ofNat 32 e, hasD2 := false, d2s := 0, d2e := 0 }

/-- A two-dimensional descriptor `M(0,e1)(0,e2)`. -/
def desc2 (e1 e2 : Nat) : Descriptor :=
  { name := [0x4D], d1s := 0, d1e := BitVec.ofNat 32 e1, hasD2 := true, d2s := 0, d2e := BitVec.ofNat 32 e2 }

/-- `V(0,e)`. -/
def descV (e : Nat) : Descriptor := desc1 [0x56] 0 e

/-- `W(0,e)`. -/
def descW (e : Nat) : Descriptor := desc1 [0x57] 0 e

/-- The fields of a Float64 command, and of an Int32 one. -/
def f64 (slice : BitVec 8) : Fields := { kind := .float64, path := .read, slice := slice }
def i32 (slice : BitVec 8) : Fields := { kind := .int32, path := .read, slice := slice }

/-- Element word i is i (95_test_vectors.md section 5). -/
def ramp (n : Nat) : List Elem := (List.range n).map (BitVec.ofNat 64)

/-! ## What an instruction and an offered command must satisfy -/

/-- 30_encoding.md R102: `illegal` with a legal word is no instruction. -/
theorem test_wf_illegal_word : (Instr.illegal 0x0001).wf = false ∧ (Instr.illegal 0x0021).wf = true := by decide

/-- 30_encoding.md R104: a buffer of 1406 bytes, and an Int32 word above 32 bits, cannot be offered. -/
theorem test_wf_offer :
    Offer.wf { cmdw := 0x0014, desc := Descriptor.empty, data := [], buf := List.replicate 1406 0 } = false ∧
    Offer.wf { cmdw := 0x000B, desc := descV 0, data := [0x100000000], buf := [] } = false ∧
    Offer.wf { cmdw := 0x0003, desc := descV 0, data := [0x100000000], buf := [] } = true := by decide +kernel

/-- 40_frame_codec.md R160: Int32 write opcodes must differ from the named ones and from each other. -/
theorem test_wf_int32_opcodes :
    int32OpcodesDistinct 0xF0 0x38 = false ∧ int32OpcodesDistinct 0x38 0x38 = false ∧ int32OpcodesDistinct 0x38 0x39 = true := by decide

/-! ## Decoding: words written out from 30_encoding.md R100 and R117 -/

/-- A1: ENC_RD.F64 is OP = 1 and nothing else; ENC_RD.I32 sets bit 3. -/
theorem test_decode_encRd : decode [0x01, 0x00] = .ok (.encRd (f64 0)) ∧ decode [0x09, 0x00] = .ok (.encRd (i32 0)) := by decide

/-- A1: 0x010A is ENC_RDSL.I32 with SLICE = 1. -/
theorem test_decode_encRdsl : decode [0x0A, 0x01] = .ok (.encRdsl (i32 1)) := by decide

/-- A1: 0x0903 is ENC_WR.F64 with SLICE = 9. -/
theorem test_decode_encWr : decode [0x03, 0x09] = .ok (.encWr (f64 9)) := by decide

/-- A1: 0x0014 is DEC_ERR.NAK: bit 4 is PATH. -/
theorem test_decode_decErr : decode [0x14, 0x00] = .ok (.decErr { kind := .float64, path := .nak, slice := 0 }) := by decide

/-- A1: 0x0005, 0x000E and 0x0007. -/
theorem test_decode_transfers : decode [0x05, 0x00] = .ok (.planWr (f64 0)) ∧ decode [0x0E, 0x00] = .ok (.xferRd (i32 0)) ∧
    decode [0x07, 0x00] = .ok (.xferWr (f64 0)) := by decide

/-- A2: 0x0000, 0x0026 and 0x00E1 are illegal; 0xFF01 is not. -/
theorem test_decode_illegal : decode [0x00, 0x00] = .ok (.illegal 0x0000) ∧ decode [0x26, 0x00] = .ok (.illegal 0x0026) ∧
    decode [0xE1, 0x00] = .ok (.illegal 0x00E1) ∧ decode [0x01, 0xFF] = .ok (.encRd (f64 0xFF)) := by decide

/-- R117: the eight named wire opcodes. -/
theorem test_decode_opcodes :
    [0xF0, 0x41, 0x42, 0xF1, 0x44, 0x45, 0xF2, 0x37].map decodeOpcode =
      [.ok .rdShortF64, .ok .rdLongF64, .ok .rdslF64, .ok .rdShortI32, .ok .rdLongI32, .ok .rdslI32, .ok .wrShortF64,
        .ok .wrLongF64] := by decide

/-- R117: a configured Int32 write opcode that is no named one is read as that write. -/
theorem test_decode_int32_writes (a b : Byte) (ha : Config.opcWrShortI32 = some a) (hb : Config.opcWrLongI32 = some b)
    (h : int32OpcodesDistinct a b = true) : decode [a] = .ok .wrShortI32 ∧ decode [b] = .ok .wrLongI32 := by
  simp only [int32OpcodesDistinct, namedOpcodes, List.contains_cons, List.contains_nil, Bool.and_eq_true, Bool.not_eq_true',
    Bool.or_eq_false_iff, beq_eq_false_iff_ne, bne_iff_ne] at h
  obtain ⟨⟨⟨a1, a2, a3, a4, a5, a6, a7, a8, -⟩, ⟨b1, b2, b3, b4, b5, b6, b7, b8, -⟩⟩, hab⟩ := h
  constructor
  · rw [decode, decodeOpcode, if_neg a1, if_neg a2, if_neg a3, if_neg a4, if_neg a5, if_neg a6, if_neg a7, if_neg a8, if_pos ha.symm]
  · rw [decode, decodeOpcode, if_neg b1, if_neg b2, if_neg b3, if_neg b4, if_neg b5, if_neg b6, if_neg b7, if_neg b8, if_neg, if_pos hb.symm]
    rw [ha]
    exact fun h => hab (Option.some.inj h).symm

/-- E1: the first frame of a stream, its body and what follows it (30_encoding.md R120). -/
theorem test_decode_frame :
    decodeFrame [0xD3, 0xF0, 0x04, 0x00, 0x25, 0x3F, 0x3F, 0x08, 0xD6, 0x77] =
      .ok (.rdShortF64, [0x25, 0x3F, 0x3F, 0x08], [0x77]) := by decide

/-- Bytes that are no instruction are refused by name. -/
theorem test_decode_refuses : decode [] = .error (.length 0) ∧ decodeFrame [0xE3, 0xF0, 0x00, 0x00, 0xD6] = .error .startMarker ∧
    decodeFrame [0xD3, 0xF0, 0x00, 0x00, 0xE6] = .error .endMarker ∧ decodeFrame [0xD3, 0xF0, 0x01, 0x00, 0xD6] = .error .truncated := by
  decide

/-- A1: `ENC_RDSL.F64 V(0,199), 1` assembles to 0x0102 and the descriptor (30_encoding.md R121). -/
theorem test_assemble_encRdsl :
    assemble [0x45, 0x4E, 0x43, 0x5F, 0x52, 0x44, 0x53, 0x4C, 0x2E, 0x46, 0x36, 0x34, 0x20, 0x56, 0x28, 0x30, 0x2C, 0x31, 0x39, 0x39,
      0x29, 0x2C, 0x20, 0x31] = some { cmdw := 0x0102, desc := descV 199, data := [], buf := [] } := by decide

/-- A1: `DEC_ERR.NAK [15]` assembles to 0x0014 and its buffer. -/
theorem test_assemble_decErr :
    assemble [0x44, 0x45, 0x43, 0x5F, 0x45, 0x52, 0x52, 0x2E, 0x4E, 0x41, 0x4B, 0x20, 0x5B, 0x31, 0x35, 0x5D] =
      some { cmdw := 0x0014, desc := Descriptor.empty, data := [], buf := [0x15] } := by decide

/-! ## The commands: one step each -/

/-- E4: the smallest Float64 read above 1400 bytes. -/
theorem test_encRd_long :
    after (step (withOffer 0x0001 (descV 175) [] [])) (fun t => (statusw t, t.res.frame, t.res.expected, t.res.dataBytes)) =
      some (0x00000008, some [0xD3, 0x41, 0x0C, 0x00, 0x25, 0x3F, 0x3F, 0x08, 0x56, 0x28, 0x30, 0x2C, 0x31, 0x37, 0x35, 0x29, 0xD6],
        some 1405, some 1408) := by decide

/-- E14: `V(5,4)` is ARGUMENT, and no result register has a value. -/
theorem test_encRd_argument :
    after (step (withOffer 0x0001 (desc1 [0x56] 5 4) [] [])) (fun t => (statusw t, t.res)) = some (0x0000000D, Results.none) := by decide

/-- S5: the last 4 bytes of 1404 are slice 1. -/
theorem test_encRdsl_last :
    after (step (withOffer 0x010A (descV 350) [] [])) (fun t => (t.res.frame, t.res.expected)) =
      some (some [0xD3, 0x45, 0x0E, 0x00, 0x25, 0x31, 0x25, 0x3F, 0x3F, 0x04, 0x56, 0x28, 0x30, 0x2C, 0x33, 0x35, 0x30, 0x29, 0xD6],
        some 9) := by decide

/-- S7: slice 2 of 1600 bytes is past the end. -/
theorem test_encRdsl_past_end : after (step (withOffer 0x0202 (descV 199) [] [])) statusw = some 0x0000000C := by decide

/-- WV1: two words, low byte first. -/
theorem test_encWr_single :
    after (step (withOffer 0x0003 (desc1 [0x58] 0 1) [0x3FF0000000000000, 0xC004000000000000] []))
      (fun t => (t.res.frame, t.res.outBytes, t.res.elems)) =
      some (some [0xD3, 0xF2, 0x1C, 0x00, 0x25, 0x3E, 0x3E, 0x08, 0x58, 0x28, 0x30, 0x2C, 0x31, 0x29, 0x2F, 0x25, 0x00, 0x00, 0x00,
        0x00, 0x00, 0x00, 0xF0, 0x3F, 0x00, 0x00, 0x00, 0x00, 0x00, 0x00, 0x04, 0xC0, 0xD6], some 33, some 2) := by decide

/-- WV4, slice 1: the last element alone, with the long opcode. -/
theorem test_encWr_last_chunk :
    after (step (withOffer 0x0103 (descW 173) (ramp 174) [])) (fun t => (t.res.frame, t.res.remsl)) =
      some (some [0xD3, 0x37, 0x18, 0x00, 0x25, 0x31, 0x25, 0x3E, 0x3E, 0x08, 0x57, 0x28, 0x30, 0x2C, 0x31, 0x37, 0x33, 0x29, 0x2F,
        0x25, 0xAD, 0x00, 0x00, 0x00, 0x00, 0x00, 0x00, 0x00, 0xD6], some 0) := by decide +kernel

/-- K9: eleven bytes are the legacy shape, whatever they hold. -/
theorem test_decErr_legacy :
    after (step (withOffer 0x0014 Descriptor.empty [] [0xE3, 0x37, 0x36, 0x3F, 0x31, 0x30, 0x36, 0x34, 0x0D, 0xE6, 0x00]))
      (fun t => (statusw t, t.res.cls, t.res.code)) = some (0x00000048, some 2, some 0) := by decide

/-- K14: the inline error in a data reply. -/
theorem test_decErr_inline :
    after (step (withOffer 0x0004 Descriptor.empty [] [0xE3, 0x42, 0x08, 0x00, 0x3F, 0x33, 0x30, 0x35, 0x31, 0x0D, 0x00, 0x00, 0xE6]))
      (fun t => (statusw t, t.res.cls, t.res.code)) = some (0x00000008, some 1, some 3051) := by decide

/-- T4: 11 packets, and the one after the wrap: seg_base, seg_desc, slice, offset, count, opcode, rem, out_bytes. -/
theorem test_planWr_wrap :
    after (step (withOffer 0x0005 (desc1 [0x41, 0x52, 0x52] 0 1729) [] []))
      (fun t => t.res.plan.map fun p => (p.length, p.getLast?)) =
      some (some (11, some ⟨1720, desc1 [0x41, 0x52, 0x52] 1720 1729, 0, 1720, 10, 0xF2, 0, 105⟩)) := by decide

/-- T7: a two-dimensional write that would wrap is refused. -/
theorem test_planWr_two_dimensions :
    after (step (withOffer 0x0005 (desc2 99 29) [] [])) (fun t => (statusw t, t.res.plan)) = some (0x0000000C, none) := by decide

/-- XR1: more than 14000 bytes: refused with no request. -/
theorem test_xferRd_too_large :
    after (step (withOffer 0x0006 (desc1 [0x42, 0x49, 0x47] 0 1750) [] [])) (fun t => (statusw t, t.issued, t.outlen)) =
      some (0x0000000C, [], none) := by decide

/-- P1: the first request is EosSave, BUSY is 1, and RD_EXPECTED is 69. -/
theorem test_xferRd_starts :
    after (step (withOffer 0x0006 (desc1 [0x41, 0x50, 0x4F, 0x53] 0 7) [] []))
      (fun t => (statusw t, t.issued, t.phase, t.rd.expected, t.rd.remain)) =
      some (0x00000010, [.eosSave], .wEosSave, 69, 64) := by decide

/-- 40_frame_codec.md R157: one word for two elements is ARGUMENT. -/
theorem test_xferWr_argument :
    after (step (withOffer 0x0007 (desc1 [0x58] 0 1) [0] [])) (fun t => (statusw t, t.issued)) = some (0x0000000D, []) := by decide

/-- P3: what `wtInit` sets for X(0,1): WT_SLICE, WT_CHUNK, WT_OFFSET, WT_REMSL, WT_SEGBASE, WT_SEGDESC, WT_M, WT_P, WT_SENT, WT_TOTAL. -/
theorem test_xferWr_starts :
    after (step (withOffer 0x0007 (desc1 [0x58] 0 1) [0x3FF0000000000000, 0xC004000000000000] []))
      (fun t => (t.wt, t.issued, t.res.elems)) =
      some (⟨0, 2, 0, 0, 0, desc1 [0x58] 0 1, 0, 1, 0, 2⟩, [.eosSave], some 0) := by decide

/-- A2: 0x0026 completes with ARGUMENT and issues nothing. -/
theorem test_illegal : after (step (withOffer 0x0026 (descV 0) [] [])) (fun t => (statusw t, t.issued)) = some (0x0000000D, []) := by
  decide

/-! ## The wire opcodes: the frame each sends -/

/-- E8, E4, S1 as XFER_RD sends them. -/
theorem test_rdShortF64 :
    after (step (inRead .float64 0 0 State.reset)) (fun t => (t.issued, t.lastOpc, t.rd.expected, t.phase)) =
      some ([.write [0xD3, 0xF0, 0x0A, 0x00, 0x25, 0x3F, 0x3F, 0x08, 0x56, 0x28, 0x30, 0x2C, 0x30, 0x29, 0xD6] .tCmd], 0xF0, 13, .wTx) := by
  decide

theorem test_rdLongF64 :
    after (step (inRead .float64 175 0 State.reset)) (fun t => (t.issued, t.rd.expected)) =
      some ([.write [0xD3, 0x41, 0x0C, 0x00, 0x25, 0x3F, 0x3F, 0x08, 0x56, 0x28, 0x30, 0x2C, 0x31, 0x37, 0x35, 0x29, 0xD6] .tCmd], 1405) := by
  decide

theorem test_rdslF64 :
    after (step (inRead .float64 199 1 State.reset)) (fun t => (t.issued, t.rd.expected)) =
      some ([.write [0xD3, 0x42, 0x0E, 0x00, 0x25, 0x31, 0x25, 0x3F, 0x3F, 0x08, 0x56, 0x28, 0x30, 0x2C, 0x31, 0x39, 0x39, 0x29, 0xD6] .tCmd],
        205) := by decide

/-- E7, E6, S5 as XFER_RD sends them. -/
theorem test_rdShortI32 :
    after (step (inRead .int32 0 0 State.reset)) (fun t => (t.issued, t.rd.expected)) =
      some ([.write [0xD3, 0xF1, 0x0A, 0x00, 0x25, 0x3F, 0x3F, 0x04, 0x56, 0x28, 0x30, 0x2C, 0x30, 0x29, 0xD6] .tCmd], 9) := by decide

theorem test_rdLongI32 :
    after (step (inRead .int32 350 0 State.reset)) (fun t => (t.issued, t.rd.expected)) =
      some ([.write [0xD3, 0x44, 0x0C, 0x00, 0x25, 0x3F, 0x3F, 0x04, 0x56, 0x28, 0x30, 0x2C, 0x33, 0x35, 0x30, 0x29, 0xD6] .tCmd], 1405) := by
  decide

theorem test_rdslI32 :
    after (step (inRead .int32 350 1 State.reset)) (fun t => (t.issued, t.rd.expected)) =
      some ([.write [0xD3, 0x45, 0x0E, 0x00, 0x25, 0x31, 0x25, 0x3F, 0x3F, 0x04, 0x56, 0x28, 0x30, 0x2C, 0x33, 0x35, 0x30, 0x29, 0xD6] .tCmd],
        9) := by decide

/-- R114: one Float64 zero. -/
theorem test_wrShortF64 :
    after (step (inWrite .float64 0 0 State.reset)) (fun t => (t.issued, t.lastOpc)) =
      some ([.write [0xD3, 0xF2, 0x14, 0x00, 0x25, 0x3E, 0x3E, 0x08, 0x56, 0x28, 0x30, 0x2C, 0x30, 0x29, 0x2F, 0x25, 0, 0, 0, 0, 0, 0, 0, 0,
        0xD6] .tArray], 0xF2) := by decide

/-- WV4, slice 0: 1405 bytes with the long opcode. -/
theorem test_wrLongF64 :
    after (step (inWrite .float64 173 0 State.reset)) (fun t => (t.txlen, t.lastOpc, Memory.loadBytes t.txbuf 0 6)) =
      some (1405, 0x37, some [0xD3, 0x37, 0x78, 0x05, 0x25, 0x30]) := by decide +kernel

/-! ## Witnesses: a state and operands that meet the hypotheses of each statement -/

/-- An XFER_RD.F64 of `V(0,last)` that waits for its first data reply. -/
def midRead (last : Nat) (responses : List Response) : State :=
  { inRead .float64 last 0 State.reset with
    phase := .wRxData
    rd :=
      { slice := 0, dataBytes := BitVec.ofNat 16 (dataBytes (descV last) .float64), bytesRead := 0
        remain := BitVec.ofNat 16 (dataBytes (descV last) .float64)
        expected := BitVec.ofNat 16 (replySize (dataBytes (descV last) .float64) 0), cont := false }
    outlen := some 0
    issued := [.eosSave, .eosClear, .flush, .write (frame 0x41 [0x25]) .tCmd, .read (replySize (dataBytes (descV last) .float64) 0) .tArray]
    responses := responses }

/-- The tracker at the one chunk of `V(0,0)`, and at the first of the two chunks of `V(0,173)`. -/
def trackOne : WtCounts :=
  { slice := 0, chunk := 1, offset := 0, remsl := 0, segBase := 0, segDesc := descV 0, m := 0, p := 1, sent := 0, total := 1 }
def trackTwo : WtCounts :=
  { slice := 0, chunk := 173, offset := 0, remsl := 1, segBase := 0, segDesc := descV 173, m := 173, p := 2, sent := 0, total := 174 }

/-- An XFER_WR.F64 of `V(0,last)` in phase `p`. -/
def midWrite (last : Nat) (t : WtCounts) (p : Phase) (head : List Byte) (responses : List Response) : State :=
  { inWrite .float64 last 0 State.reset with
    phase := p, wt := wtRegs t
    res := { Results.none with elems := some 0 }
    ackHead := head, responses := responses }

theorem no_cells {n : Nat} : ∀ c ∈ ([] : Memory), c.1 < n := fun _ h => nomatch h

theorem no_frames {s : State} (h : s.issued = []) : FrameInv s := by intro b t hm; rw [h] at hm; cases hm

theorem frame_inv_midRead (last : Nat) (r : List Response) : FrameInv (midRead last r) := by
  intro b t h
  simp only [midRead, List.mem_cons, List.not_mem_nil, or_false, Request.write.injEq, reduceCtorEq, false_or] at h
  exact ⟨.rdLongF64, 0x41, [0x25], rfl, h.1, by decide⟩

theorem runInv_midRead (last : Nat) (r : List Response) (hv : validDesc (descV last) true = true)
    (hd : dataBytes (descV last) .float64 ≤ 14000) : RunInv (midRead last r) := by
  refine ⟨?_, ?_, frame_inv_midRead last r, fun _ => Or.inl rfl, ?_, ?_⟩
  · simp [ControlInv, midRead, inRead, quiet, State.reset, heldPhase]
  · exact ⟨List.Pairwise.nil, List.Pairwise.nil, List.Pairwise.nil, no_cells, no_cells, no_cells⟩
  · intro _ _
    have hp : 0 < dataBytes (descV last) .float64 := Nat.mul_pos (numElements_pos _) (esize_pos _)
    have hk : latchKind (midRead last r) = .float64 := cmdKind_commandWord 6 _
    have he : dataBytes (midRead last r).latch.desc (latchKind (midRead last r)) = dataBytes (descV last) .float64 := by rw [hk]; rfl
    have hm : dataBytes (descV last) .float64 % 65536 = dataBytes (descV last) .float64 := Nat.mod_eq_of_lt (by omega)
    have hr : replySize (dataBytes (descV last) .float64) 0 ≤ 1405 := by
      unfold replySize; simp only [Config.maxPacketData, Config.maxPacketSize]; split <;> omega
    simp only [he]
    refine ⟨hv, hd, hm, (Nat.zero_add _).trans hm, rfl, rfl, Nat.zero_le _, ?_⟩
    show 0 = 0 * 1400 ∧ 0 < dataBytes (descV last) .float64 ∧
      replySize (dataBytes (descV last) .float64) 0 % 65536 = replySize (dataBytes (descV last) .float64) 0 ∧ 5 = 5 + 2 * 0
    exact ⟨rfl, hp, Nat.mod_eq_of_lt (by omega), rfl⟩
  · intro _ h; exact absurd (show latchOp (midRead last r) = 6 from rfl) (by rw [h]; decide)

theorem tracking_one : Tracking (descV 0) .float64 trackOne :=
  ⟨by decide, by decide, Or.inl rfl, by decide, ⟨{ single := true, m := 0, p := 1 }, by decide, by decide, by decide, by decide⟩,
    by decide, by decide, by decide, ⟨1, by decide⟩⟩

theorem tracking_two : Tracking (descV 173) .float64 trackTwo :=
  ⟨by decide, by decide, Or.inl rfl, by decide, ⟨{ single := false, m := 173, p := 2 }, by decide, by decide, by decide, by decide⟩,
    by decide, by decide, by decide, ⟨1, by decide⟩⟩

theorem runInv_midWrite {last : Nat} {t : WtCounts} {p : Phase} {head : List Byte} (r : List Response)
    (hp : (p = .exec ∨ p = .wFlush) ∨ p = .wRxAck ∨ p = .wRxTail ∧ 1 ≤ head.length ∧ head.length ≤ 2)
    (hv : validDesc (descV last) false = true) (hn : numElements (descV last) = last + 1) (ht : Tracking (descV last) .float64 t)
    (hs : t.sent = 0) : RunInv (midWrite last t p head r) := by
  refine ⟨?_, ?_, no_frames rfl, fun _ => Or.inr rfl, ?_, ?_⟩
  · rcases hp with (rfl | rfl) | rfl | ⟨rfl, -⟩ <;> simp [ControlInv, midWrite, inWrite, quiet, State.reset, heldPhase]
  · exact ⟨List.Pairwise.nil, List.Pairwise.nil, List.Pairwise.nil, no_cells, no_cells, no_cells⟩
  · intro _ h; exact absurd (show latchOp (midWrite last t p head r) = 7 from rfl) (by rw [h]; decide)
  · intro _ _
    have hk : latchKind (midWrite last t p head r) = .float64 := cmdKind_commandWord 7 _
    rw [hk]
    refine ⟨?_, ?_, ?_, fun _ => ⟨hv, ?_, ⟨_, rfl⟩, by rw [show wtCounts (midWrite last t p head r).wt = t from tracking_fits hv ht]; exact ht⟩⟩
    · rcases hp with (rfl | rfl) | rfl | ⟨rfl, -⟩ <;> exact fun h => nomatch h
    · intro h; rcases hp with (rfl | rfl) | rfl | ⟨rfl, h1⟩
      · cases h
      · cases h
      · cases h
      · exact h1
    · show some (0 : BitVec 32) = some (BitVec.ofNat 32 t.sent); rw [hs]; rfl
    · show (List.replicate (last + 1) (0 : Elem)).length = numElements (descV last); rw [List.length_replicate, hn]

/-- The states used most. -/
theorem runInv_read_one (r : List Response) : RunInv (midRead 0 r) := runInv_midRead 0 r (by decide) (by decide)
theorem runInv_read_two (r : List Response) : RunInv (midRead 199 r) := runInv_midRead 199 r (by decide) (by decide)
theorem runInv_ack_one (r : List Response) : RunInv (midWrite 0 trackOne .wRxAck [] r) :=
  runInv_midWrite r (Or.inr (Or.inl rfl)) (by decide) (by decide) tracking_one rfl
theorem runInv_ack_two (r : List Response) : RunInv (midWrite 173 trackTwo .wRxAck [] r) :=
  runInv_midWrite r (Or.inr (Or.inl rfl)) (by decide) (by decide) tracking_two rfl
theorem runInv_tail (r : List Response) : RunInv (midWrite 0 trackOne .wRxTail [0x15] r) :=
  runInv_midWrite r (Or.inr (Or.inr ⟨rfl, by decide⟩)) (by decide) (by decide) tracking_one rfl
theorem ready_reset : Ready State.reset := ⟨rfl, rfl⟩
theorem quiet_reset : Quiet State.reset := ⟨rfl, rfl⟩
theorem latchOp_midRead (last : Nat) (r : List Response) : latchOp (midRead last r) = 6 := cmdOp_commandWord 6 _
theorem latchOp_midWrite (last : Nat) (t : WtCounts) (p : Phase) (h : List Byte) (r : List Response) :
    latchOp (midWrite last t p h r) = 7 := cmdOp_commandWord 7 _

/-- ResetDropsTheCommand: RST asserted inside a read. -/
theorem witness_ResetDropsTheCommand : { midRead 0 [] with rst := true }.rst = true := rfl

/-- 70_reset_and_hazards.md R340: the response to the request before reset is discarded, and the next one answers the next command. -/
theorem test_reset_discards :
    after (step { midRead 0 [.bytes [] .timeout, .eos 0 .ok] with rst := true }) (fun t => (t.phase, t.responses)) =
      some (.idle, [.eos 0 .ok]) := by decide

/-- HostReads: a read of STATUSW, one before completion, one of a register with no value, one with a value. -/
theorem witness_HostReads :
    let s (r : HostReg) (d : Bool) (l : Option (BitVec 16)) : State := { State.reset with hostRead := some r, done := d, outlen := l }
    ((s .statusw false none).rst = false ∧ (s .statusw false none).hostRead = some .statusw) ∧
    ((s .outlen false (some 0)).hostRead = some .outlen ∧ (s .outlen false (some 0)).done = false) ∧
    ((s .resFrame true none).done = true ∧ hostValue .resFrame (s .resFrame true none) = none) ∧
    (s .outlen true (some 14000)).done = true ∧ hostValue .outlen (s .outlen true (some 14000)) = some (.word 14000) := by decide

/-- ControlKept, BuffersKept, RunKept: a read of one element meets the invariants and takes a step. -/
theorem witness_RunKept : RunInv (midRead 0 [.bytes [] .timeout]) ∧ ControlInv (midRead 0 [.bytes [] .timeout]) ∧
    BufferInv (midRead 0 [.bytes [] .timeout]) ∧ (next (step (midRead 0 [.bytes [] .timeout]))).isSome = true :=
  ⟨runInv_read_one _, (runInv_read_one _).1, (runInv_read_one _).2.1, by decide⟩

/-- OneRequestOutstanding: the request outstanding is the read of the reply. -/
theorem witness_OneRequestOutstanding : PendingInv (midRead 0 [.bytes [] .timeout]) ∧
    (next (step (midRead 0 [.bytes [] .timeout]))).isSome = true :=
  ⟨Or.inr (Or.inr ⟨.read 13 .tArray, by decide, rfl⟩), by decide⟩

/-- NoFaultFromInside: a response of the wrong shape. -/
theorem witness_NoFaultFromInside : RunInv (midRead 0 [.done .ok]) ∧ step (midRead 0 [.done .ok]) = .fault .transportShape :=
  ⟨runInv_read_one _, rfl⟩

/-- The run from `s` ends idle with nothing offered after `n` steps, and on the way each wait finds a response to its request. -/
def answersFor : Nat → State → Bool
  | 0, s => decide (s.phase = .idle ∧ s.offered = [] ∧ s.rst = false ∧ s.hostRead = none)
  | n + 1, s =>
    (!waiting s.phase || match s.issued.getLast?, s.responses with
      | some q, r :: _ => answers q r
      | _, _ => false) &&
    match step s with
    | .next t => answersFor n t
    | .fault _ => false
    | .refused _ => false

/-- What `answersFor` checks is the liveness premise. -/
theorem answersFor_sound {n : Nat} {s : State} (h : answersFor n s = true) : TransportAnswers s := by
  induction n generalizing s with
  | zero =>
    simp only [answersFor, decide_eq_true_eq] at h
    have hs : step s = .next s := by
      rw [step_quiet ⟨h.2.2.1, h.2.2.2⟩]; simp [Sys2Proof.Machine.sequence, h.1, fetchCommand, h.2.1]
    intro k t q hk hw
    have : ∀ k, Host.Core.run Sys2Proof.core k s = .next s := by
      intro k
      induction k with
      | zero => rfl
      | succ k ih => simpa only [Host.Core.run, show Sys2Proof.core.step s = .next s from hs] using ih
    rw [this k] at hk
    cases hk
    rw [h.1] at hw
    cases hw
  | succ n ih =>
    simp only [answersFor, Bool.and_eq_true, Bool.or_eq_true, Bool.not_eq_true'] at h
    obtain ⟨h1, h2⟩ := h
    intro k t q hk hw hq
    cases k with
    | zero =>
      cases hk
      rcases h1 with h1 | h1
      · rw [h1] at hw; cases hw
      · rw [hq] at h1
        cases hr : s.responses with
        | nil => simp [hr] at h1
        | cons r rest => exact ⟨r, rest, rfl, by simpa [hr] using h1⟩
    | succ k =>
      cases hs : step s with
      | fault e => simp [hs] at h2
      | refused e => simp [hs] at h2
      | next u =>
        simp only [hs] at h2
        simp only [Host.Core.run, show Sys2Proof.core.step s = .next u from hs] at hk
        exact ih h2 k t q hk hw hq

/-- EveryCommandCompletes: a read of one Float64 element with a transport that answers each of its six requests. -/
theorem witness_EveryCommandCompletes :
    let s := { withOffer 0x0006 (descV 0) [] [] with
      responses := [.eos 0 .ok, .done .ok, .done .ok, .done .ok, .bytes [0xE3, 0xF0, 8, 0, 1, 2, 3, 4, 5, 6, 7, 8, 0xE6] .ok, .done .ok] }
    RunInv s ∧ Ready s ∧ Quiet s ∧ s.offered = [⟨0x0006, descV 0, [], []⟩] ∧ Offer.wf ⟨0x0006, descV 0, [], []⟩ = true ∧
      TransportAnswers s :=
  ⟨⟨by simp [ControlInv, withOffer, State.reset, heldPhase],
      ⟨List.Pairwise.nil, List.Pairwise.nil, List.Pairwise.nil, no_cells, no_cells, no_cells⟩, no_frames rfl,
      fun h => absurd rfl h, fun h => absurd rfl h, fun h => absurd rfl h⟩,
    ⟨rfl, rfl⟩, ⟨rfl, rfl⟩, rfl, by decide, answersFor_sound (n := 7) (by decide +kernel)⟩

/-- Waits: IDLE with nothing offered, and a transport that has not answered. -/
theorem witness_Waits : (Quiet State.reset ∧ State.reset.phase = .idle ∧ State.reset.offered = []) ∧
    (Quiet (midRead 0 []) ∧ (midRead 0 []).phase = .wRxData ∧ (midRead 0 []).responses = []) :=
  ⟨⟨quiet_reset, rfl, rfl⟩, ⟨rfl, rfl⟩, rfl, rfl⟩

/-- DecodeEncode: instructions of each shape are well formed. -/
theorem witness_DecodeEncode : (Instr.encRdsl (i32 0xFF)).wf = true ∧ (Instr.illegal 0xFFFF).wf = true ∧ (Instr.illegal 0).wf = true ∧
    Instr.wrLongF64.wf = true := by decide

/-- RequestFrameDecodes: the longest body. -/
theorem witness_RequestFrameDecodes :
    decodeOpcode 0x37 = .ok .wrLongF64 ∧ (List.replicate 1400 (0xD6 : Byte)).length ≤ 1400 :=
  ⟨by decide, Nat.le_of_eq List.length_replicate⟩

/-- DescriptorTextNames: two records that differ only in fields their text does not use. -/
theorem witness_DescriptorTextNames :
    validDesc (descV 7) false = true ∧ validDesc { descV 7 with d2s := 3 } false = true ∧ ascii (descV 7) = ascii { descV 7 with d2s := 3 } := by
  decide

/-- StepRunsCommand: a command at the port after reset. -/
theorem witness_StepRunsCommand : Quiet (withOffer 0x0001 (descV 7) [] []) ∧ (withOffer 0x0001 (descV 7) [] []).phase = .idle ∧
    (withOffer 0x0001 (descV 7) [] []).offered = [⟨0x0001, descV 7, [], []⟩] ∧ Offer.wf ⟨0x0001, descV 7, [], []⟩ = true :=
  ⟨⟨rfl, rfl⟩, rfl, rfl, by decide⟩

/-- StepRunsWireOpcode: a read and a write frame to send. -/
theorem witness_StepRunsWireOpcode :
    (latchOp (inRead .float64 0 0 State.reset) = 6 ∧ ∃ c, nextRead (inRead .float64 0 0 State.reset) = .ok c) ∧
    (latchOp (inWrite .float64 0 0 State.reset) = 7 ∧ ∃ c, nextWrite (inWrite .float64 0 0 State.reset) = .ok c) :=
  ⟨⟨by decide, _, by rfl⟩, by decide, _, by rfl⟩

/-- A transfer that waits for the response to `Flush`, the last of the raw-mode entry. -/
def atFlush (r : List Response) : State := { inRead .float64 0 0 State.reset with phase := .wFlush, responses := r }

/-- ResponseAndNextFrameAreOneStep: a response that leaves EXEC with a frame to send, and one that does not. -/
theorem witness_ResponseAndNextFrameAreOneStep :
    (∃ t, handle (.done .ok) (atFlush []) = .next t ∧ t.phase = .exec ∧ selectWire t = some (.ok .rdShortF64)) ∧
    (∃ t, handle (.done .error) (atFlush []) = .next t ∧ t.phase ≠ .exec) :=
  ⟨⟨_, rfl, rfl, by decide⟩, _, rfl, by decide⟩

/-- CommandHeldWhileBusy: a command while a reply is awaited, and a step that takes the reply (an ERROR) while one is offered. -/
theorem witness_CommandHeldWhileBusy : (Instr.encRd (f64 0)).command = some 0x0001 ∧ (midRead 0 []).phase ≠ .idle ∧
    let s := { midRead 0 [.bytes [] .error] with offered := [⟨0x0001, descV 0, [], []⟩] }
    s.rst = false ∧ s.phase ≠ .idle ∧ (next (step s)).map State.phase = some .wEosRestore := by decide

/-- IllegalWordCompletes, and every statement about a ready state. -/
theorem witness_IllegalWordCompletes : Ready (withOffer 0x0000 (descV 0) [] []) := ⟨rfl, rfl⟩

/-- EncRdResult, XferRdStarts: a descriptor that is refused, the last short read, the first long one, the largest transfer and one above it. -/
theorem witness_EncRdResult :
    validDesc (portOperands (withOffer 0x0001 (desc1 [0x56] 5 4) [] [])).desc true = false ∧
    validDesc (portOperands (withOffer 0x0001 (descV 174) [] [])).desc true = true ∧ dataBytes (descV 174) .float64 = 1400 ∧
    validDesc (descV 350) true = true ∧ dataBytes (descV 350) .int32 = 1404 ∧
    validDesc (descV 1749) true = true ∧ dataBytes (descV 1749) .float64 = 14000 ∧
    validDesc (descV 1750) true = true ∧ dataBytes (descV 1750) .float64 = 14008 := by decide

/-- EncRdResult, the conditions of 40_frame_codec.md R151 at their boundaries: the name, the ranges, the element count (2147483647 and one more),
the text of a read (1394 and 1395 bytes). -/
theorem witness_validDesc :
    validDesc (desc1 [] 0 0) false = false ∧ validDesc (desc1 [0x5F] 0 0) false = true ∧ validDesc (desc1 [0x5B] 0 0) false = false ∧
    validDesc (desc1 [0x56] 5 5) false = true ∧ validDesc (desc1 [0x56] 5 4) false = false ∧
    validDesc (desc1 [0x56] 2147483647 2147483647) false = true ∧ validDesc (desc1 [0x56] 2147483648 2147483648) false = false ∧
    validDesc { desc2 0 4 with d2s := 5 } false = false ∧ validDesc (desc2 0 2147483648) false = false ∧
    validDesc (desc1 [0x56] 1 2147483647) false = true ∧ validDesc (desc1 [0x56] 0 2147483647) false = false ∧
    (asciiLen (desc1 (List.replicate 1389 0x4E) 0 0) = 1394 ∧ validDesc (desc1 (List.replicate 1389 0x4E) 0 0) true = true) ∧
    (asciiLen (desc1 (List.replicate 1390 0x4E) 0 0) = 1395 ∧ validDesc (desc1 (List.replicate 1390 0x4E) 0 0) true = false ∧
      validDesc (desc1 (List.replicate 1390 0x4E) 0 0) false = true) := by decide +kernel

/-- EncRdslResult: slices 0, 10 and one past the end; slices 1 and 9 of their ranges. -/
theorem witness_EncRdslResult :
    validDesc (desc1 [0x56] 5 4) true = false ∧ validDesc (descV 1749) true = true ∧ ¬ (1 ≤ (f64 0).slice.toNat) ∧
    ¬ ((f64 10).slice.toNat ≤ 9) ∧ ¬ (2 * 1400 < dataBytes (descV 199) .float64) ∧
    1 * 1400 < dataBytes (descV 350) .int32 ∧ 9 * 1400 < dataBytes (descV 1749) .float64 := by decide

/-- The name of 1386 letters of WV11: with it no element fits a packet. -/
def longName : List Byte := List.replicate 1386 0x4E

/-- EncWrErrors: each check fails somewhere: descriptor, length, single slice, no element fits, slice range. -/
theorem witness_EncWrErrors :
    validDesc (desc1 [] 0 0) false = false ∧
    (validDesc (desc1 [0x58] 0 1) false = true ∧ [(0 : Elem)].length ≠ numElements (desc1 [0x58] 0 1)) ∧
    (asciiLen (desc1 [0x58] 0 1) + 6 + numElements (desc1 [0x58] 0 1) * esize .float64 ≤ 1400 ∧ (f64 1).slice.toNat ≠ 0) ∧
    (validDesc (desc1 longName 0 0) false = true ∧ 1400 < asciiLen (desc1 longName 0 0) + 6 + numElements (desc1 longName 0 0) * esize .float64 ∧
      1400 < asciiLen (desc1 longName 0 0) + 8 + esize .float64) ∧
    (1400 < asciiLen (descW 173) + 6 + numElements (descW 173) * esize .float64 ∧ asciiLen (descW 173) + 8 + esize .float64 ≤ 1400 ∧
      ¬ ((f64 2).slice.toNat < (numElements (descW 173) + (1400 - asciiLen (descW 173) - 8) / esize .float64 - 1) /
        ((1400 - asciiLen (descW 173) - 8) / esize .float64))) := by decide +kernel

/-- EncWrErrors, PlanWrErrors, XferWrStarts: with no Int32 write opcode configured an Int32 write has no opcodes. -/
theorem witness_unsupported (h : Config.opcWrShortI32 = none) : writeOpcodes .int32 = .error .unsupported := by
  simp [writeOpcodes, h]

/-- EncWrSinglePacket, EncWrChunk: W(0,172) is the largest single packet; slices 0 and 1 of W(0,173) are its chunks. -/
theorem witness_EncWrSinglePacket :
    validDesc (descW 172) false = true ∧ (ramp 173).length = numElements (descW 172) ∧
    writeOpcodes .float64 = .ok (0xF2, 0x37) ∧ asciiLen (descW 172) + 6 + numElements (descW 172) * esize .float64 = 1398 := by
  decide +kernel

theorem witness_EncWrChunk :
    validDesc (descW 173) false = true ∧ (ramp 174).length = numElements (descW 173) ∧
    1400 < asciiLen (descW 173) + 6 + numElements (descW 173) * esize .float64 ∧ asciiLen (descW 173) + 8 + esize .float64 ≤ 1400 ∧
    (f64 1).slice.toNat ≤ 9 ∧
    (f64 1).slice.toNat < (numElements (descW 173) + (1400 - asciiLen (descW 173) - 8) / esize .float64 - 1) /
      ((1400 - asciiLen (descW 173) - 8) / esize .float64) := by decide +kernel

/-- Int32WritesNeedOpcodes: an Int32 command with a valid descriptor and its data. -/
theorem witness_Int32WritesNeedOpcodes : (i32 0).kind = .int32 ∧ Ready (withOffer 0x000B (descV 0) [0] []) ∧
    validDesc (portOperands (withOffer 0x000B (descV 0) [0] [])).desc false = true ∧
    (portOperands (withOffer 0x000B (descV 0) [0] [])).data.length = numElements (portOperands (withOffer 0x000B (descV 0) [0] [])).desc :=
  ⟨rfl, ⟨rfl, rfl⟩, by decide, by decide⟩

/-- ChunkCountFromLength: the encoder answers. -/
theorem witness_ChunkCountFromLength : ∃ c, encodeWrite (descV 0) .float64 [0] 0 = .ok c := ⟨_, rfl⟩

/-- ChunksCoverTheArray: W(0,173) needs two packets. -/
theorem witness_ChunksCoverTheArray : geom (descW 173) .float64 = .ok { single := false, m := 173, p := 2 } := by decide

/-- EncodersGiveRequestFrames: a frame in RES_FRAME. -/
theorem witness_EncodersGiveRequestFrames : Ready (withOffer 0x0001 (descV 0) [] []) ∧
    ∃ t b, exec (.encRd (f64 0)) (withOffer 0x0001 (descV 0) [] []) = .next t ∧ t.res.frame = some b :=
  ⟨⟨rfl, rfl⟩, _, _, rfl, rfl⟩

/-- ReplySizes: the one reply of 4 bytes, and the last of 1404. -/
theorem witness_ReplySizes : 0 * 1400 < dataBytes (descV 0) .int32 ∧ 1 * 1400 < dataBytes (descV 350) .int32 := by decide

/-- PlanWrResult: the plan of ARR(0,1729) wraps. -/
theorem witness_PlanWrResult : validDesc (desc1 [0x41, 0x52, 0x52] 0 1729) false = true ∧ writeOpcodes .float64 = .ok (0xF2, 0x37) ∧
    planCheck (desc1 [0x41, 0x52, 0x52] 0 1729) .float64 = .ok () := by decide

/-- PlanWrErrors: a descriptor that is refused, and one that no packet carries. -/
theorem witness_PlanWrErrors : validDesc (desc1 [0x56] 5 4) false = false ∧ validDesc (desc1 longName 0 0) false = true ∧
    planCheck (desc1 longName 0 0) .float64 = .error .protocolLimit := by decide +kernel

/-- TwoDimensionalWrap: 12 packets, and exactly 10. -/
theorem witness_TwoDimensionalWrap :
    (validDesc (desc2 1 999) false = true ∧ d2spans (desc2 1 999) = true ∧ geom (desc2 1 999) .float64 = .ok ⟨false, 172, 12⟩) ∧
    (validDesc (desc2 1 859) false = true ∧ d2spans (desc2 1 859) = true ∧ geom (desc2 1 859) .float64 = .ok ⟨false, 172, 10⟩) := by decide

/-- TrackerAdvances: slices 8 and 9. -/
theorem witness_TrackerAdvances : { trackTwo with slice := 8 }.slice < 9 ∧ { trackTwo with slice := 9, sent := 10 }.slice = 9 ∧
    ∃ g, geom (shift (descV 173) { trackTwo with slice := 9, sent := 10 }.sent) .float64 = .ok g := ⟨by decide, rfl, _, rfl⟩

/-- XferWrStarts: the data match the descriptor, and the plan check passes, or fails. -/
theorem witness_XferWrStarts :
    validDesc (desc1 [0x56] 5 4) false = false ∧ [(0 : Elem)].length ≠ numElements (desc1 [0x58] 0 1) ∧
    (validDesc (descV 0) false = true ∧ [(0 : Elem)].length = numElements (descV 0) ∧ planCheck (descV 0) .float64 = .ok ()) ∧
    (validDesc (desc1 longName 0 0) false = true ∧ [(0 : Elem)].length = numElements (desc1 longName 0 0) ∧
      planCheck (desc1 longName 0 0) .float64 = .error .protocolLimit) := by decide +kernel

/-- EnterRawSteps: the four phases, and a response of each status they allow. -/
theorem witness_EnterRawSteps :
    let s (p : Phase) (h : Bool) (r : Response) : State := { State.reset with phase := p, eosHeld := h, responses := [r] }
    Quiet (s .wEosSave false (.eos 0 .ok)) ∧ (s .wEosSave false (.eos 0 .error)).responses = [.eos 0 .error] ∧
    Quiet (s .wEosClear true (.done .ok)) ∧ Quiet (s .wFlush true (.done .error)) ∧
    (midRead 0 []).eosHeld = true ∧ latchOp { midRead 0 [.done .ok] with phase := .wTx } = 6 ∧
    latchOp { midWrite 0 trackOne .wTx [] [.done .timeout] with phase := .wTx } = 7 ∧ (midWrite 0 trackOne .wTx [] [.done .timeout]).eosHeld = true :=
  ⟨⟨rfl, rfl⟩, rfl, ⟨rfl, rfl⟩, ⟨rfl, rfl⟩, rfl, latchOp_midRead 0 [.done .ok], latchOp_midWrite 0 trackOne .wTx [] [.done .timeout], rfl⟩

/-- FirstReadIsSent: the last short read and the first long one, of both kinds. -/
theorem witness_FirstReadIsSent :
    let s (k : Kind) (last : Nat) : State := inRead k last 0 State.reset
    ((s .float64 174).phase = .exec ∧ latchOp (s .float64 174) = 6 ∧ (s .float64 174).rd.slice = 0 ∧
      validDesc (s .float64 174).latch.desc true = true ∧ latchKind (s .float64 174) = .float64 ∧
      dataBytes (s .float64 174).latch.desc .float64 = 1400) ∧
    (validDesc (s .float64 175).latch.desc true = true ∧ dataBytes (s .float64 175).latch.desc .float64 = 1408) ∧
    (latchKind (s .int32 349) = .int32 ∧ validDesc (s .int32 349).latch.desc true = true ∧ dataBytes (s .int32 349).latch.desc .int32 = 1400) ∧
    (latchKind (s .int32 350) = .int32 ∧ validDesc (s .int32 350).latch.desc true = true ∧
      dataBytes (s .int32 350).latch.desc .int32 = 1404) := by decide

/-- SliceReadIsSent: slice 1 and slice 9. -/
theorem witness_SliceReadIsSent :
    let s (k : Kind) (last n : Nat) : State := inRead k last n State.reset
    (validDesc (s .float64 1749 9).latch.desc true = true ∧ (s .float64 1749 9).rd.slice = 9 ∧
      9 * 1400 < dataBytes (s .float64 1749 9).latch.desc (latchKind (s .float64 1749 9))) ∧
    (validDesc (s .int32 350 1).latch.desc true = true ∧ (s .int32 350 1).rd.slice = 1 ∧
      1 * 1400 < dataBytes (s .int32 350 1).latch.desc (latchKind (s .int32 350 1))) := by decide

/-- TransferSendsThePlan: the response to Flush, and an acknowledgement of a chunk that is not the last. -/
theorem witness_TransferSendsThePlan :
    RunInv (midWrite 173 trackTwo .wFlush [] [.done .ok]) ∧ Quiet (midWrite 173 trackTwo .wFlush [] [.done .ok]) ∧
    latchOp (midWrite 173 trackTwo .wFlush [] [.done .ok]) = 7 ∧ writeOpcodes .float64 = .ok (0xF2, 0x37) ∧
    RunInv (midWrite 173 trackTwo .wRxAck [] [.bytes [Config.ackByte, 0x37] .ok]) ∧
    (midWrite 173 trackTwo .wRxAck [] [.bytes [Config.ackByte, 0x37] .ok]).wt.remsl ≠ 0 :=
  ⟨runInv_midWrite _ (Or.inl (Or.inr rfl)) (by decide) (by decide) tracking_two rfl, ⟨rfl, rfl⟩, latchOp_midWrite _ _ _ _ _, rfl,
    runInv_ack_two _, by decide⟩

/-- Float64ChunkIsSent, and TransferSendsThePlan in EXEC: a segment in one packet, and one in two. -/
theorem witness_Float64ChunkIsSent :
    (RunInv (midWrite 0 trackOne .exec [] []) ∧ trackOne.m = 0 ∧ Tracking (descV 0) .float64 trackOne) ∧
    (RunInv (midWrite 173 trackTwo .exec [] []) ∧ trackTwo.m ≠ 0 ∧ Tracking (descV 173) .float64 trackTwo) :=
  ⟨⟨runInv_midWrite _ (Or.inl (Or.inl rfl)) (by decide) (by decide) tracking_one rfl, rfl, tracking_one⟩,
    runInv_midWrite _ (Or.inl (Or.inl rfl)) (by decide) (by decide) tracking_two rfl, by decide, tracking_two⟩

/-- Int32ChunkIsSent: the tracker at the one chunk of an Int32 V(0,0), and at the first of V(0,699) (T8). -/
theorem witness_Int32ChunkIsSent :
    (latchOp (inWrite .int32 0 0 State.reset) = 7 ∧ latchKind (inWrite .int32 0 0 State.reset) = .int32 ∧
      Tracking (descV 0) .int32 trackOne ∧ trackOne.m = 0) ∧
    Tracking (descV 699) .int32 ⟨0, 346, 0, 2, 0, descV 699, 346, 3, 0, 700⟩ :=
  ⟨⟨by decide, by decide,
    ⟨by decide, by decide, Or.inl rfl, by decide, ⟨⟨true, 0, 1⟩, by decide, by decide, by decide, by decide⟩, by decide, by decide, by decide,
      ⟨1, by decide⟩⟩, rfl⟩,
    by decide, by decide, Or.inl rfl, by decide, ⟨⟨false, 346, 3⟩, by decide, by decide, by decide, by decide⟩, by decide, by decide, by decide,
    ⟨1, by decide⟩⟩

/-- OtherOpcodesAreNotSent: no transfer, and a transfer that sends another opcode. -/
theorem witness_OtherOpcodesAreNotSent : State.reset.phase ≠ .exec ∧
    selectWire (inRead .float64 0 0 State.reset) ≠ some (.ok .rdLongF64) := by decide

/-- RejectedReply: the replies of XR3, XR8 (with a code and with a byte that is no digit) and a wrong start, end and length. -/
theorem witness_RejectedReply :
    (∀ r, RunInv (midRead 0 r) ∧ Quiet (midRead 0 r) ∧ latchOp (midRead 0 r) = 6) ∧
    (List.replicate 12 (0 : Byte)).length < (midRead 0 []).rd.expected ∧
    classify .read [0xE3, 0xF0, 0x08, 0x00, 0x3F, 0x33, 0x30, 0x35, 0x31, 0x0D, 0x00, 0x00, 0xE6] = .controllerError 3051 ∧
    classify .read [0xE3, 0xF0, 0x08, 0x00, 0x3F, 0x33, 0x58, 0x35, 0x31, 0x0D, 0x00, 0x00, 0xE6] = .malformedError ∧
    classify .read [0xD3, 0xF0, 0x08, 0x00, 0, 0, 0, 0, 0, 0, 0, 0, 0xD6] = .noError ∧
    classify .read [0xE3, 0xF0, 0x07, 0x00, 0, 0, 0, 0, 0, 0, 0, 0, 0xE6] = .noError ∧
    [0xE3, 0xF0, 0x07, 0x00, 0, 0, 0, 0, 0, 0, 0, 0, (0xE6 : Byte)].length = (midRead 0 []).rd.expected :=
  ⟨fun r => ⟨runInv_read_one r, ⟨rfl, rfl⟩, latchOp_midRead 0 r⟩, by decide⟩

/-- AcceptedReply: the last reply, and one after which more must come, with and without the continuation flag. -/
theorem witness_AcceptedReply :
    (8 + 5 = (midRead 0 []).rd.expected ∧ (midRead 0 []).rd.remain = 8 ∧ Memory.loadBytes (midRead 0 []).outbuf 0 0 = some [] ∧
      classify .read (replyFrame 0xF0 false (List.replicate 8 0)) = .noError) ∧
    (RunInv (midRead 199 []) ∧ 1400 + 5 = (midRead 199 []).rd.expected ∧ (midRead 199 []).rd.remain ≠ 1400 ∧
      classify .read (replyFrame 0x41 true (List.replicate 1400 0)) = .noError ∧
      classify .read (replyFrame 0x41 false (List.replicate 1400 0)) = .noError) :=
  ⟨by decide, runInv_read_two _, by decide, by decide, by decide +kernel, by decide +kernel⟩

/-- AcknowledgementCheck: a run that waits for an acknowledgement, of the last chunk and of another; a byte that is no ACK. -/
theorem witness_AcknowledgementCheck :
    (∀ r, RunInv (midWrite 0 trackOne .wRxAck [] r) ∧ Quiet (midWrite 0 trackOne .wRxAck [] r) ∧ trackOne.remsl = 0) ∧
    (∀ r, RunInv (midWrite 173 trackTwo .wRxAck [] r) ∧ trackTwo.remsl ≠ 0) ∧ Config.ackByte + 1 ≠ Config.ackByte :=
  ⟨fun r => ⟨runInv_ack_one r, ⟨rfl, rfl⟩, rfl⟩, fun r => ⟨runInv_ack_two r, by decide⟩,
    fun h => absurd (congrArg (· - Config.ackByte) h) (by simp)⟩

/-- NonAcknowledgedReply: a tail of 9 bytes (a Shape A frame), of 10 (the legacy shape) and of 1404. -/
theorem witness_NonAcknowledgedReply :
    (∀ r, RunInv (midWrite 0 trackOne .wRxTail [0x15] r) ∧ Quiet (midWrite 0 trackOne .wRxTail [0x15] r)) ∧
    RunInv (midWrite 0 trackOne .wRxTail [0xE3] [.bytes [0x37, 0x36, 0x3F, 0x31, 0x30, 0x36, 0x34, 0x0D, 0xE6] .timeout]) ∧
    classify .nak ([0xE3] ++ [0x37, 0x36, 0x3F, 0x31, 0x30, 0x36, 0x34, 0x0D, 0xE6]) = .controllerError 1064 ∧
    classify .nak ([0x15] ++ List.replicate 10 0) = .malformedError ∧ ([0x15] ++ List.replicate 10 (0 : Byte)).length = 11 ∧
    classify .nak ([0x15] ++ List.replicate 1404 0) = .malformedError ∧ ([0x15] ++ List.replicate 1404 (0 : Byte)).length = 1405 :=
  ⟨fun r => ⟨runInv_tail r, rfl, rfl⟩,
    runInv_midWrite _ (Or.inr (Or.inr ⟨rfl, by decide⟩)) (by decide) (by decide) tracking_one rfl, by decide, by decide, by decide,
    by decide +kernel, by decide +kernel⟩

/-- A read and a write that wait for the response to EosRestore, which is ERROR. -/
def endRead (st : Status) : State := { midRead 0 [.done .error] with phase := .wEosRestore, finStatus := st }
def endWrite : State := { midWrite 0 trackOne .wRxAck [] [.done .error] with phase := .wEosRestore, finStatus := .transport }

theorem runInv_endRead (st : Status) : RunInv (endRead st) := by
  obtain ⟨-, hb, hf, ht, hr, -⟩ := runInv_read_one [.done .error]
  obtain ⟨h1, h2, h3, h4, h5, h6, h7, -⟩ := hr (by decide) rfl
  exact ⟨by simp [ControlInv, endRead, midRead, inRead, quiet, State.reset, heldPhase], hb, hf, fun _ => Or.inl rfl,
    fun _ _ => ⟨h1, h2, h3, h4, h5, h6, h7, show 5 ≤ 6 + 2 * 0 by decide⟩, fun _ h => absurd (show latchOp (endRead st) = 6 from rfl) (by rw [h]; decide)⟩

theorem runInv_endWrite : RunInv endWrite := by
  obtain ⟨-, hb, hf, -, -, hw⟩ := runInv_ack_one [.done .error]
  obtain ⟨-, -, h3, -⟩ := hw (by decide) rfl
  exact ⟨by simp [ControlInv, endWrite, midWrite, inWrite, quiet, State.reset, heldPhase], hb, hf, fun _ => Or.inr rfl,
    fun _ h => absurd (show latchOp endWrite = 7 from rfl) (by rw [h]; decide), fun _ _ => ⟨by decide, fun h => absurd h (by decide), h3, fun h => absurd rfl h⟩⟩

/-- FinishRestoresEos: a command that holds the EOS configuration, the response to its restore, and runs of a read and of a write that it completes. -/
theorem witness_FinishRestoresEos :
    ((midRead 0 []).eosHeld = true ∧ State.reset.eosHeld = false) ∧
    (RunInv (endRead .malformed) ∧ Quiet (endRead .malformed) ∧ (endRead .malformed).phase = .wEosRestore ∧ XStatus.error ≠ .timeout ∧
      (endRead .malformed).responses = [.done .error] ∧ latchOp (endRead .malformed) = 6 ∧
      (next (step (endRead .malformed))).map (fun t => (t.phase, t.status, t.outlen)) = some (.idle, .malformed, some 0) ∧
      (next (step (endRead .ok))).map (fun t => (t.phase, t.status, t.outlen)) = some (.idle, .transport, some 0)) ∧
    (RunInv endWrite ∧ Quiet endWrite ∧ endWrite.phase = .wEosRestore ∧ latchOp endWrite = 7 ∧
      (next (step endWrite)).map (fun t => (t.phase, t.status, t.res.elems)) = some (.idle, .transport, some 0)) :=
  ⟨⟨rfl, rfl⟩,
    ⟨runInv_endRead _, ⟨rfl, rfl⟩, rfl, by decide, rfl, latchOp_midRead 0 [], by decide, by decide⟩,
    runInv_endWrite, ⟨rfl, rfl⟩, rfl, latchOp_midWrite 0 trackOne .wRxAck [] [], by decide⟩

/-- ReadTransferDelivers: two replies, of 1400 and of 4 zero bytes. -/
theorem witness_ReadTransferDelivers :
    let data : List Byte := List.replicate 1404 0
    Offer.wf ⟨0x000E, descV 350, [], []⟩ = true ∧ decodeCommand 0x000E = .xferRd (i32 0) ∧ validDesc (descV 350) true = true ∧
    dataBytes (descV 350) .int32 = data.length ∧ data.length ≤ 14000 ∧ PlainData data ∧ exchangeCount data.length = 2 := by
  refine ⟨by decide, by decide, by decide, by decide +kernel, by decide +kernel, fun j _ h => ?_, by decide +kernel⟩
  have hz : ∀ i, byteAt (List.replicate 1404 0) i = 0 := fun i => by
    simp only [byteAt, List.getD_eq_getElem?_getD, List.getElem?_replicate]; split <;> rfl
  rw [hz] at h
  exact absurd h.1 (by decide)

/-- WriteTransferCompletes: the plan of V(0,173) has two records. -/
theorem witness_WriteTransferCompletes :
    let t0 := { trackTwo with sent := 0 }
    Offer.wf ⟨0x0007, descV 173, ramp 174, []⟩ = true ∧ decodeCommand 0x0007 = .xferWr (f64 0) ∧ validDesc (descV 173) false = true ∧
    (ramp 174).length = numElements (descV 173) ∧ wtInit (descV 173) .float64 (wtCounts State.reset.wt) = .ok t0 ∧
    planLoop (descV 173) .float64 0xF2 0x37 174 t0 =
      .ok (⟨1, 1, 173, 0, 0, descV 173, 173, 2, 174, 174⟩,
        [⟨0, descV 173, 0, 0, 173, 0x37, 1, 1405⟩, ⟨0, descV 173, 1, 173, 1, 0x37, 0, 29⟩]) := by decide +kernel

/-- PureCommandFrame, PlanWrFrame, TransferStartFrame: a ready state in which each of these commands answers. -/
theorem witness_CommandFrames :
    let s := withOffer 0x0001 (descV 0) [0] []
    Ready s ∧ ([.encRd (f64 0), .encRdsl (f64 0), .encWr (f64 0), .decErr (f64 0), .illegal 0, .planWr (f64 0), .xferRd (f64 0),
      .xferWr (f64 0)] : List Instr).all (fun i => (next (exec i s)).isSome) = true := ⟨⟨rfl, rfl⟩, by decide⟩

/-- WireOpcodeFrame: a wire opcode that is sent, and one that is not. -/
theorem witness_WireOpcodeFrame : Instr.rdShortF64.command = none ∧
    (next (exec .rdShortF64 (inRead .float64 0 0 State.reset))).isSome = true ∧
    (next (exec .rdLongF64 (inRead .float64 0 0 State.reset))).isSome = true := by decide

/-- EarlierValuesDoNotMatter: two ready states that differ in what an earlier command left; a command without requests, and a transfer. -/
theorem witness_EarlierValuesDoNotMatter :
    let s := withOffer 0x0001 (descV 0) [0] []
    let s' := { s with status := .malformed, outlen := some 5, rd := { s.rd with slice := 9, cont := true }, lastOpc := 0x37 }
    Ready s ∧ Ready s' ∧ s.offered = s'.offered ∧ (next (exec (.encRd (f64 0)) s)).isSome = true ∧
      (next (exec (.encRd (f64 0)) s')).isSome = true ∧ (next (exec (.xferRd (f64 0)) s)).map State.phase = some .wEosSave ∧
      (next (exec (.xferWr (f64 0)) s')).map State.phase = some .wEosSave :=
  ⟨⟨rfl, rfl⟩, ⟨rfl, rfl⟩, rfl, by decide, by decide, by decide, by decide⟩

end Sys2Proof.Tests
end

section
/-! PROOF. The statements about 00_scope.md R12: a step that begins in EXEC, and a response with the frame it leads to. -/

namespace Sys2Proof.Machine

open Sys2Proof

/-- With XFER_RD latched, the wire opcode selected is that of the next read frame (41_slicer_continuation.md R204). -/
theorem selectWire_read {s : State} {c : ReadCmd} (hl : latchOp s = 6) (h : nextRead s = .ok c) :
    selectWire s = some (.ok c.op) := by
  rw [selectWire, if_pos hl, h]

/-- With XFER_WR latched, the wire opcode selected is that of the next write frame (41_slicer_continuation.md R208). -/
theorem selectWire_write {s : State} {c : WriteCmd} (hl : latchOp s = 7) (h : nextWrite s = .ok c) :
    selectWire s = some (.ok c.op) := by
  have hn : latchOp s ≠ 6 := by rw [hl]; decide
  rw [selectWire, if_neg hn, if_pos hl, h]

/-- The wire opcode selected is the one EXEC runs. -/
theorem runWire_selected {s : State} {i : Instr} (h : selectWire s = some (.ok i)) : runWire s = exec i s := by
  rw [runWire, h]

/-- With the ports quiet, a step that begins in EXEC runs the wire opcode selected. -/
theorem step_exec_selected {s : State} {i : Instr} (hq : Quiet s) (hp : s.phase = .exec) (h : selectWire s = some (.ok i)) :
    step s = exec i s := by
  rw [step_quiet hq, sequence_exec hp, runWire_selected h]

/-- A response that leads to no frame ends the step. -/
theorem settle_of_phase_ne_exec {t : State} (h : t.phase ≠ .exec) : settle (.next t) = .next t := if_neg h

/-- A response that leads to a frame ends the step with the sending of it (00_scope.md R12). -/
theorem settle_of_phase_exec {t : State} (h : t.phase = .exec) : settle (.next t) = runWire t := if_pos h

/-- Settles O19: in EXEC the step is `runWire`, and the transfer latched selects the opcode of its own next frame. -/
theorem stepRunsWireOpcode : Obligations.StepRunsWireOpcode := by
  intro s hq hp
  constructor
  · intro c hl hc
    exact step_exec_selected hq hp (selectWire_read hl hc)
  · intro c hl hc
    exact step_exec_selected hq hp (selectWire_write hl hc)

/-- Settles O20: in a waiting phase the step is `settle` of what the response does, split on whether that leaves EXEC. -/
theorem responseAndNextFrameAreOneStep : Obligations.ResponseAndNextFrameAreOneStep := by
  intro s t r rest hq hidle hexec hr ht
  have hstep : step s = settle (.next t) := by
    rw [step_quiet hq, sequence_response hidle hexec hr, ht]
  constructor
  · intro hp
    rw [hstep, settle_of_phase_ne_exec hp]
  · intro hp i hi
    rw [hstep, settle_of_phase_exec hp, runWire_selected hi]

end Sys2Proof.Machine
end

section
/-! PROOF. The control registers (10_state.md R33 to R35, R41): every step keeps them consistent. -/

namespace Sys2Proof.Machine

open Sys2Proof

/-- A command is accepted and not complete: DONE, STATUS and ERRCODE are clear (10_state.md R35), and the code `finish` holds across its await
is one of R255. It says nothing of EOS_HELD, so it also holds between acceptance and the first request. -/
def InProgress (s : State) : Prop := s.done = false ∧ s.status = .ok ∧ s.errcode = 0 ∧ s.finCode ≤ 9999

/-- A command in progress that holds the EOS configuration. -/
def InRawMode (s : State) : Prop := InProgress s ∧ s.eosHeld = true

theorem InProgress.controlInv {s : State} (h : InProgress s) (he : s.eosHeld = heldPhase s.phase) : ControlInv s := by
  obtain ⟨hd, hs, hc, hf⟩ := h
  refine ⟨he, ?_, fun _ => ⟨hs, hc⟩, fun _ => hc, ?_, hf⟩
  · intro hd'; rw [hd] at hd'; cases hd'
  · rw [hc]; exact Nat.zero_le _

theorem InRawMode.controlInv {s : State} (h : InRawMode s) (hp : heldPhase s.phase = true) : ControlInv s :=
  h.1.controlInv (h.2.trans hp.symm)

theorem ControlInv.inProgress {s : State} (h : ControlInv s) (hp : s.phase ≠ .idle) : InProgress s := by
  obtain ⟨-, hdone, hclear, -, -, hf⟩ := h
  have hd : s.done = false := Bool.eq_false_iff.mpr fun hd => hp (hdone hd)
  exact ⟨hd, (hclear hd).1, (hclear hd).2, hf⟩

theorem ControlInv.inRawMode {s : State} (h : ControlInv s) (hp : heldPhase s.phase = true) : InRawMode s :=
  ⟨h.inProgress fun hi => by simp [hi, heldPhase] at hp, h.1.trans hp⟩

theorem ControlInv.finCode_le {s : State} (h : ControlInv s) : s.finCode ≤ 9999 := by
  obtain ⟨-, -, -, -, -, hf⟩ := h
  exact hf

/-- Acceptance clears what a command in progress has clear (41_slicer_continuation.md R202). -/
theorem accept_inProgress (w : CmdWord) {s : State} (hf : s.finCode ≤ 9999) : InProgress (accept w s) := ⟨rfl, rfl, rfl, hf⟩

/-- Completion with a code of four digits (41_slicer_continuation.md R203). -/
theorem complete_controlInv {s : State} {st : Status} {code : Nat} (he : s.eosHeld = false) (hf : s.finCode ≤ 9999)
    (hc : code ≤ 9999) : ControlInv (complete st code s) := by
  refine ⟨he, fun _ => rfl, fun hd => Bool.noConfusion hd, fun hs => if_neg hs, ?_, hf⟩
  rw [complete_errcode]
  split
  · rw [BitVec.toNat_ofNat]; omega
  · exact Nat.zero_le _

/-- `finish` ends a command in progress: with the configuration held it waits for the restore, otherwise it completes (R203). -/
theorem InProgress.finish_controlInv {s : State} {st : Status} {code : Nat} (h : InProgress s) (hc : code ≤ 9999) :
    ControlInv (finish st code s) := by
  cases hh : s.eosHeld with
  | true =>
    rw [finish_held hh]
    obtain ⟨hd, hs, he, -⟩ := h
    exact InProgress.controlInv ⟨hd, hs, he, hc⟩ hh
  | false =>
    obtain ⟨-, -, -, hf⟩ := h
    rw [finish_not_held hh]
    exact complete_controlInv hh hf hc

theorem InProgress.raise_controlInv {s : State} (h : InProgress s) (e : Status) : ControlInv (raise e s) := h.finish_controlInv (Nat.zero_le _)

theorem finishRestored_controlInv {s : State} (st : XStatus) (hf : s.finCode ≤ 9999) : ControlInv (finishRestored st s) :=
  complete_controlInv rfl hf hf

theorem reset_controlInv : ControlInv State.reset := by simp [ControlInv, State.reset, heldPhase]

theorem resetBlock_controlInv (s : State) : ControlInv (resetBlock s) := reset_controlInv

/-! Host commands -/

theorem enterRaw_controlInv {s : State} (h : InProgress s) (he : s.eosHeld = false) : ControlInv (enterRaw s) :=
  InProgress.controlInv h he

/-- A host command keeps the control registers consistent: it is held by the host, or accepted, and then completes or enters raw mode. -/
theorem exec_command_controlInv {i : Instr} {w : CmdWord} {s t : State} (hw : i.command = some w) (h : ControlInv s)
    (hx : exec i s = .next t) : ControlInv t := by
  have hf := h.finCode_le
  have hidle : s.phase = .idle → s.eosHeld = false := fun hp => by rw [h.1, hp]; rfl
  by_cases hr : ∃ f, i = .xferRd f
  · obtain ⟨f, rfl⟩ := hr
    rcases execXferRd_cases hx with ⟨-, rfl⟩ | ⟨hp, ⟨e, rfl⟩ | ⟨c, -, -, rfl⟩⟩
    · exact h
    · exact (accept_inProgress _ hf).raise_controlInv e
    · exact enterRaw_controlInv (accept_inProgress (commandWord 6 f) hf) (hidle hp)
  by_cases hwr : ∃ f, i = .xferWr f
  · obtain ⟨f, rfl⟩ := hwr
    rcases execXferWr_cases hx with ⟨-, rfl⟩ | ⟨hp, ⟨e, rfl⟩ | ⟨_, x, -, -, -, -, rfl⟩⟩
    · exact h
    · exact (accept_inProgress _ hf).raise_controlInv e
    · exact enterRaw_controlInv (accept_inProgress (commandWord 7 f) hf) (hidle hp)
  rcases pure_cases hw ⟨fun f hi => hr ⟨f, hi⟩, fun f hi => hwr ⟨f, hi⟩⟩ hx with ⟨-, rfl⟩ | ⟨-, e, r, l, x, rfl⟩
  · exact h
  · exact InProgress.finish_controlInv (accept_inProgress w hf) (Nat.zero_le _)

/-! The frames of a transfer -/

theorem sent_controlInv {b : List Byte} {opc : Byte} {tm : Timeout} {s : State} (h : InRawMode s) : ControlInv (sent b opc tm s) :=
  InRawMode.controlInv h rfl

/-- Sending the next frame of a transfer, or raising its encoder's error. -/
theorem runWire_controlInv {s t : State} (hp : s.phase = .exec) (h : ControlInv s) (hr : runWire s = .next t) : ControlInv t := by
  have hraw : InRawMode s := h.inRawMode (by rw [hp]; rfl)
  rcases runWire_cases hp hr with ⟨c, -, -, rfl⟩ | ⟨c, -, -, rfl⟩ | ⟨e, -, rfl⟩
  · exact sent_controlInv (s := { s with rd := { s.rd with expected := BitVec.ofNat 16 c.expected } }) hraw
  · exact sent_controlInv hraw
  · exact hraw.1.raise_controlInv e

/-! Responses -/

theorem dval_le {x : Byte} (h : isDigit x = true) : dval x ≤ 9 := by
  simp only [isDigit, Bool.and_eq_true, decide_eq_true_eq] at h
  unfold dval
  omega

/-- Four digits make a code of at most 9999 (42_error_classifier.md R255). -/
theorem code4_le {b : List Byte} {i : Nat} (h : digits4 b i = true) : code4 b i ≤ 9999 := by
  simp only [digits4, Bool.and_eq_true] at h
  obtain ⟨⟨⟨h0, h1⟩, h2⟩, h3⟩ := h
  have := dval_le h0
  have := dval_le h1
  have := dval_le h2
  have := dval_le h3
  unfold code4
  omega

/-- The code of a controller error is one of four digits, on both paths (42_error_classifier.md R252, R254, R255). -/
theorem classify_code_le {p : Path} {b : List Byte} {code : Nat} (h : classify p b = .controllerError code) : code ≤ 9999 := by
  cases p with
  | read =>
    simp only [classify] at h
    split at h
    · split at h
      · rename_i hd; cases h; exact code4_le hd
      · cases h
    · cases h
  | nak =>
    simp only [classify] at h
    split at h
    · split at h
      · rename_i ha
        cases h
        simp only [shapeA, Bool.and_eq_true] at ha
        exact code4_le ha.2
      · cases h
    · cases h

theorem onEosSave_controlInv {s : State} (cfg : EosCfg) (st : XStatus) (h : InProgress s) : ControlInv (onEosSave cfg st s) := by
  unfold onEosSave
  split
  · exact h.raise_controlInv _
  · exact InRawMode.controlInv ⟨h, rfl⟩ rfl

theorem onEosClear_controlInv {s : State} (st : XStatus) (h : InRawMode s) : ControlInv (onEosClear st s) := by
  unfold onEosClear
  split
  · exact h.1.raise_controlInv _
  · exact InRawMode.controlInv h rfl

theorem onFlush_controlInv {s : State} (st : XStatus) (h : InRawMode s) : ControlInv (onFlush st s) := by
  unfold onFlush
  split
  · exact h.1.raise_controlInv _
  · exact InRawMode.controlInv h rfl

theorem onWritten_controlInv {s : State} (st : XStatus) (h : InRawMode s) : ControlInv (onWritten st s) := by
  unfold onWritten
  split
  · exact h.1.raise_controlInv _
  · split
    · exact InRawMode.controlInv h rfl
    · exact InRawMode.controlInv h rfl

theorem noteContEnd_inProgress {s : State} (h : InProgress s) : InProgress (noteContEnd s) := by
  simpa [InProgress] using h

theorem noteLegacy_inProgress {s : State} (l : Bool) (h : InProgress s) : InProgress (noteLegacy l s) := by
  simpa [InProgress] using h

theorem countAcknowledged_inRawMode {s : State} (echo : Byte) (h : InRawMode s) :
    InRawMode (countAcknowledged (noteEcho echo s)) := by
  simpa [InRawMode, InProgress] using h

theorem continueRead_controlInv {s : State} (h : InRawMode s) : ControlInv (continueRead s) := by
  unfold continueRead
  split
  · exact (noteContEnd_inProgress h.1).finish_controlInv (Nat.zero_le _)
  · split
    · exact h.1.raise_controlInv _
    · exact InRawMode.controlInv h rfl

theorem onData_controlInv {s t : State} {b : List Byte} {st : XStatus} (h : InRawMode s) (ht : onData b st s = .next t) :
    ControlInv t := by
  have hrec : InRawMode (received b s) := h
  rcases onData_cases ht with ⟨-, rfl⟩ | ⟨-, -, ⟨code, hc, rfl⟩ | ⟨-, rfl⟩ | ⟨-, -, -, rfl⟩⟩
  · exact h.1.raise_controlInv _
  · exact hrec.1.finish_controlInv (classify_code_le hc)
  · exact hrec.1.raise_controlInv _
  · exact continueRead_controlInv (s := appended b s) hrec

theorem chunkAcknowledged_controlInv {s : State} (echo : Byte) (h : InRawMode s) : ControlInv (chunkAcknowledged echo s) := by
  have hack := countAcknowledged_inRawMode echo h
  unfold chunkAcknowledged
  dsimp only
  split
  · exact hack.1.finish_controlInv (Nat.zero_le _)
  · split
    · exact hack.1.raise_controlInv _
    · exact InRawMode.controlInv hack rfl

theorem onAck_controlInv {s : State} (b : List Byte) (st : XStatus) (h : InRawMode s) : ControlInv (onAck b st s) := by
  have hexec : InRawMode { s with phase := .exec } := h
  unfold onAck
  dsimp only
  split
  · exact hexec.1.raise_controlInv _
  · split
    · exact hexec.1.raise_controlInv _
    · split
      · exact InRawMode.controlInv hexec rfl
      · split
        · exact hexec.1.raise_controlInv _
        · exact chunkAcknowledged_controlInv _ hexec

theorem onTail_controlInv {s t : State} {b : List Byte} {st : XStatus} (h : InRawMode s) (ht : onTail b st s = .next t) :
    ControlInv t := by
  rcases onTail_cases ht with ⟨-, rfl⟩ | ⟨-, -, e, code, rfl, hc⟩
  · exact InProgress.raise_controlInv (s := { s with phase := .exec }) h.1 _
  · have hcode : code ≤ 9999 := by
      rcases hc with ⟨hc, -⟩ | ⟨-, -, rfl⟩
      · exact classify_code_le hc
      · exact Nat.zero_le _
    exact (noteLegacy_inProgress _ (s := received (s.ackHead ++ b) s) h.1).finish_controlInv hcode

/-- Every response keeps the control registers consistent, whatever its status and its bytes. -/
theorem handle_controlInv {r : Response} {s t : State} (h : ControlInv s) (ht : handle r s = .next t) : ControlInv t := by
  have hraw : ∀ {p}, s.phase = p → heldPhase p = true → InRawMode s := fun hp hh => h.inRawMode (by rw [hp, hh])
  rcases handle_cases ht with ⟨cfg, st, hp, -, -, rfl⟩ | ⟨st, hp, -, -, rfl⟩ | ⟨st, hp, -, -, rfl⟩ | ⟨st, hp, -, rfl⟩ |
    ⟨b, st, hp, -, -, ht⟩ | ⟨b, st, hp, -, -, rfl⟩ | ⟨b, st, hp, -, -, ht⟩ | ⟨st, hp, -, -, rfl⟩
  · exact onEosSave_controlInv cfg st (h.inProgress (by simp [hp]))
  · exact onEosClear_controlInv st (hraw hp rfl)
  · exact onFlush_controlInv st (hraw hp rfl)
  · exact onWritten_controlInv st (hraw hp rfl)
  · exact onData_controlInv (hraw hp rfl) ht
  · exact onAck_controlInv b st (hraw hp rfl)
  · exact onTail_controlInv (hraw hp rfl) ht
  · exact finishRestored_controlInv st h.finCode_le

theorem sequence_controlInv {s t : State} (h : ControlInv s) (ht : sequence s = .next t) : ControlInv t := by
  rcases sequence_cases ht with ⟨-, -, rfl⟩ | ⟨o, _, -, -, -, hx⟩ | ⟨hp, hx⟩ | ⟨-, -, -, rfl⟩ |
    ⟨r, rest, u, -, -, -, hu, ⟨-, rfl⟩ | ⟨hp, hx⟩⟩
  · exact h
  · obtain ⟨w, hw⟩ := decodeCommand_command o.cmdw
    exact exec_command_controlInv hw h hx
  · exact runWire_controlInv hp h hx
  · exact h
  · exact handle_controlInv (s := { s with responses := rest }) h hu
  · exact runWire_controlInv hp (handle_controlInv (s := { s with responses := rest }) h hu) hx

/-- Settles O5: by cases on the step, which is a reset, a host read (of the port only), or a step of the sequencer. -/
theorem controlKept : Obligations.ControlKept := by
  intro s t h ht
  rcases step_cases ht with ⟨-, rfl⟩ | ⟨r, v, -, -, -, rfl⟩ | ⟨-, ht⟩
  · exact resetBlock_controlInv s
  · exact h
  · exact sequence_controlInv h ht

end Sys2Proof.Machine
end

section
/-! PROOF. The host port's view of the block: the fields of STATUSW (10_state.md R33, R34) and host reads (R43, R48, 70_reset_and_hazards.md R343). -/

namespace Sys2Proof.Machine

open Sys2Proof

theorem statusw_status (s : State) : (statusw s).extractLsb' 0 3 = statusCode s.status := by
  ext i hi
  rw [BitVec.getElem_extractLsb', Nat.zero_add, statusw_bit, if_pos hi, BitVec.getLsbD_eq_getElem hi]

theorem statusw_reserved (s : State) : (statusw s).extractLsb' 8 8 = 0 := by
  ext i hi
  rw [BitVec.getElem_extractLsb', statusw_bit]
  simp (disch := omega) only [if_neg]
  rw [if_pos (by omega)]
  simp

theorem statusw_errcode (s : State) : (statusw s).extractLsb' 16 16 = s.errcode := by
  ext i hi
  rw [BitVec.getElem_extractLsb', statusw_bit]
  simp (disch := omega) only [if_neg]
  rw [Nat.add_sub_cancel_left, BitVec.getLsbD_eq_getElem hi]

theorem busy_iff (s : State) : busy s = true ↔ s.phase ≠ .idle := decide_eq_true_iff

/-- Settles O3, field by field from `statusw_bit`. -/
theorem HostPort.statuswFields : Obligations.StatuswFields := by
  intro s
  refine ⟨?_, ?_, ?_, ?_, ?_, ?_, statusw_reserved s, statusw_errcode s⟩
  · rw [statusw_status]
    cases s.status <;> rfl
  · exact statusw_bit s 3
  · rw [← busy_iff, ← show (statusw s).getLsbD 4 = busy s from statusw_bit s 4]
  · exact statusw_bit s 5
  · exact statusw_bit s 6
  · exact statusw_bit s 7

/-! Host reads -/

theorem step_hostRead {s : State} {r : HostReg} (hr : s.rst = false) (hh : s.hostRead = some r) : step s = hostReadStep r s := by
  simp [step, blockStep, hr, hh]

/-- A read before completion faults, but of STATUSW (log 6). -/
theorem hostReadStep_early {s : State} {r : HostReg} (hr : r ≠ .statusw) (hd : s.done = false) :
    hostReadStep r s = .fault .earlyRead := if_pos ⟨hr, hd⟩

/-- A read that may be made shows the value of its register. -/
theorem hostReadStep_shows {s : State} {r : HostReg} {v : HostValue} (hok : r = .statusw ∨ s.done = true)
    (hv : hostValue r s = some v) : hostReadStep r s = .next { s with hostRead := none, hostData := some v } := by
  have hearly : ¬ (r ≠ .statusw ∧ s.done = false) := by
    rintro ⟨hr, hd⟩
    rcases hok with hok | hok
    · exact hr hok
    · rw [hd] at hok; cases hok
  rw [hostReadStep, if_neg hearly, hv]

/-- A read that may be made of a register with no value faults (10_state.md R48). -/
theorem hostReadStep_noValue {s : State} {r : HostReg} (hd : s.done = true) (hv : hostValue r s = none) :
    hostReadStep r s = .fault .noValue := by
  have hearly : ¬ (r ≠ .statusw ∧ s.done = false) := by rintro ⟨-, h⟩; rw [hd] at h; cases h
  rw [hostReadStep, if_neg hearly, hv]

/-- After completion, a read of a register that holds `o` shows its value, and faults where there is none. -/
theorem step_hostRead_register {α : Type} {s : State} {r : HostReg} (hr : s.rst = false) (hh : s.hostRead = some r)
    (hd : s.done = true) (o : Option α) (f : α → HostValue) (hv : hostValue r s = o.map f) :
    (∀ v, o = some v → step s = .next { s with hostRead := none, hostData := some (f v) }) ∧
      (o = none → step s = .fault .noValue) := by
  rw [step_hostRead hr hh]
  constructor
  · rintro v rfl
    exact hostReadStep_shows (Or.inr hd) hv
  · rintro rfl
    exact hostReadStep_noValue hd hv

/-- Settles O4: STATUSW and the early read first, and then one register after the other. -/
theorem hostReads : Obligations.HostReads := by
  intro s r hr hh
  refine ⟨?_, fun hne hd => (step_hostRead hr hh).trans (hostReadStep_early hne hd), fun hd => ?_⟩
  · rintro rfl
    exact (step_hostRead hr hh).trans (hostReadStep_shows (Or.inl rfl) rfl)
  refine ⟨?_, ?_, ?_, ?_, ?_, ?_, ?_, ?_, ?_, ?_, ?_, ?_⟩
  · rintro rfl; exact step_hostRead_register hr hh hd s.res.frame _ rfl
  · rintro rfl; exact step_hostRead_register hr hh hd s.res.expected _ rfl
  · rintro rfl; exact step_hostRead_register hr hh hd s.res.dataBytes _ rfl
  · rintro rfl; exact step_hostRead_register hr hh hd s.res.outBytes _ rfl
  · rintro rfl; exact step_hostRead_register hr hh hd s.res.inBytes _ rfl
  · rintro rfl; exact step_hostRead_register hr hh hd s.res.elems _ rfl
  · rintro rfl; exact step_hostRead_register hr hh hd s.res.remsl _ rfl
  · rintro rfl; exact step_hostRead_register hr hh hd s.res.cls _ rfl
  · rintro rfl; exact step_hostRead_register hr hh hd s.res.code _ rfl
  · rintro rfl; exact step_hostRead_register hr hh hd s.res.plan _ rfl
  · rintro rfl; exact step_hostRead_register hr hh hd s.outlen _ rfl
  · rintro rfl
    constructor
    · intro n b hn hb
      exact (step_hostRead hr hh).trans (hostReadStep_shows (Or.inr hd) (by rw [hostValue, hn, Option.bind_some, hb]; rfl))
    · intro hn
      exact (step_hostRead hr hh).trans (hostReadStep_noValue hd (by rw [hostValue, hn]; rfl))

end Sys2Proof.Machine
end

section
/-! PROOF. The invariants of a run hold at reset (10_state.md R47). -/

namespace Sys2Proof.Machine

open Sys2Proof

/-- In IDLE no transfer is in progress, so what a run keeps of one asks nothing. -/
theorem runInv_of_idle {s : State} (hp : s.phase = .idle) (hc : ControlInv s) (hb : BufferInv s) (hf : FrameInv s) : RunInv s :=
  ⟨hc, hb, hf, fun h => absurd hp h, fun h => absurd hp h, fun h => absurd hp h⟩

theorem reset_bufferInv : BufferInv State.reset := by
  obtain ⟨ht, hr, ho⟩ := reset_wf
  exact ⟨ht, hr, ho, List.forall_mem_nil _, List.forall_mem_nil _, List.forall_mem_nil _⟩

theorem reset_frameInv : FrameInv State.reset := fun _ _ h => absurd h List.not_mem_nil

/-- Settles O8: the reset state is in IDLE, with empty buffers and no request issued. -/
theorem invariantsAtReset : Obligations.InvariantsAtReset :=
  ⟨runInv_of_idle rfl reset_controlInv reset_bufferInv reset_frameInv, Or.inl rfl⟩

end Sys2Proof.Machine
end

section
/-! PROOF. No value of an earlier command reaches the next one (10_state.md R45): what a command shows is a function of what acceptance leaves. -/

namespace Sys2Proof.Machine

open Sys2Proof

/-- The part of a state that acceptance writes (41_slicer_continuation.md R202), with EOS_HELD. Every other register,
which an earlier command can have left, has its reset value. -/
def visible (s : State) : State :=
  { State.reset with
    phase := s.phase, status := s.status, done := s.done, diagEcho := s.diagEcho, diagLegacy := s.diagLegacy
    diagContEnd := s.diagContEnd, errcode := s.errcode, latch := s.latch, outbuf := s.outbuf, outlen := s.outlen
    eosHeld := s.eosHeld, res := s.res, issued := s.issued, offered := s.offered }

@[simp] theorem visible_latch (s : State) : (visible s).latch = s.latch := rfl

/-- The visible part of the next state, where there is one. -/
def visibleAnswer : Answer → Option State
  | .next s => some (visible s)
  | .fault _ => none
  | .refused _ => none

/-- What `run` shows is a function of the visible part of the state it runs on. -/
def ReadsVisible (run : State → Answer) : Prop :=
  ∀ u, u.eosHeld = false → visibleAnswer (run u) = visibleAnswer (run (visible u))

theorem portOperands_congr {s s' : State} (h : s.offered = s'.offered) : portOperands s = portOperands s' := by
  rw [portOperands, portOperands, h]

/-- Acceptance in a ready state leaves nothing visible of what came before it. -/
theorem visible_accept {s s' : State} (w : CmdWord) (hs : Ready s) (hs' : Ready s') (ho : s.offered = s'.offered) :
    visible (accept w s) = visible (accept w s') := by
  simp only [visible, accept, portOperands_congr ho, ho, hs.2, hs'.2]

/-- A command that reads what acceptance left shows the same from two ready states. -/
theorem hostCommand_visible {s s' : State} {w : CmdWord} {run : State → Answer} (hrun : ReadsVisible run) (hs : Ready s)
    (hs' : Ready s') (ho : s.offered = s'.offered) : visibleAnswer (hostCommand w s run) = visibleAnswer (hostCommand w s' run) := by
  rw [hostCommand_idle hs.1, hostCommand_idle hs'.1, hrun (accept w s) hs.2, hrun (accept w s') hs'.2, visible_accept w hs hs' ho]

/-- With no EOS configuration held, `finish` shows the same of two states that show the same. -/
theorem finish_visible {u v : State} (e : Status) (h : visible u = visible v) (hu : u.eosHeld = false) :
    visibleAnswer (.next (finish e 0 u)) = visibleAnswer (.next (finish e 0 v)) := by
  have hv : v.eosHeld = false := (congrArg State.eosHeld h).symm.trans hu
  rw [finish_not_held hu, finish_not_held hv]
  exact congrArg (fun x => some (complete e 0 x)) h

/-- The start of a segment takes WT_SENT and WT_TOTAL from the registers before it, and nothing else (43_slice_wrap_tracker.md R282). -/
theorem startSegment_congr (d : Descriptor) (k : Kind) (base : Nat) {t t' : WtCounts} (hs : t.sent = t'.sent)
    (ht : t.total = t'.total) : startSegment d k base t = startSegment d k base t' := by
  unfold startSegment
  split
  · rfl
  · simp [setChunk, hs, ht]

/-- The start of the tracker takes nothing from the registers before it (43_slice_wrap_tracker.md R282). -/
theorem wtInit_congr (d : Descriptor) (k : Kind) (t t' : WtCounts) : wtInit d k t = wtInit d k t' := by
  unfold wtInit
  split
  · rfl
  · exact startSegment_congr d k 0 rfl rfl

section
variable {s s' : State} (hs : Ready s) (hs' : Ready s') (ho : s.offered = s'.offered)
include hs hs' ho

theorem encRd_visible (f : Fields) : visibleAnswer (execEncRd f s) = visibleAnswer (execEncRd f s') := by
  refine hostCommand_visible (fun u hu => ?_) hs hs' ho
  rw [visible_latch]
  cases encodeRead u.latch.desc f.kind with
  | error e => exact finish_visible e rfl hu
  | ok c => exact finish_visible .ok rfl hu

theorem encRdsl_visible (f : Fields) : visibleAnswer (execEncRdsl f s) = visibleAnswer (execEncRdsl f s') := by
  refine hostCommand_visible (fun u hu => ?_) hs hs' ho
  rw [visible_latch]
  cases encodeReadSlice u.latch.desc f.kind f.slice.toNat with
  | error e => exact finish_visible e rfl hu
  | ok c => exact finish_visible .ok rfl hu

theorem encWr_visible (f : Fields) : visibleAnswer (execEncWr f s) = visibleAnswer (execEncWr f s') := by
  refine hostCommand_visible (fun u hu => ?_) hs hs' ho
  rw [visible_latch]
  cases encodeWrite u.latch.desc f.kind u.latch.data f.slice.toNat with
  | error e => exact finish_visible e rfl hu
  | ok c => exact finish_visible .ok rfl hu

theorem decErr_visible (f : Fields) : visibleAnswer (execDecErr f s) = visibleAnswer (execDecErr f s') := by
  refine hostCommand_visible (fun u hu => ?_) hs hs' ho
  simp only [noteLegacy_eq, visible_latch]
  exact finish_visible .ok rfl hu

theorem illegal_visible (w : CmdWord) : visibleAnswer (execIllegal w s) = visibleAnswer (execIllegal w s') :=
  hostCommand_visible (fun _ hu => finish_visible .argument rfl hu) hs hs' ho

theorem planWr_visible (f : Fields) : visibleAnswer (execPlanWr f s) = visibleAnswer (execPlanWr f s') := by
  refine hostCommand_visible (fun u hu => ?_) hs hs' ho
  rw [visible_latch, wtInit_congr _ _ (wtCounts (visible u).wt) (wtCounts u.wt)]
  split
  · exact finish_visible .argument rfl hu
  cases writeOpcodes f.kind with
  | error e => exact finish_visible e rfl hu
  | ok ops =>
    cases wtInit u.latch.desc f.kind (wtCounts u.wt) with
    | error e => exact finish_visible e rfl hu
    | ok t =>
      dsimp only
      cases planLoop u.latch.desc f.kind ops.1 ops.2 (numElements u.latch.desc) t with
      | error e => exact finish_visible e rfl hu
      | ok r => exact finish_visible .ok rfl hu

theorem xferRd_visible (f : Fields) : visibleAnswer (execXferRd f s) = visibleAnswer (execXferRd f s') := by
  refine hostCommand_visible (fun u hu => ?_) hs hs' ho
  rw [visible_latch]
  cases encodeRead u.latch.desc f.kind with
  | error e => exact finish_visible e rfl hu
  | ok c =>
    dsimp only
    split
    · exact finish_visible .protocolLimit rfl hu
    · rw [withTx, withTx]
      cases memWrite Config.maxPacketSize [] 0 c.frame with
      | none => rfl
      | some m => rfl

theorem xferWr_visible (f : Fields) : visibleAnswer (execXferWr f s) = visibleAnswer (execXferWr f s') := by
  refine hostCommand_visible (fun u hu => ?_) hs hs' ho
  rw [visible_latch, wtInit_congr _ _ (wtCounts (visible u).wt) (wtCounts u.wt)]
  split
  · exact finish_visible .argument rfl hu
  split
  · exact finish_visible .argument rfl hu
  cases writeOpcodes f.kind with
  | error e => exact finish_visible e rfl hu
  | ok ops =>
    cases wtInit u.latch.desc f.kind (wtCounts u.wt) with
    | error e => exact finish_visible e rfl hu
    | ok t => rfl

/-- A host command shows the same from two ready states with the same commands offered. -/
theorem exec_command_visible {i : Instr} {w : CmdWord} (hw : i.command = some w) :
    visibleAnswer (exec i s) = visibleAnswer (exec i s') := by
  cases i with
  | encRd f => exact encRd_visible hs hs' ho f
  | encRdsl f => exact encRdsl_visible hs hs' ho f
  | encWr f => exact encWr_visible hs hs' ho f
  | decErr f => exact decErr_visible hs hs' ho f
  | planWr f => exact planWr_visible hs hs' ho f
  | xferRd f => exact xferRd_visible hs hs' ho f
  | xferWr f => exact xferWr_visible hs hs' ho f
  | illegal w => exact illegal_visible hs hs' ho w
  | rdShortF64 | rdLongF64 | rdslF64 | rdShortI32 | rdLongI32 | rdslI32 | wrShortF64 | wrLongF64 | wrShortI32 | wrLongI32 => cases hw

end

/-- A raised error does not leave a command waiting for the response to EosSave. -/
theorem raise_phase_ne (e : Status) (s : State) : (raise e s).phase ≠ .wEosSave := by
  rw [raise_eq, finish_phase]
  split <;> decide

/-- XFER_RD that issues its first request: the frame it has marshalled (41_slicer_continuation.md R204). -/
theorem xferRd_started {f : Fields} {s t : State} (hs : Ready s) (hp : t.phase = .wEosSave) (h : execXferRd f s = .next t) :
    ∃ c, encodeRead (portOperands s).desc f.kind = .ok c ∧
      t = enterRaw { startRead c (accept (commandWord 6 f) s) with
        txbuf := Memory.store [] 0 c.frame, txlen := BitVec.ofNat 16 c.frame.length } := by
  rcases execXferRd_cases h with ⟨hne, -⟩ | ⟨-, ⟨e, rfl⟩ | ⟨c, hc, -, rfl⟩⟩
  · exact absurd hs.1 hne
  · exact absurd hp (raise_phase_ne e _)
  · exact ⟨c, hc, rfl⟩

/-- XFER_WR that issues its first request: the tracker it has started (41_slicer_continuation.md R208). -/
theorem xferWr_started {f : Fields} {s t : State} (hs : Ready s) (hp : t.phase = .wEosSave) (h : execXferWr f s = .next t) :
    ∃ x, wtInit (portOperands s).desc f.kind (wtCounts s.wt) = .ok x ∧ t.wt = wtRegs x := by
  rcases execXferWr_cases h with ⟨hne, -⟩ | ⟨-, ⟨e, rfl⟩ | ⟨_, x, -, -, -, hx, rfl⟩⟩
  · exact absurd hs.1 hne
  · exact absurd hp (raise_phase_ne e _)
  · exact ⟨x, hx, rfl⟩

/-- Settles O60: both runs show the same, and a transfer that issues its first request has written the registers its rest reads from the
operands at the port. -/
theorem earlierValuesDoNotMatter : Obligations.EarlierValuesDoNotMatter := by
  intro i w s s' t t' hw hs hs' ho h h'
  have hv : visible t = visible t' := by
    have hx := exec_command_visible hs hs' ho hw
    rw [h, h'] at hx
    exact Option.some.inj hx
  have hshown {α : Type} (g : State → α) : g (visible t) = g (visible t') := congrArg g hv
  have hphase : t.phase = t'.phase := hshown State.phase
  refine ⟨hshown statusw, hshown State.res, hshown State.outbuf, hshown State.outlen, hshown State.issued, hphase, hshown State.latch,
    fun hp => ⟨?_, ?_⟩⟩
  · rintro f rfl
    obtain ⟨c, hc, rfl⟩ := xferRd_started hs hp h
    obtain ⟨c', hc', rfl⟩ := xferRd_started hs' (hphase ▸ hp) h'
    rw [portOperands_congr ho, hc'] at hc
    cases hc
    exact ⟨rfl, rfl, rfl⟩
  · rintro f rfl
    obtain ⟨x, hx, hwt⟩ := xferWr_started hs hp h
    obtain ⟨x', hx', hwt'⟩ := xferWr_started hs' (hphase ▸ hp) h'
    rw [portOperands_congr ho, wtInit_congr _ _ _ (wtCounts s'.wt), hx'] at hx
    cases hx
    rw [hwt, hwt']

end Sys2Proof.Machine
end

section
/-! PROOF. The rules of the command latches and the three buffers (10_state.md R32, 20_memory.md R70 to R72): the operations that leave them
alone, and the writes that keep the buffers canonical and within capacity. -/

namespace Sys2Proof.Machine

open Sys2Proof

/-- `t` has the command latches and the contents of the three buffers that `s` has. -/
def KeepsData (s t : State) : Prop :=
  t.latch = s.latch ∧ t.txbuf = s.txbuf ∧ t.rxbuf = s.rxbuf ∧ t.outbuf = s.outbuf

theorem KeepsData.trans {s t u : State} (h : KeepsData s t) (h' : KeepsData t u) : KeepsData s u := by
  obtain ⟨hl, ht, hr, ho⟩ := h
  obtain ⟨hl', ht', hr', ho'⟩ := h'
  exact ⟨hl'.trans hl, ht'.trans ht, hr'.trans hr, ho'.trans ho⟩

theorem KeepsData.latchOp_eq {s t : State} (h : KeepsData s t) : latchOp t = latchOp s := by
  rw [latchOp, latchOp, h.1]

theorem KeepsData.bufferInv {s t : State} (h : KeepsData s t) (hb : BufferInv s) : BufferInv t := by
  obtain ⟨-, ht, hr, ho⟩ := h
  unfold BufferInv
  rw [ht, hr, ho]
  exact hb

theorem finish_keepsData (st : Status) (c : Nat) (s : State) : KeepsData s (finish st c s) :=
  ⟨finish_latch st c s, finish_txbuf st c s, finish_rxbuf st c s, finish_outbuf st c s⟩

theorem raise_keepsData (e : Status) (s : State) : KeepsData s (raise e s) := finish_keepsData e 0 s

theorem noteContEnd_keepsData (s : State) : KeepsData s (noteContEnd s) :=
  ⟨noteContEnd_latch s, noteContEnd_txbuf s, noteContEnd_rxbuf s, noteContEnd_outbuf s⟩

theorem noteLegacy_keepsData (l : Bool) (s : State) : KeepsData s (noteLegacy l s) :=
  ⟨noteLegacy_latch l s, noteLegacy_txbuf l s, noteLegacy_rxbuf l s, noteLegacy_outbuf l s⟩

theorem noteEcho_keepsData (b : Byte) (s : State) : KeepsData s (noteEcho b s) :=
  ⟨noteEcho_latch b s, noteEcho_txbuf b s, noteEcho_rxbuf b s, noteEcho_outbuf b s⟩

theorem onEosSave_keepsData (cfg : EosCfg) (st : XStatus) (s : State) : KeepsData s (onEosSave cfg st s) := by
  unfold onEosSave
  split
  · exact raise_keepsData _ s
  · exact ⟨rfl, rfl, rfl, rfl⟩

theorem onEosClear_keepsData (st : XStatus) (s : State) : KeepsData s (onEosClear st s) := by
  unfold onEosClear
  split
  · exact raise_keepsData _ s
  · exact ⟨rfl, rfl, rfl, rfl⟩

theorem onFlush_keepsData (st : XStatus) (s : State) : KeepsData s (onFlush st s) := by
  unfold onFlush
  split
  · exact raise_keepsData _ s
  · exact ⟨rfl, rfl, rfl, rfl⟩

theorem onWritten_keepsData (st : XStatus) (s : State) : KeepsData s (onWritten st s) := by
  unfold onWritten
  split
  · exact raise_keepsData _ s
  · split
    · exact ⟨rfl, rfl, rfl, rfl⟩
    · exact ⟨rfl, rfl, rfl, rfl⟩

theorem continueRead_keepsData (s : State) : KeepsData s (continueRead s) := by
  unfold continueRead
  split
  · exact (noteContEnd_keepsData s).trans (finish_keepsData _ _ _)
  · split
    · exact raise_keepsData _ s
    · exact ⟨rfl, rfl, rfl, rfl⟩

theorem chunkAcknowledged_keepsData (echo : Byte) (s : State) : KeepsData s (chunkAcknowledged echo s) := by
  have hack : KeepsData s (countAcknowledged (noteEcho echo s)) := noteEcho_keepsData echo s
  unfold chunkAcknowledged
  dsimp only
  split
  · exact hack.trans (finish_keepsData _ _ _)
  · split
    · exact hack.trans (raise_keepsData _ _)
    · exact hack

theorem onAck_keepsData (b : List Byte) (st : XStatus) (s : State) : KeepsData s (onAck b st s) := by
  unfold onAck
  dsimp only
  split
  · exact raise_keepsData _ { s with phase := .exec }
  · split
    · exact raise_keepsData _ { s with phase := .exec }
    · split
      · exact ⟨rfl, rfl, rfl, rfl⟩
      · split
        · exact raise_keepsData _ { s with phase := .exec }
        · exact chunkAcknowledged_keepsData _ { s with phase := .exec }

/-- All that a response can do to the latches and the buffers: nothing, or a reply that fits replaces RXBUF, and then its data may be
appended to OUTBUF where they fit (41_slicer_continuation.md R204, R210). -/
theorem handle_data {r : Response} {s t : State} (h : handle r s = .next t) :
    KeepsData s t ∨
    (∃ b, b.length ≤ 1405 ∧ KeepsData (received b s) t) ∨
    (∃ b, b.length ≤ 1405 ∧ s.rd.bytesRead.toNat + (bytesFrom b 4 (4 + (s.rd.expected.toNat - 5))).length ≤ 14000 ∧
      KeepsData (appended b s) t) := by
  rcases handle_cases h with ⟨cfg, st, -, -, -, rfl⟩ | ⟨st, -, -, -, rfl⟩ | ⟨st, -, -, -, rfl⟩ | ⟨st, -, -, rfl⟩ |
    ⟨b, st, -, -, -, ht⟩ | ⟨b, st, -, -, -, rfl⟩ | ⟨b, st, -, -, -, ht⟩ | ⟨st, -, -, -, rfl⟩
  · exact Or.inl (onEosSave_keepsData cfg st s)
  · exact Or.inl (onEosClear_keepsData st s)
  · exact Or.inl (onFlush_keepsData st s)
  · exact Or.inl (onWritten_keepsData st s)
  · rcases onData_cases ht with ⟨-, rfl⟩ | ⟨-, hb, ⟨code, -, rfl⟩ | ⟨-, rfl⟩ | ⟨-, -, ho, rfl⟩⟩
    · exact Or.inl (raise_keepsData _ s)
    · exact Or.inr (Or.inl ⟨b, hb, finish_keepsData _ _ _⟩)
    · exact Or.inr (Or.inl ⟨b, hb, raise_keepsData _ _⟩)
    · exact Or.inr (Or.inr ⟨b, hb, ho, continueRead_keepsData _⟩)
  · exact Or.inl (onAck_keepsData b st s)
  · rcases onTail_cases ht with ⟨-, rfl⟩ | ⟨-, hb, e, code, rfl, -⟩
    · exact Or.inl (raise_keepsData _ { s with phase := .exec })
    · exact Or.inr (Or.inl ⟨s.ackHead ++ b, hb, (noteLegacy_keepsData _ _).trans (finish_keepsData _ _ _)⟩)
  · exact Or.inl ⟨rfl, rfl, rfl, rfl⟩

/-- No response changes the command latched. -/
theorem handle_latchOp {r : Response} {s t : State} (h : handle r s = .next t) : latchOp t = latchOp s := by
  rcases handle_data h with hk | ⟨b, -, hk⟩ | ⟨b, -, -, hk⟩
  · exact hk.latchOp_eq
  · exact hk.latchOp_eq
  · exact hk.latchOp_eq

/-- TXBUF replaced by a frame that fits (20_memory.md R71). -/
theorem BufferInv.replaceTx {s : State} {b : List Byte} (h : BufferInv s) (hb : b.length ≤ 1405) :
    BufferInv { s with txbuf := Memory.store [] 0 b } := by
  obtain ⟨-, hr, ho, -, hrc, hoc⟩ := h
  obtain ⟨hw, hc⟩ := store_empty hb
  exact ⟨hw, hr, ho, hc, hrc, hoc⟩

/-- RXBUF replaced by a reply that fits (20_memory.md R71). -/
theorem BufferInv.replaceRx {s : State} {b : List Byte} (h : BufferInv s) (hb : b.length ≤ 1405) :
    BufferInv { s with rxbuf := Memory.store [] 0 b } := by
  obtain ⟨ht, -, ho, htc, -, hoc⟩ := h
  obtain ⟨hw, hc⟩ := store_empty hb
  exact ⟨ht, hw, ho, htc, hc, hoc⟩

/-- Bytes written to OUTBUF where they fit (20_memory.md R72). -/
theorem BufferInv.storeOut {s : State} {a : Nat} {b : List Byte} (h : BufferInv s) (hb : a + b.length ≤ 14000) :
    BufferInv { s with outbuf := Memory.store s.outbuf a b } := by
  obtain ⟨ht, hr, ho, htc, hrc, hoc⟩ := h
  exact ⟨ht, hr, store_wf ho a b, htc, hrc, memWrite_within hoc (memWrite_isSome hb)⟩

/-- Acceptance empties OUTBUF and leaves the other buffers (41_slicer_continuation.md R202). -/
theorem accept_bufferInv (w : CmdWord) {s : State} (h : BufferInv s) : BufferInv (accept w s) := by
  obtain ⟨ht, hr, -, htc, hrc, -⟩ := h
  exact ⟨ht, hr, List.Pairwise.nil, htc, hrc, List.forall_mem_nil _⟩

end Sys2Proof.Machine
end

section
/-! PROOF. Every step keeps the buffers canonical and within capacity (20_memory.md R70 to R72). -/

namespace Sys2Proof.Machine

open Sys2Proof

/-- A host command is held by the host, or OUTBUF is emptied and a read's first frame may be marshalled into TXBUF. -/
theorem exec_command_bufferInv {i : Instr} {w : CmdWord} {s t : State} (hw : i.command = some w) (h : BufferInv s)
    (hx : exec i s = .next t) : BufferInv t := by
  by_cases hr : ∃ f, i = .xferRd f
  · obtain ⟨f, rfl⟩ := hr
    have hacc := accept_bufferInv (commandWord 6 f) h
    rcases execXferRd_cases hx with ⟨-, rfl⟩ | ⟨-, ⟨e, rfl⟩ | ⟨c, hc, -, rfl⟩⟩
    · exact h
    · exact (raise_keepsData e _).bufferInv hacc
    · exact hacc.replaceTx (encodeRead_length hc)
  by_cases hwr : ∃ f, i = .xferWr f
  · obtain ⟨f, rfl⟩ := hwr
    have hacc := accept_bufferInv (commandWord 7 f) h
    rcases execXferWr_cases hx with ⟨-, rfl⟩ | ⟨-, ⟨e, rfl⟩ | ⟨_, x, -, -, -, -, rfl⟩⟩
    · exact h
    · exact (raise_keepsData e _).bufferInv hacc
    · exact hacc
  have hacc := accept_bufferInv w h
  rcases pure_cases hw ⟨fun f hi => hr ⟨f, hi⟩, fun f hi => hwr ⟨f, hi⟩⟩ hx with ⟨-, rfl⟩ | ⟨-, e, r, l, x, rfl⟩
  · exact h
  · exact (finish_keepsData e 0 _).bufferInv hacc

/-- Every frame of a transfer fits TXBUF (20_memory.md R71). -/
theorem runWire_bufferInv {s t : State} (hp : s.phase = .exec) (h : BufferInv s) (hr : runWire s = .next t) : BufferInv t := by
  rcases runWire_cases hp hr with ⟨c, -, hc, rfl⟩ | ⟨c, -, hc, rfl⟩ | ⟨e, -, rfl⟩
  · obtain ⟨-, -, -, hlen, -, -⟩ := nextRead_ok hc
    exact h.replaceTx hlen
  · exact h.replaceTx (encodeWrite_length hc)
  · exact (raise_keepsData e s).bufferInv h

theorem handle_bufferInv {r : Response} {s t : State} (h : BufferInv s) (ht : handle r s = .next t) : BufferInv t := by
  rcases handle_data ht with hk | ⟨b, hb, hk⟩ | ⟨b, hb, ho, hk⟩
  · exact hk.bufferInv h
  · exact hk.bufferInv (h.replaceRx hb)
  · exact hk.bufferInv ((h.replaceRx hb).storeOut ho)

theorem sequence_bufferInv {s t : State} (h : BufferInv s) (ht : sequence s = .next t) : BufferInv t := by
  rcases sequence_cases ht with ⟨-, -, rfl⟩ | ⟨o, _, -, -, -, hx⟩ | ⟨hp, hx⟩ | ⟨-, -, -, rfl⟩ |
    ⟨r, rest, u, -, -, -, hu, ⟨-, rfl⟩ | ⟨hp, hx⟩⟩
  · exact h
  · obtain ⟨w, hw⟩ := decodeCommand_command o.cmdw
    exact exec_command_bufferInv hw h hx
  · exact runWire_bufferInv hp h hx
  · exact h
  · exact handle_bufferInv (s := { s with responses := rest }) h hu
  · exact runWire_bufferInv hp (handle_bufferInv (s := { s with responses := rest }) h hu) hx

/-- Settles O6: by cases on the step, each write of a buffer being a replacement that fits or an append within the capacity. -/
theorem buffersKept : Obligations.BuffersKept := by
  intro s t h ht
  rcases step_cases ht with ⟨-, rfl⟩ | ⟨r, v, -, -, -, rfl⟩ | ⟨-, ht⟩
  · exact reset_bufferInv
  · exact h
  · exact sequence_bufferInv h ht

end Sys2Proof.Machine
end

section
/-! PROOF. What can stop a step: no instruction is refused (30_encoding.md R101, R102, R117), and in a run every reply fits its buffer
(20_memory.md R70, 41_slicer_continuation.md R204, R210) and a transfer always has a frame to send. -/

namespace Sys2Proof.Machine

open Sys2Proof

/-- The answer is a next state or a fault of `P`: no refusal, and no other fault. -/
def StopsOnly (P : Fault → Prop) : Answer → Prop
  | .next _ => True
  | .fault e => P e
  | .refused _ => False

theorem StopsOnly.of_next {P : Fault → Prop} {a : Answer} (h : ∃ t, a = .next t) : StopsOnly P a := by
  obtain ⟨t, rfl⟩ := h
  exact True.intro

/-- A host read stops for a read the host may not make, and for nothing else (70_reset_and_hazards.md R343). -/
theorem hostReadStep_stopsOnly {P : Fault → Prop} (hP : ∀ e, outsideFault e = true → P e) (r : HostReg) (s : State) :
    StopsOnly P (hostReadStep r s) := by
  unfold hostReadStep
  split
  · exact hP .earlyRead rfl
  · split
    · exact True.intro
    · exact hP .noValue rfl

/-- A host command that always answers after acceptance always answers. -/
theorem hostCommand_next {w : CmdWord} {s : State} {run : State → Answer} (h : ∃ t, run (accept w s) = .next t) :
    ∃ t, hostCommand w s run = .next t := by
  by_cases hp : s.phase = .idle
  · rw [hostCommand_idle hp]; exact h
  · exact ⟨s, hostCommand_busy hp⟩

/-- The first frame of a read fits TXBUF, so XFER_RD always answers (41_slicer_continuation.md R204). -/
theorem execXferRd_next (f : Fields) (s : State) : ∃ t, execXferRd f s = .next t := by
  unfold execXferRd
  refine hostCommand_next ?_
  split
  · exact ⟨_, rfl⟩
  · rename_i c hc
    split
    · exact ⟨_, rfl⟩
    · rw [withTx_fits (encodeRead_length hc)]; exact ⟨_, rfl⟩

theorem execXferWr_next (f : Fields) (s : State) : ∃ t, execXferWr f s = .next t := by
  unfold execXferWr
  refine hostCommand_next ?_
  dsimp only
  split
  · exact ⟨_, rfl⟩
  · split
    · exact ⟨_, rfl⟩
    · split
      · exact ⟨_, rfl⟩
      · split
        · exact ⟨_, rfl⟩
        · exact ⟨_, rfl⟩

theorem execPlanWr_next (f : Fields) (s : State) : ∃ t, execPlanWr f s = .next t := by
  unfold execPlanWr
  refine hostCommand_next ?_
  split
  · exact ⟨_, rfl⟩
  · split
    · exact ⟨_, rfl⟩
    · split
      · exact ⟨_, rfl⟩
      · split
        · exact ⟨_, rfl⟩
        · exact ⟨_, rfl⟩

/-- Every host command answers a next state: none is refused and none faults (30_encoding.md R101, R102). -/
theorem exec_command_next {i : Instr} {w : CmdWord} (hw : i.command = some w) (s : State) : ∃ t, exec i s = .next t := by
  cases i with
  | encRd f =>
    unfold exec execEncRd
    refine hostCommand_next ?_
    split
    · exact ⟨_, rfl⟩
    · exact ⟨_, rfl⟩
  | encRdsl f =>
    unfold exec execEncRdsl
    refine hostCommand_next ?_
    split
    · exact ⟨_, rfl⟩
    · exact ⟨_, rfl⟩
  | encWr f =>
    unfold exec execEncWr
    refine hostCommand_next ?_
    split
    · exact ⟨_, rfl⟩
    · exact ⟨_, rfl⟩
  | decErr f =>
    unfold exec execDecErr
    exact hostCommand_next ⟨_, rfl⟩
  | planWr f => exact execPlanWr_next f s
  | xferRd f => exact execXferRd_next f s
  | xferWr f => exact execXferWr_next f s
  | illegal w' =>
    unfold exec execIllegal
    exact hostCommand_next ⟨_, rfl⟩
  | rdShortF64 => cases hw
  | rdLongF64 => cases hw
  | rdslF64 => cases hw
  | rdShortI32 => cases hw
  | rdLongI32 => cases hw
  | rdslI32 => cases hw
  | wrShortF64 => cases hw
  | wrLongF64 => cases hw
  | wrShortI32 => cases hw
  | wrLongI32 => cases hw

/-- An offer stops a step only when the host port cannot carry it (30_encoding.md R104). -/
theorem fetchCommand_stopsOnly {P : Fault → Prop} (hP : ∀ e, outsideFault e = true → P e) (s : State) :
    StopsOnly P (fetchCommand s) := by
  unfold fetchCommand
  split
  · exact True.intro
  · rename_i o _ _
    split
    · obtain ⟨w, hw⟩ := decodeCommand_command o.cmdw
      exact .of_next (exec_command_next hw s)
    · exact hP .badOffer rfl

/-- In EXEC of a transfer a frame goes out, or its encoder's error is raised (41_slicer_continuation.md R204, R208). -/
theorem runWire_transfer_next {s : State} (hp : s.phase = .exec) (hl : latchOp s = 6 ∨ latchOp s = 7) :
    ∃ t, runWire s = .next t := by
  rcases hl with hl | hl
  · cases hn : nextRead s with
    | ok c => exact ⟨_, runWire_read hp hl hn⟩
    | error e => exact ⟨raise e s, by simp [runWire, selectWire, hl, hn]⟩
  · cases hn : nextWrite s with
    | ok c => exact ⟨_, runWire_write hp hl hn⟩
    | error e => exact ⟨raise e s, by simp [runWire, selectWire, hl, hn]⟩

theorem runWire_no_transfer {s : State} (hl : ¬ (latchOp s = 6 ∨ latchOp s = 7)) : runWire s = .fault .noFrame := by
  obtain ⟨h6, h7⟩ := not_or.mp hl
  rw [runWire, selectWire, if_neg h6, if_neg h7]

/-- EXEC stops only with no transfer latched. -/
theorem runWire_stopsOnly {P : Fault → Prop} {s : State} (hp : s.phase = .exec)
    (hl : (latchOp s = 6 ∨ latchOp s = 7) ∨ P .noFrame) : StopsOnly P (runWire s) := by
  by_cases ht : latchOp s = 6 ∨ latchOp s = 7
  · exact .of_next (runWire_transfer_next hp ht)
  · rw [runWire_no_transfer ht]; exact hl.resolve_left ht

/-! Responses -/

theorem withRx_stopsOnly {P : Fault → Prop} {b : List Byte} {s : State} {k : State → Answer} (hb : b.length ≤ 1405 ∨ P .bufferIndex)
    (hk : StopsOnly P (k { s with rxbuf := Memory.store [] 0 b, rxlen := BitVec.ofNat 16 b.length })) :
    StopsOnly P (withRx b s k) := by
  by_cases hl : b.length ≤ 1405
  · rw [withRx_fits hl]; exact hk
  · have hf : withRx b s k = .fault .bufferIndex := by simp [withRx, memWrite, hl]
    rw [hf]; exact hb.resolve_left hl

theorem withOut_stopsOnly {P : Fault → Prop} {a : Nat} {b : List Byte} {s : State} {k : State → Answer}
    (hb : a + b.length ≤ 14000 ∨ P .bufferIndex) (hk : StopsOnly P (k { s with outbuf := Memory.store s.outbuf a b })) :
    StopsOnly P (withOut a b s k) := by
  by_cases hl : a + b.length ≤ 14000
  · rw [withOut_fits hl]; exact hk
  · have hf : withOut a b s k = .fault .bufferIndex := by simp [withOut, memWrite, hl]
    rw [hf]; exact hb.resolve_left hl

theorem bytesFrom_length_le (b : List Byte) (i n : Nat) : (bytesFrom b i (i + n)).length ≤ n := by
  rw [bytesFrom, List.length_take, Nat.add_sub_cancel_left]
  exact Nat.min_le_left _ _

/-- The replies the phase can wait for fit: a data reply RXBUF and its data OUTBUF, the head of a non-acknowledged one RXBUF. -/
def RepliesFit (s : State) : Prop :=
  (s.phase = .wRxData → s.rd.expected.toNat ≤ 1405 ∧ s.rd.bytesRead.toNat + (s.rd.expected.toNat - 5) ≤ 14000) ∧
  (s.phase = .wRxTail → s.ackHead.length ≤ 1405)

theorem appendReply_stopsOnly {P : Fault → Prop} {b : List Byte} {s : State}
    (ho : s.rd.bytesRead.toNat + (s.rd.expected.toNat - 5) ≤ 14000 ∨ P .bufferIndex) : StopsOnly P (appendReply b s) := by
  unfold appendReply
  refine withOut_stopsOnly (ho.imp_left fun ho => ?_) True.intro
  exact Nat.le_trans (Nat.add_le_add_left (bytesFrom_length_le b 4 _) _) ho

theorem onData_stopsOnly {P : Fault → Prop} {b : List Byte} {st : XStatus} {s : State}
    (hb : (st = .ok → b.length ≤ 1405) ∨ P .bufferIndex)
    (ho : s.rd.bytesRead.toNat + (s.rd.expected.toNat - 5) ≤ 14000 ∨ P .bufferIndex) : StopsOnly P (onData b st s) := by
  unfold onData
  split
  · exact True.intro
  · rename_i hst
    refine withRx_stopsOnly (hb.imp_left fun hb => hb (not_not.mp hst)) ?_
    split
    · exact True.intro
    · exact True.intro
    · split
      · exact appendReply_stopsOnly ho
      · exact True.intro

theorem onTail_stopsOnly {P : Fault → Prop} {b : List Byte} {st : XStatus} {s : State}
    (hb : (st ≠ .error → (s.ackHead ++ b).length ≤ 1405) ∨ P .bufferIndex) : StopsOnly P (onTail b st s) := by
  unfold onTail
  dsimp only
  split
  · exact True.intro
  · rename_i hst
    refine withRx_stopsOnly (hb.imp_left fun hb => hb hst) ?_
    dsimp only
    split <;> exact True.intro

/-- A response whose bytes are used has at most as many as were asked for (41_slicer_continuation.md R200). -/
theorem readShape_length_le {n : Nat} {b : List Byte} {st : XStatus} (h : handle.readShape n b st = true) (hst : st ≠ .error) :
    b.length ≤ n := by
  cases st with
  | ok => exact Nat.le_of_eq (of_decide_eq_true h)
  | timeout => exact Nat.le_of_lt (of_decide_eq_true h)
  | error => exact absurd rfl hst

/-- A response stops a step only when its shape is none of R200, if the replies waited for fit. -/
theorem handle_stopsOnly {P : Fault → Prop} (hP : ∀ e, outsideFault e = true → P e) (r : Response) {s : State}
    (hf : RepliesFit s ∨ P .bufferIndex) : StopsOnly P (handle r s) := by
  have hshape : P .transportShape := hP .transportShape rfl
  unfold handle
  split
  · split
    · exact hshape
    · exact True.intro
  · split
    · exact hshape
    · exact True.intro
  · split
    · exact hshape
    · exact True.intro
  · exact True.intro
  · rename_i b st hp
    split
    · rename_i hs
      have hdata := hf.imp_left fun ⟨hdata, _⟩ => hdata hp
      refine onData_stopsOnly (hdata.imp_left fun ⟨hreply, _⟩ hst => ?_) (hdata.imp_left fun ⟨_, hout⟩ => hout)
      exact Nat.le_trans (readShape_length_le hs (by rw [hst]; decide)) hreply
    · exact hshape
  · split
    · exact True.intro
    · exact hshape
  · rename_i b st hp
    split
    · rename_i hs
      refine onTail_stopsOnly (hf.imp_left fun ⟨_, htail⟩ hst => ?_)
      have hhead : s.ackHead.length ≤ 1405 := htail hp
      have hrest : b.length ≤ 1405 - s.ackHead.length := readShape_length_le hs hst
      rw [List.length_append]
      omega
    · exact hshape
  · split
    · exact hshape
    · exact True.intro
  · exact hshape

/-- What a response leads to stops the step only as the response or the frame after it does. -/
theorem settle_stopsOnly {P : Fault → Prop} {a : Answer} (ha : StopsOnly P a)
    (hw : ∀ t, a = .next t → t.phase = .exec → StopsOnly P (runWire t)) : StopsOnly P (settle a) := by
  cases a with
  | next t =>
    by_cases hp : t.phase = .exec
    · rw [settle_of_phase_exec hp]; exact hw t rfl hp
    · rw [settle_of_phase_ne_exec hp]; exact True.intro
  | fault e => exact ha
  | refused r => exact ha

/-- The sequencer stops only for a fault from outside, if the replies waited for fit and a block that is not idle runs a transfer. -/
theorem sequence_stopsOnly {P : Fault → Prop} {s : State} (hP : ∀ e, outsideFault e = true → P e)
    (hf : RepliesFit s ∨ P .bufferIndex) (ht : TransferInv s ∨ P .noFrame) : StopsOnly P (sequence s) := by
  by_cases hidle : s.phase = .idle
  · have hs : sequence s = fetchCommand s := by simp only [sequence, hidle]
    rw [hs]; exact fetchCommand_stopsOnly hP s
  have hl : (latchOp s = 6 ∨ latchOp s = 7) ∨ P .noFrame := ht.imp_left fun ht => ht hidle
  by_cases hexec : s.phase = .exec
  · rw [sequence_exec hexec]; exact runWire_stopsOnly hexec hl
  cases hr : s.responses with
  | nil => rw [sequence_waiting hidle hexec, respond, hr, settle_of_phase_ne_exec hexec]; exact True.intro
  | cons r rest =>
    rw [sequence_response hidle hexec hr]
    refine settle_stopsOnly (handle_stopsOnly (s := { s with responses := rest }) hP r hf) fun t hu hp => runWire_stopsOnly hp ?_
    rw [handle_latchOp hu]; exact hl

theorem step_stopsOnly {P : Fault → Prop} {s : State} (hP : ∀ e, outsideFault e = true → P e)
    (hf : RepliesFit s ∨ P .bufferIndex) (ht : TransferInv s ∨ P .noFrame) : StopsOnly P (step s) := by
  unfold step blockStep
  split
  · exact True.intro
  · split
    · exact hostReadStep_stopsOnly hP _ s
    · exact sequence_stopsOnly hP hf ht

/-- A data reply is at most a whole packet (40_frame_codec.md R155). -/
theorem replySize_le (db k : Nat) : replySize db k ≤ 1405 := by
  unfold replySize
  simp only [Config.maxPacketData, Config.maxPacketSize]
  split <;> omega

/-- In a run the replies waited for fit: slice 9 ends at byte 14000, and a non-acknowledged reply begins with at most two bytes
(41_slicer_continuation.md R204, R209, R210). -/
theorem RunInv.repliesFit {s : State} (h : RunInv s) : RepliesFit s := by
  obtain ⟨-, -, -, htransfer, hread, hwrite⟩ := h
  constructor
  · intro hp
    have hidle : s.phase ≠ .idle := by rw [hp]; decide
    rcases htransfer hidle with hl | hl
    · obtain ⟨-, -, -, -, -, -, hslice, hprogress⟩ := hread hidle hl
      rw [hp] at hprogress
      obtain ⟨hgot, -, hexpected, -⟩ := hprogress
      have := replySize_le (dataBytes s.latch.desc (latchKind s)) s.rd.slice.toNat
      omega
    · obtain ⟨hne, -⟩ := hwrite hidle hl
      exact absurd hp hne
  · intro hp
    have hidle : s.phase ≠ .idle := by rw [hp]; decide
    rcases htransfer hidle with hl | hl
    · obtain ⟨-, -, -, -, -, -, -, hprogress⟩ := hread hidle hl
      rw [hp] at hprogress
      exact hprogress.elim
    · obtain ⟨-, hhead, -⟩ := hwrite hidle hl
      obtain ⟨-, htwo⟩ := hhead hp
      omega

theorem RunInv.transferInv {s : State} (h : RunInv s) : TransferInv s := by
  obtain ⟨-, -, -, ht, -⟩ := h
  exact ht

/-- Settles O10: `step_stopsOnly` with every fault allowed, and with those from outside only, which the run invariant permits. -/
theorem noFaultFromInside : Obligations.NoFaultFromInside := by
  constructor
  · intro s r hr
    have h : StopsOnly (fun _ => True) (step s) := step_stopsOnly (fun _ _ => True.intro) (Or.inr True.intro) (Or.inr True.intro)
    rw [hr] at h
    exact h
  · intro s e hinv he
    have h : StopsOnly (fun e => outsideFault e = true) (step s) :=
      step_stopsOnly (fun _ ho => ho) (Or.inl hinv.repliesFit) (Or.inl hinv.transferInv)
    rw [he] at h
    exact h

end Sys2Proof.Machine
end

section
/-! PROOF. Decoding and encoding agree (30_encoding.md R100 to R102, R117): command words and wire opcodes. -/

namespace Sys2Proof

open Sys2Proof.Machine

/-! Command words -/

theorem nonzero_op_cases : ∀ op : BitVec 3, op ≠ 0 → op = 1 ∨ op = 2 ∨ op = 3 ∨ op = 4 ∨ op = 5 ∨ op = 6 ∨ op = 7 := by decide

/-- A legal word is spelt by an `OP` that is not 0 and by the other fields (30_encoding.md R102). -/
theorem legal_word_spelt {w : CmdWord} (h : illegalWord w = false) : ∃ op f, op ≠ 0 ∧ w = commandWord op f := by
  refine ⟨cmdOp w, cmdFields w, ?_, (commandWord_fields w h).symm⟩
  simp only [illegalWord, Bool.or_eq_false_iff, beq_eq_false_iff_ne] at h
  exact h.1

theorem decodeCommand_illegal {w : CmdWord} (h : illegalWord w = true) : decodeCommand w = .illegal w := if_pos h

/-- A legal word decodes to a well-formed command that has that word, and to no illegal instruction. -/
theorem decodeCommand_legal {w : CmdWord} (h : illegalWord w = false) :
    (decodeCommand w).wf = true ∧ (decodeCommand w).command = some w ∧ decodeCommand w ≠ .illegal w := by
  obtain ⟨op, f, hop, rfl⟩ := legal_word_spelt h
  rw [decodeCommand_commandWord op f hop]
  rcases nonzero_op_cases op hop with rfl | rfl | rfl | rfl | rfl | rfl | rfl <;> exact ⟨rfl, rfl, nofun⟩

theorem decodeCommand_eq_illegal_iff (w : CmdWord) : decodeCommand w = .illegal w ↔ illegalWord w = true := by
  constructor
  · intro hd
    by_contra h
    obtain ⟨-, -, hlegal⟩ := decodeCommand_legal (Bool.eq_false_iff.mpr h)
    exact hlegal hd
  · exact decodeCommand_illegal

theorem illegalWord_iff (w : CmdWord) : illegalWord w = true ↔ w.extractLsb' 0 3 = 0#3 ∨ w.extractLsb' 5 3 ≠ 0#3 := by
  simp [illegalWord]

/-- The command word of a well-formed host command decodes to that command (30_encoding.md R101, R102). -/
theorem decodeCommand_of_command {i : Instr} {w : CmdWord} (hwf : i.wf = true) (h : i.command = some w) :
    decodeCommand w = i := by
  cases i with
  | encRd f => cases h; exact decodeCommand_commandWord 1 f (by decide)
  | encRdsl f => cases h; exact decodeCommand_commandWord 2 f (by decide)
  | encWr f => cases h; exact decodeCommand_commandWord 3 f (by decide)
  | decErr f => cases h; exact decodeCommand_commandWord 4 f (by decide)
  | planWr f => cases h; exact decodeCommand_commandWord 5 f (by decide)
  | xferRd f => cases h; exact decodeCommand_commandWord 6 f (by decide)
  | xferWr f => cases h; exact decodeCommand_commandWord 7 f (by decide)
  | illegal v => cases h; exact decodeCommand_illegal hwf
  | _ => cases h

/-! Wire opcodes -/

/-- A byte that is no named opcode can only be a configured Int32 write (30_encoding.md R117; log 22). -/
theorem decodeOpcode_unnamed {b : Byte} (h : b ∉ namedOpcodes) :
    decodeOpcode b = if some b = Config.opcWrShortI32 then .ok .wrShortI32
      else if some b = Config.opcWrLongI32 then .ok .wrLongI32 else .error (.unknownOpcode b) := by
  simp only [namedOpcodes, List.mem_cons, List.not_mem_nil, or_false, not_or] at h
  obtain ⟨h1, h2, h3, h4, h5, h6, h7, h8⟩ := h
  simp only [decodeOpcode, h1, h2, h3, h4, h5, h6, h7, h8, if_false]

theorem int32OpcodesDistinct_iff (a b : Byte) :
    int32OpcodesDistinct a b = true ↔ a ∉ namedOpcodes ∧ b ∉ namedOpcodes ∧ a ≠ b := by
  simp [int32OpcodesDistinct, and_assoc]

/-- Well-formedness of an Int32 write: both opcodes are configured, and each can be told from every other opcode (log 22). -/
theorem wf_int32Write {i : Instr} (hi : i = .wrShortI32 ∨ i = .wrLongI32) (hwf : i.wf = true) :
    ∃ a b, Config.opcWrShortI32 = some a ∧ Config.opcWrLongI32 = some b ∧ a ∉ namedOpcodes ∧ b ∉ namedOpcodes ∧ a ≠ b := by
  cases ha : Config.opcWrShortI32 with
  | none => rcases hi with rfl | rfl <;> simp [Instr.wf, ha] at hwf
  | some a =>
    cases hb : Config.opcWrLongI32 with
    | none => rcases hi with rfl | rfl <;> simp [Instr.wf, ha, hb] at hwf
    | some b =>
      refine ⟨a, b, rfl, rfl, (int32OpcodesDistinct_iff a b).mp ?_⟩
      rcases hi with rfl | rfl <;> simpa [Instr.wf, ha, hb] using hwf

/-- The opcode byte of a well-formed wire opcode decodes to that opcode (30_encoding.md R117). -/
theorem decodeOpcode_of_opcode {i : Instr} {b : Byte} (hwf : i.wf = true) (h : i.opcode = some b) :
    decodeOpcode b = .ok i := by
  cases i with
  | rdShortF64 => cases h; rfl
  | rdLongF64 => cases h; rfl
  | rdslF64 => cases h; rfl
  | rdShortI32 => cases h; rfl
  | rdLongI32 => cases h; rfl
  | rdslI32 => cases h; rfl
  | wrShortF64 => cases h; rfl
  | wrLongF64 => cases h; rfl
  | wrShortI32 =>
    obtain ⟨a, -, ha, -, hna, -⟩ := wf_int32Write (Or.inl rfl) hwf
    obtain rfl : a = b := Option.some.inj (ha.symm.trans h)
    rw [decodeOpcode_unnamed hna, if_pos ha.symm]
  | wrLongI32 =>
    obtain ⟨a, b', ha, hb, -, hnb, hab⟩ := wf_int32Write (Or.inr rfl) hwf
    obtain rfl : b' = b := Option.some.inj (hb.symm.trans h)
    rw [decodeOpcode_unnamed hnb, if_neg (by rw [ha]; exact fun e => hab (Option.some.inj e).symm), if_pos hb.symm]
  | _ => cases h

/-! Both -/

/-- A well-formed instruction with no command word has an opcode byte (40_frame_codec.md R160). -/
theorem opcode_of_no_command {i : Instr} (hwf : i.wf = true) (hc : i.command = none) : ∃ b, i.opcode = some b := by
  cases i with
  | wrShortI32 => obtain ⟨a, -, ha, -⟩ := wf_int32Write (Or.inl rfl) hwf; exact ⟨a, ha⟩
  | wrLongI32 => obtain ⟨-, b, -, hb, -⟩ := wf_int32Write (Or.inr rfl) hwf; exact ⟨b, hb⟩
  | rdShortF64 | rdLongF64 | rdslF64 | rdShortI32 | rdLongI32 | rdslI32 | wrShortF64 | wrLongF64 => exact ⟨_, rfl⟩
  | _ => cases hc

/-- A well-formed instruction is encoded by its command word, or by its opcode byte. -/
theorem encode_cases {i : Instr} (hwf : i.wf = true) :
    (∃ w, i.command = some w ∧ encode i = wordBytes w) ∨ ∃ b, i.opcode = some b ∧ encode i = [b] := by
  cases hc : i.command with
  | some w => exact Or.inl ⟨w, rfl, by simp only [encode, hc]⟩
  | none =>
    obtain ⟨b, hb⟩ := opcode_of_no_command hwf hc
    exact Or.inr ⟨b, hb, by simp only [encode, hc, hb]⟩

/-- Settles O13: a command by its word's two bytes, a wire opcode by its one byte. -/
theorem decodeEncode : Obligations.DecodeEncode := by
  intro i hwf
  rcases encode_cases hwf with ⟨w, hw, he⟩ | ⟨b, hb, he⟩
  · rw [he, wordBytes_decode, decodeCommand_of_command hwf hw]
  · rw [he]
    exact decodeOpcode_of_opcode hwf hb

/-- Settles O14: an illegal word is kept as it is, and a legal one is spelt by the fields it decodes to. -/
theorem commandWordKept : Obligations.CommandWordKept := by
  intro w
  cases h : illegalWord w with
  | true => rw [decodeCommand_illegal h]; exact ⟨h, rfl⟩
  | false =>
    obtain ⟨hwf, hcommand, -⟩ := decodeCommand_legal h
    exact ⟨hwf, hcommand⟩

/-- Settles O17, by running the decoder. -/
theorem wordsDecode : Obligations.WordsDecode := by
  unfold Obligations.WordsDecode
  decide

end Sys2Proof
end

section
/-! PROOF. The illegal command word (30_encoding.md R102): which words are illegal, and what running one does. -/

namespace Sys2Proof.Machine

open Sys2Proof

/-- STATUSW after a command completed with `ARGUMENT`: STATUS = 5 and DONE, and no other bit (10_state.md R33, R34). -/
theorem statusw_complete_argument (w : CmdWord) (s : State) : statusw (complete .argument 0 (accept w s)) = 0x0000000D :=
  (statusw_congr (t := complete .argument 0 State.reset) rfl rfl rfl rfl rfl rfl rfl).trans (by decide)

/-- An illegal word, run by a ready block, is accepted and completes with `ARGUMENT` (30_encoding.md R102). -/
theorem exec_illegal_ready (w : CmdWord) {s : State} (hs : Ready s) :
    exec (.illegal w) s = .next (complete .argument 0 (accept w s)) := by
  obtain ⟨hidle, hheld⟩ := hs
  have hheld' : (accept w s).eosHeld = false := hheld
  simp only [exec, execIllegal, hostCommand_idle hidle, raise, finish_not_held hheld']

/-- Settles O22: the words that decode to `illegal` are those `illegalWord` names, and a run of one is acceptance and completion. -/
theorem illegalWordCompletes : Obligations.IllegalWordCompletes := by
  constructor
  · intro w
    rw [decodeCommand_eq_illegal_iff, illegalWord_iff]
  · intro w s hs
    exact ⟨_, exec_illegal_ready w hs, rfl, statusw_complete_argument w s, rfl, rfl⟩

end Sys2Proof.Machine
end

section
/-! PROOF. Request frames (30_encoding.md R105, R118, R120): the decoder reads a frame back, and every encoder gives one. -/

namespace Sys2Proof.Machine

open Sys2Proof

/-- The two length bytes of a frame and the bytes of the frame around them (40_frame_codec.md R153). -/
theorem frame_append (opc : Byte) (body rest : List Byte) :
    frame opc body ++ rest = Config.frameStart :: opc :: BitVec.ofNat 8 body.length :: BitVec.ofNat 8 (body.length / 256) ::
      (body ++ Config.frameEnd :: rest) := by
  simp [frame, leBytes]

/-- The two bytes of a 16-bit length give it back (00_scope.md R11). -/
theorem length_bytes {n : Nat} (h : n < 65536) : (BitVec.ofNat 8 n).toNat + 256 * (BitVec.ofNat 8 (n / 256)).toNat = n := by
  simp only [BitVec.toNat_ofNat]
  omega

/-- Settles O15: the length field says where the body ends, so the body and what follows the frame are cut apart there. -/
theorem requestFrameDecodes : Obligations.RequestFrameDecodes := by
  intro i opc body rest hopc hlen
  have hn := length_bytes (n := body.length) (by omega)
  rw [frame_append]
  simp only [decodeFrame, hn, List.drop_left, List.take_left, hopc, ne_eq, not_true_eq_false, if_false]

theorem IsRequestFrame.length_le {b : List Byte} (h : IsRequestFrame b) : b.length ≤ 1405 := by
  obtain ⟨-, opc, body, -, rfl, hbody⟩ := h
  rw [frame_length]
  omega

/-- A frame with a wire opcode's byte that fits TXBUF is a request frame. -/
theorem isRequestFrame_of_frame {i : Instr} {opc : Byte} {body b : List Byte} (hopc : i.opcode = some opc)
    (hb : b = frame opc body) (hlen : b.length ≤ 1405) : IsRequestFrame b := by
  rw [hb, frame_length] at hlen
  exact ⟨i, opc, body, hopc, hb, by omega⟩

theorem encodeRead_requestFrame {d : Descriptor} {k : Kind} {c : ReadCmd} (h : encodeRead d k = .ok c) :
    IsRequestFrame c.frame := by
  obtain ⟨-, -, hframe, -, -⟩ := encodeRead_ok h
  exact isRequestFrame_of_frame (readOp_opcode k _) hframe (encodeRead_length h)

theorem encodeReadSlice_requestFrame {d : Descriptor} {k : Kind} {n : Nat} {c : ReadCmd} (h : encodeReadSlice d k n = .ok c) :
    IsRequestFrame c.frame := by
  obtain ⟨-, -, -, hframe, -, -⟩ := encodeReadSlice_ok h
  exact isRequestFrame_of_frame (sliceOp_opcode k) hframe (encodeReadSlice_length h)

theorem encodeWrite_requestFrame {d : Descriptor} {k : Kind} {data : List Elem} {n : Nat} {c : WriteCmd}
    (h : encodeWrite d k data n = .ok c) : IsRequestFrame c.frame := by
  have hlen := encodeWrite_length h
  obtain ⟨-, -, opS, opL, g, hop, -, ⟨-, -, rfl⟩ | ⟨-, -, -, rfl⟩⟩ := encodeWrite_ok h
  · exact isRequestFrame_of_frame (writeOp_opcode hop).1 rfl hlen
  · exact isRequestFrame_of_frame (writeOp_opcode hop).2 rfl hlen

/-! What the encoding commands leave in RES_FRAME -/

/-- What an answer leaves in RES_FRAME, if anything, is a request frame. -/
def LeavesRequestFrame (a : Answer) : Prop := ∀ t b, a = .next t → t.res.frame = some b → IsRequestFrame b

/-- A command that failed leaves no frame: acceptance cleared RES_FRAME (41_slicer_continuation.md R202). -/
theorem raise_leavesRequestFrame (e : Status) (w : CmdWord) (s : State) : LeavesRequestFrame (.next (raise e (accept w s))) := by
  intro t b h hb
  cases h
  rw [raise, finish_res, accept_res] at hb
  cases hb

theorem finish_leavesRequestFrame {s : State} {b : List Byte} (hs : s.res.frame = some b) (hb : IsRequestFrame b) :
    LeavesRequestFrame (.next (finish .ok 0 s)) := by
  intro t b' h hb'
  cases h
  rw [finish_res, hs] at hb'
  exact Option.some.inj hb' ▸ hb

theorem execEncRd_leavesRequestFrame (f : Fields) {s : State} (hs : s.phase = .idle) : LeavesRequestFrame (execEncRd f s) := by
  rw [execEncRd, hostCommand_idle hs]
  split
  · exact raise_leavesRequestFrame _ _ s
  · rename_i c hc
    exact finish_leavesRequestFrame rfl (encodeRead_requestFrame hc)

theorem execEncRdsl_leavesRequestFrame (f : Fields) {s : State} (hs : s.phase = .idle) : LeavesRequestFrame (execEncRdsl f s) := by
  rw [execEncRdsl, hostCommand_idle hs]
  split
  · exact raise_leavesRequestFrame _ _ s
  · rename_i c hc
    exact finish_leavesRequestFrame rfl (encodeReadSlice_requestFrame hc)

theorem execEncWr_leavesRequestFrame (f : Fields) {s : State} (hs : s.phase = .idle) : LeavesRequestFrame (execEncWr f s) := by
  rw [execEncWr, hostCommand_idle hs]
  split
  · exact raise_leavesRequestFrame _ _ s
  · rename_i c hc
    exact finish_leavesRequestFrame rfl (encodeWrite_requestFrame hc)

/-- Settles O31: a frame in RES_FRAME is its encoder's, which is a request frame. -/
theorem encodersGiveRequestFrames : Obligations.EncodersGiveRequestFrames := by
  intro f i s t b hs hi h hb
  suffices hframe : IsRequestFrame b from ⟨hframe, hframe.length_le⟩
  obtain ⟨hidle, -⟩ := hs
  rcases hi with rfl | rfl | rfl
  · exact execEncRd_leavesRequestFrame f hidle t b h hb
  · exact execEncRdsl_leavesRequestFrame f hidle t b h hb
  · exact execEncWr_leavesRequestFrame f hidle t b h hb

end Sys2Proof.Machine
end

section
/-! PROOF. The text of a descriptor (30_encoding.md R119) determines the descriptor: a number's digits, the marks between the numbers, and the
bytes of a name are told apart. -/

namespace Sys2Proof.Machine

open Sys2Proof

theorem isDigit_digit {n : Nat} (h : n < 10) : isDigit (digit n) = true := by
  interval_cases n <;> decide

theorem dval_digit {n : Nat} (h : n < 10) : dval (digit n) = n := by
  interval_cases n <;> decide

theorem dec_all_isDigit (n : Nat) : (dec n).all isDigit = true := by
  induction n using Nat.strong_induction_on with
  | _ n ih =>
    rcases Nat.lt_or_ge n 10 with h | h
    · simp [dec_digit h, isDigit_digit h]
    · rw [dec_step h, List.all_append, ih (n / 10) (by omega)]
      simp [isDigit_digit (Nat.mod_lt n (by decide))]

/-- The value of a text of decimal digits. -/
def decimalValue (l : List Byte) : Nat := l.foldl (fun v c => 10 * v + dval c) 0

/-- A number is read back from its decimal text (00_scope.md R11). -/
theorem decimalValue_dec (n : Nat) : decimalValue (dec n) = n := by
  induction n using Nat.strong_induction_on with
  | _ n ih =>
    rcases Nat.lt_or_ge n 10 with h | h
    · simp [decimalValue, dec_digit h, dval_digit h]
    · have htens := ih (n / 10) (by omega)
      unfold decimalValue at htens ⊢
      rw [dec_step h, List.foldl_append, htens]
      simp only [List.foldl_cons, List.foldl_nil, dval_digit (Nat.mod_lt n (by decide))]
      omega

theorem dec_injective : Function.Injective dec := Function.LeftInverse.injective decimalValue_dec

theorem notMem_dec {c : Byte} (h : isDigit c = false) (n : Nat) : c ∉ dec n := fun hc => by
  have := List.all_eq_true.mp (dec_all_isDigit n) c hc
  rw [h] at this
  cases this

/-- Equal texts are equal up to their first mark and after it. -/
theorem cut_inj {c : Byte} {l l' r r' : List Byte} (hl : c ∉ l) (hl' : c ∉ l') (h : l ++ c :: r = l' ++ c :: r') : l = l' ∧ r = r' := by
  induction l generalizing l' with
  | nil =>
    cases l' with
    | nil => exact ⟨rfl, (List.cons.inj h).2⟩
    | cons y l' => exact absurd ((List.cons.inj h).1 ▸ List.mem_cons_self) hl'
  | cons x l ih =>
    cases l' with
    | nil => exact absurd ((List.cons.inj h).1 ▸ List.mem_cons_self) hl
    | cons y l' =>
      obtain ⟨rfl, htail⟩ := List.cons.inj h
      obtain ⟨rfl, hr⟩ := ih (List.not_mem_of_not_mem_cons hl) (List.not_mem_of_not_mem_cons hl') htail
      exact ⟨rfl, hr⟩

/-- `s,e)` and the text after it (30_encoding.md R119). -/
def rangeText (s e : Nat) (rest : List Byte) : List Byte := dec s ++ 0x2C :: (dec e ++ 0x29 :: rest)

/-- The comma and the closing bracket are no digits, so the two numbers are cut apart there. -/
theorem rangeText_inj {s e s' e' : Nat} {r r' : List Byte} (h : rangeText s e r = rangeText s' e' r') : s = s' ∧ e = e' ∧ r = r' := by
  have hcomma := notMem_dec (c := 0x2C) (by decide)
  have hclose := notMem_dec (c := 0x29) (by decide)
  obtain ⟨hs, h⟩ := cut_inj (hcomma s) (hcomma s') h
  obtain ⟨he, hr⟩ := cut_inj (hclose e) (hclose e') h
  exact ⟨dec_injective hs, dec_injective he, hr⟩

/-- The text of the second dimension, which is empty where there is none (30_encoding.md R119). -/
def d2Text (d : Descriptor) : List Byte := if d.hasD2 then 0x28 :: rangeText d.d2s.toNat d.d2e.toNat [] else []

theorem ascii_eq_rangeText (d : Descriptor) : ascii d = d.name ++ 0x28 :: rangeText d.d1s.toNat d.d1e.toNat (d2Text d) := by
  cases hd : d.hasD2 <;> simp [ascii, rangeText, d2Text, hd]

theorem d2Text_inj {d e : Descriptor} (h : d2Text d = d2Text e) :
    d.hasD2 = e.hasD2 ∧ (d.hasD2 = true → d.d2s = e.d2s ∧ d.d2e = e.d2e) := by
  cases hd : d.hasD2 <;> cases he : e.hasD2 <;> simp only [d2Text, hd, he, if_true, Bool.false_eq_true, if_false] at h
  · simp
  · cases h
  · cases h
  · obtain ⟨hs, he, -⟩ := rangeText_inj (List.cons.inj h).2
    exact ⟨rfl, fun _ => ⟨BitVec.eq_of_toNat_eq hs, BitVec.eq_of_toNat_eq he⟩⟩

/-- A valid name holds no opening bracket (40_frame_codec.md R151, condition 1). -/
theorem validDesc_name {d : Descriptor} (h : validDesc d false = true) : 0x28 ∉ d.name := fun hc => by
  simp only [validDesc, Bool.and_eq_true] at h
  obtain ⟨⟨⟨⟨⟨-, hname⟩, -⟩, -⟩, -⟩, -⟩ := h
  exact absurd (List.all_eq_true.mp hname _ hc) (by decide)

/-- Settles O16: the name ends at the first opening bracket, and each range is read back from its digits. -/
theorem descriptorTextNames : Obligations.DescriptorTextNames := by
  intro d e hd he h
  rw [ascii_eq_rangeText, ascii_eq_rangeText] at h
  obtain ⟨hname, h⟩ := cut_inj (validDesc_name hd) (validDesc_name he) h
  obtain ⟨hs, he, h2⟩ := rangeText_inj h
  exact ⟨hname, BitVec.eq_of_toNat_eq hs, BitVec.eq_of_toNat_eq he, d2Text_inj h2⟩

end Sys2Proof.Machine
end

section
/-! PROOF. The wire opcodes (30_encoding.md R117): each is sent in its case, and no other one is. -/

namespace Sys2Proof.Machine

open Sys2Proof

/-! Reads -/

theorem replySize_short {db : Nat} (h : db ≤ 1400) : replySize db 0 = db + 5 := by
  simp [replySize, Nat.not_lt.mpr h]

theorem replySize_long {db : Nat} (h : 1400 < db) : replySize db 0 = 1405 := by
  simp [replySize, h]

/-- The first read of a transfer goes out with the opcode of its kind and size class (40_frame_codec.md R154, 41_slicer_continuation.md R204). -/
theorem exec_firstRead {s : State} {k : Kind} {l : Bool} (hp : s.phase = .exec) (hl : latchOp s = 6) (h0 : s.rd.slice = 0)
    (hv : validDesc s.latch.desc true = true) (hk : latchKind s = k) (hlong : isLong s.latch.desc k = l) :
    exec (readOp k l) s = .next (sent (frame (readOpcode k l) (readBody k s.latch.desc)) (readOpcode k l) .tCmd
      { s with rd := { s.rd with expected := BitVec.ofNat 16 (replySize (dataBytes s.latch.desc k) 0) } }) := by
  subst hk hlong
  have hn : nextRead s = encodeRead s.latch.desc (latchKind s) := if_pos h0
  rw [encodeRead_valid _ hv] at hn
  rw [← frame_opcode (readOpcode _ _) (readBody _ _)]
  exact exec_readCmd hp hl hn

theorem isLong_iff (d : Descriptor) (k : Kind) : isLong d k = true ↔ 1400 < dataBytes d k := by simp [isLong]

/-- The first read of an array that one reply holds. -/
theorem exec_firstRead_short {s : State} {k : Kind} (hp : s.phase = .exec) (hl : latchOp s = 6) (h0 : s.rd.slice = 0)
    (hv : validDesc s.latch.desc true = true) (hk : latchKind s = k) (hdb : dataBytes s.latch.desc (latchKind s) ≤ 1400) :
    exec (readOp k false) s = .next (sent (frame (readOpcode k false) (readBody k s.latch.desc)) (readOpcode k false) .tCmd
      { s with rd := { s.rd with expected := BitVec.ofNat 16 (dataBytes s.latch.desc (latchKind s) + 5) } }) := by
  subst hk
  have hlong : isLong s.latch.desc (latchKind s) = false := by rw [Bool.eq_false_iff, Ne, isLong_iff]; omega
  rw [exec_firstRead hp hl h0 hv rfl hlong, replySize_short hdb]

/-- The first read of an array that takes several replies. -/
theorem exec_firstRead_long {s : State} {k : Kind} (hp : s.phase = .exec) (hl : latchOp s = 6) (h0 : s.rd.slice = 0)
    (hv : validDesc s.latch.desc true = true) (hk : latchKind s = k) (hdb : 1400 < dataBytes s.latch.desc (latchKind s)) :
    exec (readOp k true) s = .next (sent (frame (readOpcode k true) (readBody k s.latch.desc)) (readOpcode k true) .tCmd
      { s with rd := { s.rd with expected := 1405 } }) := by
  subst hk
  rw [exec_firstRead hp hl h0 hv rfl ((isLong_iff _ _).mpr hdb), replySize_long hdb]
  rfl

/-- Settles O43: the kind and the size class select the opcode, and the size class the length of the reply. -/
theorem firstReadIsSent : Obligations.FirstReadIsSent := by
  intro s hp hl h0 hv
  exact ⟨exec_firstRead_short hp hl h0 hv, exec_firstRead_long hp hl h0 hv, exec_firstRead_short hp hl h0 hv,
    exec_firstRead_long hp hl h0 hv⟩

/-- A slice read of a transfer goes out with the slice opcode of its kind and the slice in one digit (40_frame_codec.md R156). -/
theorem exec_sliceRead {s : State} {k : Kind} (hp : s.phase = .exec) (hl : latchOp s = 6) (hv : validDesc s.latch.desc true = true)
    (h1 : 1 ≤ s.rd.slice) (h9 : s.rd.slice ≤ 9) (hn : s.rd.slice.toNat * 1400 < dataBytes s.latch.desc (latchKind s)) (hk : latchKind s = k) :
    exec (sliceOp k) s = .next (sent
      (frame (sliceOpcode k) ([0x25] ++ [digit s.rd.slice.toNat] ++ [0x25, 0x3F, 0x3F] ++ [dsb k] ++ ascii s.latch.desc)) (sliceOpcode k) .tCmd
      { s with rd := { s.rd with expected := BitVec.ofNat 16 (replySize (dataBytes s.latch.desc (latchKind s)) s.rd.slice.toNat) } }) := by
  subst hk
  have h1' : 1 ≤ s.rd.slice.toNat := h1
  have h9' : s.rd.slice.toNat ≤ 9 := h9
  have h0 : s.rd.slice ≠ 0 := fun h => by rw [h] at h1'; exact absurd h1' (by decide)
  have hnext : nextRead s = encodeReadSlice s.latch.desc (latchKind s) s.rd.slice.toNat := if_neg h0
  rw [encodeReadSlice_valid hv h1' h9' hn] at hnext
  have hsent := exec_readCmd hp hl hnext
  rwa [frame_opcode, sliceBody, dec_digit (by omega)] at hsent

/-- Settles O44: the kind selects the opcode. -/
theorem sliceReadIsSent : Obligations.SliceReadIsSent := by
  intro s hp hl hv h1 h9 hn
  exact ⟨exec_sliceRead hp hl hv h1 h9 hn, exec_sliceRead hp hl hv h1 h9 hn⟩

/-! Writes -/

/-- The elements of the tracker's chunk, taken from its segment, are those its offset and count name in the whole data. -/
theorem segment_chunk {d : Descriptor} {k : Kind} {t : WtCounts} (data : List Elem) (hv : validDesc d false = true) (h : Tracking d k t) :
    (((data.drop t.segBase).take (t.total - t.segBase)).drop (t.slice * t.m)).take t.chunk = (data.drop t.offset).take t.chunk := by
  obtain ⟨-, hend, -, -⟩ := tracking_chunk hv h
  obtain ⟨htotal, -, -, -, -, -, hset, -, -⟩ := h
  have hoffset : t.offset = t.segBase + t.slice * t.m := by rw [← setChunk_offset, hset]
  rw [List.drop_take, List.drop_drop, List.take_take, ← hoffset, Nat.min_eq_left (by omega)]

/-- The frame of a tracked chunk: that of a segment in one packet, or of a chunk of several, with the elements the tracker names
(40_frame_codec.md R157, 41_slicer_continuation.md R208). -/
theorem encodeWrite_tracking_frame {d : Descriptor} {k : Kind} {t : WtCounts} {data : List Elem} {opS opL : Byte}
    (hv : validDesc d false = true) (h : Tracking d k t) (hd : data.length = numElements d) (ho : writeOpcodes k = .ok (opS, opL)) :
    ∃ c, encodeWrite t.segDesc k ((data.drop t.segBase).take (t.total - t.segBase)) t.slice = .ok c ∧
      c.op = writeOp k (decide (t.m = 0)) ∧
      c.frame = if t.m = 0 then frame opS (singleBody k t.segDesc ((data.drop t.offset).take t.chunk))
        else frame opL (chunkBody t.slice k t.segDesc ((data.drop t.offset).take t.chunk)) := by
  obtain ⟨c, hc, helems, -, hop, -, -⟩ := encodeWrite_tracking hv h hd ho
  refine ⟨c, hc, hop, ?_⟩
  have hdata := segment_chunk data hv h
  obtain ⟨-, -, -, -, ⟨g, hg, hm, -⟩, -⟩ := h
  obtain ⟨-, hlen, opS', opL', g', ho', hg', hform⟩ := encodeWrite_ok hc
  cases ho.symm.trans ho'
  cases hg.symm.trans hg'
  rcases hform with ⟨hs, hn, rfl⟩ | ⟨hs, -, -, rfl⟩
  · have hm0 : t.m = 0 := by simpa [hs] using hm
    simp only at helems
    rw [hn, Nat.zero_mul, List.drop_zero, ← helems, List.take_of_length_le hlen.le] at hdata
    rw [if_pos hm0, ← helems, ← hdata]
  · have hmg : t.m = g.m := by simpa [hs] using hm
    have hm0 : t.m ≠ 0 := by
      rcases geom_ok hg with ⟨hs', -⟩ | ⟨-, hpos, -⟩
      · rw [hs] at hs'; cases hs'
      · omega
    simp only at helems
    rw [if_neg hm0, ← hdata, ← helems, hmg]
    rfl

/-- In EXEC of XFER_WR at a tracked chunk the opcode of its kind and size class sends its frame (30_encoding.md R117, 41_slicer_continuation.md R208). -/
theorem exec_trackedChunk {s : State} {k : Kind} {opS opL : Byte} (hp : s.phase = .exec) (hl : latchOp s = 7) (hk : latchKind s = k)
    (hv : validDesc s.latch.desc false = true) (hd : s.latch.data.length = numElements s.latch.desc)
    (h : Tracking s.latch.desc k (wtCounts s.wt)) (ho : writeOpcodes k = .ok (opS, opL)) :
    let data := (s.latch.data.drop s.wt.offset.toNat).take s.wt.chunk.toNat
    (s.wt.m = 0 → exec (writeOp k true) s = .next (sent (frame opS (singleBody k s.wt.segDesc data)) opS .tArray s)) ∧
    (s.wt.m ≠ 0 → exec (writeOp k false) s =
      .next (sent (frame opL (chunkBody s.wt.slice.toNat k s.wt.segDesc data)) opL .tArray s)) := by
  intro data
  subst hk
  obtain ⟨c, hc, hop, hframe⟩ := encodeWrite_tracking_frame hv h hd ho
  have hsent := exec_writeCmd hp hl hc
  constructor
  · intro hm
    have hm0 : (wtCounts s.wt).m = 0 := congrArg BitVec.toNat hm
    rw [if_pos hm0] at hframe
    rw [hop, decide_eq_true hm0, hframe, frame_opcode] at hsent
    exact hsent
  · intro hm
    have hm0 : (wtCounts s.wt).m ≠ 0 := fun h0 => hm (BitVec.eq_of_toNat_eq h0)
    rw [if_neg hm0] at hframe
    rw [hop, decide_eq_false hm0, hframe, frame_opcode] at hsent
    exact hsent

/-- Settles O45: `exec_trackedChunk` with the two Float64 opcodes. -/
theorem float64ChunkIsSent : Obligations.Float64ChunkIsSent := fun _ hp hl hk hv hd h => exec_trackedChunk hp hl hk hv hd h rfl

/-! The opcodes that are not selected -/

/-- A read opcode that XFER_RD does not select sends nothing (log 13). -/
theorem emitRead_not_selected {i : Instr} {s : State} (h : s.phase ≠ .exec ∨ selectWire s ≠ some (.ok i)) : emitRead i s = .next s := by
  unfold emitRead
  split
  · rename_i hx
    obtain ⟨hp, hl⟩ := hx
    have hsel := h.resolve_left (not_not_intro hp)
    split
    · rename_i c hc
      have hop : c.op ≠ i := fun e => hsel (e ▸ selectWire_read hl hc)
      rw [if_neg hop]
    · rfl
  · rfl

/-- A write opcode that XFER_WR does not select sends nothing (log 13). -/
theorem emitWrite_not_selected {i : Instr} {s : State} (h : s.phase ≠ .exec ∨ selectWire s ≠ some (.ok i)) : emitWrite i s = .next s := by
  unfold emitWrite
  split
  · rename_i hx
    obtain ⟨hp, hl⟩ := hx
    have hsel := h.resolve_left (not_not_intro hp)
    split
    · rename_i c hc
      have hop : c.op ≠ i := fun e => hsel (e ▸ selectWire_write hl hc)
      rw [if_neg hop]
    · rfl
  · rfl

/-- A wire opcode is run by one of the two sending operations (30_encoding.md R117). -/
theorem exec_wire {i : Instr} (hi : i.command = none) (s : State) : exec i s = emitRead i s ∨ exec i s = emitWrite i s := by
  cases i with
  | rdShortF64 | rdLongF64 | rdslF64 | rdShortI32 | rdLongI32 | rdslI32 => exact Or.inl rfl
  | wrShortF64 | wrLongF64 | wrShortI32 | wrLongI32 => exact Or.inr rfl
  | _ => cases hi

/-- Settles O47: neither sending operation sends an opcode that is not selected. -/
theorem otherOpcodesAreNotSent : Obligations.OtherOpcodesAreNotSent := by
  intro i s hi h
  rcases exec_wire hi s with he | he
  · rw [he, emitRead_not_selected h]
  · rw [he, emitWrite_not_selected h]

end Sys2Proof.Machine
end

section
/-! PROOF. The frame encoder (40_frame_codec.md R151 to R160): which descriptors are valid, the size of a reply, what each encoder answers
in each of its cases, and the lengths of write frames. -/

namespace Sys2Proof.Machine

open Sys2Proof

/-! Descriptors -/

/-- The bytes of a variable name (40_frame_codec.md R151, condition 1). -/
theorem nameByte_iff (c : Byte) : nameByte c = true ↔
    0x41 ≤ c.toNat ∧ c.toNat ≤ 0x5A ∨ 0x61 ≤ c.toNat ∧ c.toNat ≤ 0x7A ∨ 0x30 ≤ c.toNat ∧ c.toNat ≤ 0x39 ∨ c = 0x5F := by
  simp only [nameByte, isDigit, Bool.or_eq_true, Bool.and_eq_true, decide_eq_true_eq, beq_iff_eq, or_assoc]

/-- The five conditions of 40_frame_codec.md R151, in its order. -/
theorem validDesc_iff (d : Descriptor) (forRead : Bool) : validDesc d forRead = true ↔
    (d.name ≠ [] ∧ ∀ c ∈ d.name, nameByte c = true) ∧
    (d.d1s.toNat ≤ d.d1e.toNat ∧ d.d1e.toNat ≤ 2147483647) ∧
    (d.hasD2 = true → d.d2s.toNat ≤ d.d2e.toNat ∧ d.d2e.toNat ≤ 2147483647) ∧
    numElements d ≤ 2147483647 ∧
    (forRead = true → asciiLen d ≤ 1394) := by
  have hname : 1 ≤ d.name.length ↔ d.name ≠ [] := List.length_pos_iff
  have himp : ∀ (b : Bool) (p : Prop), b = false ∨ p ↔ (b = true → p) := by simp
  simp only [validDesc, Bool.and_eq_true, Bool.or_eq_true, Bool.not_eq_true', decide_eq_true_eq, List.all_eq_true, hname, himp,
    and_assoc, Config.maxIndex, Config.maxElements, Config.maxPacketData, Nat.reduceSub]

/-! Replies -/

theorem dataBytes_mod_four (d : Descriptor) (k : Kind) : dataBytes d k % 4 = 0 := by
  rcases esize_cases k with h | h <;> simp only [dataBytes, h] <;> omega

/-- Settles O32: 1400 and the size of an element are multiples of 4, so what is left for a slice is too, and it is at least 4. -/
theorem replySizes : Obligations.ReplySizes := by
  intro d k n hn
  have hmod := dataBytes_mod_four d k
  have hmin : replySize (dataBytes d k) n = min (dataBytes d k - n * 1400) 1400 + 5 := by
    simp only [replySize, Config.maxPacketData, Config.maxPacketSize]
    split <;> omega
  refine ⟨hmin, ?_, ?_, ?_⟩ <;> omega

/-! Read frames -/

theorem encodeRead_invalid {d : Descriptor} (k : Kind) (h : validDesc d true = false) : encodeRead d k = .error .argument := by
  simp [encodeRead, h]

theorem encodeReadSlice_invalid {d : Descriptor} (k : Kind) (n : Nat) (h : validDesc d true = false) :
    encodeReadSlice d k n = .error .argument := by
  simp [encodeReadSlice, h]

theorem sliceInRange_iff (n db : Nat) : sliceInRange n db = true ↔ 1 ≤ n ∧ n ≤ 9 ∧ n * 1400 < db := by
  simp only [sliceInRange, Bool.and_eq_true, decide_eq_true_eq, and_assoc]

theorem encodeReadSlice_outOfRange {d : Descriptor} {k : Kind} {n : Nat} (h : validDesc d true = true)
    (hn : ¬ (1 ≤ n ∧ n ≤ 9 ∧ n * 1400 < dataBytes d k)) : encodeReadSlice d k n = .error .protocolLimit := by
  rw [← sliceInRange_iff] at hn
  simp [encodeReadSlice, h, hn]

/-- The opcode byte of a first read (30_encoding.md R117). -/
theorem readOpcode_isLong (d : Descriptor) (k : Kind) : readOpcode k (isLong d k) =
    if dataBytes d k > 1400 then (if k = .float64 then 0x41 else 0x44) else (if k = .float64 then 0xF0 else 0xF1) := by
  by_cases h : 1400 < dataBytes d k
  · rw [(isLong_iff d k).mpr h, if_pos h]
    cases k <;> rfl
  · rw [Bool.eq_false_iff.mpr (mt (isLong_iff d k).mp h), if_neg h]
    cases k <;> rfl

/-- The opcode byte of a slice read (30_encoding.md R117). -/
theorem sliceOpcode_eq (k : Kind) : sliceOpcode k = if k = .float64 then 0x42 else 0x45 := by
  cases k <;> rfl

/-! Write opcodes -/

theorem writeOpcodes_configured {a b : Byte} (ha : Config.opcWrShortI32 = some a) (hb : Config.opcWrLongI32 = some b) :
    writeOpcodes .int32 = .ok (a, b) := by
  simp only [writeOpcodes, ha, hb]

theorem writeOpcodes_unconfigured (h : ∀ a b, Config.opcWrShortI32 = some a → Config.opcWrLongI32 = some b → False) :
    writeOpcodes .int32 = .error .unsupported := by
  cases ha : Config.opcWrShortI32 with
  | none => simp only [writeOpcodes, ha]
  | some a =>
    cases hb : Config.opcWrLongI32 with
    | none => simp only [writeOpcodes, ha, hb]
    | some b => exact (h a b ha hb).elim

/-- Missing write opcodes are `UNSUPPORTED`, and nothing else is (40_frame_codec.md R160). -/
theorem writeOpcodes_error {k : Kind} {e : Status} (h : writeOpcodes k = .error e) : e = .unsupported := by
  unfold writeOpcodes at h
  split at h
  · cases h
  · split at h
    · cases h
    · cases h; rfl

/-! The geometry of a write -/

section
variable {d : Descriptor} {k : Kind}

theorem geom_single (h : asciiLen d + 6 + numElements d * esize k ≤ 1400) :
    geom d k = .ok { single := true, m := 0, p := 1 } := if_pos h

theorem geom_no_room (h : 1400 < asciiLen d + 6 + numElements d * esize k) (hroom : 1400 < asciiLen d + 8 + esize k) :
    geom d k = .error .protocolLimit :=
  (if_neg h.not_ge).trans (if_pos hroom)

theorem geom_several (h : 1400 < asciiLen d + 6 + numElements d * esize k) (hroom : asciiLen d + 8 + esize k ≤ 1400) :
    geom d k = .ok { single := false, m := (1400 - asciiLen d - 8) / esize k
                     p := (numElements d + (1400 - asciiLen d - 8) / esize k - 1) / ((1400 - asciiLen d - 8) / esize k) } :=
  (if_neg h.not_ge).trans (if_neg hroom.not_gt)

/-! Write frames -/

variable {data : List Elem} {n : Nat}

theorem encodeWrite_argument (h : validDesc d false = false ∨ data.length ≠ numElements d) :
    encodeWrite d k data n = .error .argument := by
  unfold encodeWrite
  split
  · rfl
  · rename_i hv
    exact if_pos (h.resolve_left (by simpa using hv))

theorem encodeWrite_no_opcodes {e : Status} (hv : validDesc d false = true) (hd : data.length = numElements d)
    (ho : writeOpcodes k = .error e) : encodeWrite d k data n = .error e := by
  simp [encodeWrite, hv, hd, ho]

theorem encodeWrite_geom_error {w : Byte × Byte} {e : Status} (hv : validDesc d false = true) (hd : data.length = numElements d)
    (ho : writeOpcodes k = .ok w) (hg : geom d k = .error e) : encodeWrite d k data n = .error e := by
  simp [encodeWrite, hv, hd, ho, hg]

theorem encodeChunk_single (d : Descriptor) (k : Kind) (data : List Elem) {g : Geometry} (opS opL : Byte) (hs : g.single = true) :
    encodeChunk d k data 0 opS opL g =
      .ok { op := writeOp k true, frame := frame opS (singleBody k d data), elems := numElements d, rem := 0 } := by
  simp [encodeChunk, hs]

theorem encodeChunk_several (d : Descriptor) (k : Kind) (data : List Elem) {n : Nat} {g : Geometry} (opS opL : Byte)
    (hs : g.single = false) (h9 : n ≤ 9) (hp : n < g.p) :
    encodeChunk d k data n opS opL g =
      .ok { op := writeOp k false, frame := frame opL (chunkBody n k d (chunkData g n (chunkElems g (numElements d) n) data))
            elems := chunkElems g (numElements d) n, rem := g.p - n - 1 } := by
  simp [encodeChunk, hs, h9, hp]

/-- The slices of a write that are out of range (40_frame_codec.md R157). -/
theorem encodeChunk_outOfRange (d : Descriptor) (k : Kind) (data : List Elem) {n : Nat} {g : Geometry} (opS opL : Byte)
    (hs : g.single = true → n ≠ 0) (hm : g.single = false → ¬ (n ≤ 9 ∧ n < g.p)) :
    encodeChunk d k data n opS opL g = .error .protocolLimit := by
  unfold encodeChunk
  split
  · rename_i h
    exact if_pos (hs h)
  · rename_i h
    exact if_neg (hm (Bool.eq_false_iff.mpr h))

/-- The length of a write frame, from the count of its elements (40_frame_codec.md R157, R159). -/
theorem encodeWrite_frame_length {c : WriteCmd} (h : encodeWrite d k data n = .ok c) :
    c.frame.length = 5 + asciiLen d + (if asciiLen d + 6 + numElements d * esize k ≤ 1400 then 6 else 8) + c.elems * esize k := by
  obtain ⟨-, hd, opS, opL, g, -, hg, ⟨hs, -, rfl⟩ | ⟨hs, -, hp, rfl⟩⟩ := encodeWrite_ok h
  · obtain ⟨-, -, -, hfits⟩ | ⟨hs', -⟩ := geom_ok hg
    · simp only [frame_length, singleBody_length, hd, if_pos hfits]
      omega
    · rw [hs] at hs'; cases hs'
  · obtain ⟨hs', -⟩ | ⟨-, -, -, -, -, -, -, hlong⟩ := geom_ok hg
    · rw [hs] at hs'; cases hs'
    · simp only [frame_length, chunkBody_length, chunkData_length hg hs hp hd, if_neg hlong.not_ge]
      omega

end

/-- Settles O30: all slices but the last hold `M` elements, and the last one the rest. -/
theorem chunksCoverTheArray : Obligations.ChunksCoverTheArray := by
  intro d k g hg hs
  obtain ⟨hs', -⟩ | ⟨-, -, -, hp, -, hrest, -, -⟩ := geom_ok hg
  · rw [hs] at hs'; cases hs'
  have hfull : (List.range (g.p - 1)).map (chunkElems g (numElements d)) = List.replicate (g.p - 1) g.m := by
    refine List.eq_replicate_iff.mpr ⟨by simp, ?_⟩
    simp only [List.mem_map, List.mem_range]
    rintro _ ⟨n, hn, rfl⟩
    exact if_pos hn
  have hlast : chunkElems g (numElements d) (g.p - 1) = numElements d - (g.p - 1) * g.m := if_neg (lt_irrefl _)
  rw [← Nat.sub_add_cancel (show 1 ≤ g.p by omega), List.sum_range_succ, hfull, hlast, List.sum_replicate, smul_eq_mul]
  omega

/-- Settles O29: the frame's length is linear in the element count, with the element's size as its factor. -/
theorem chunkCountFromLength : Obligations.ChunkCountFromLength := by
  intro d k data n c h ov
  have hlen : c.frame.length = 5 + asciiLen d + ov + c.elems * esize k := encodeWrite_frame_length h
  refine ⟨hlen, ?_⟩
  have hdata : c.frame.length - 5 - asciiLen d - ov = c.elems * esize k := by omega
  rw [hdata, Nat.mul_div_cancel _ (esize_pos k)]

end Sys2Proof.Machine
end

section
/-! PROOF. The encoding commands ENC_RD, ENC_RDSL and ENC_WR run by a ready block (40_frame_codec.md R154, R156, R157, R160): the error of
the encoder or its frame, and the whole next state. -/

namespace Sys2Proof.Machine

open Sys2Proof

/-! What each command does with its encoder's answer -/

section
variable {f : Fields} {s : State} (hs : Ready s)
include hs

/-- An error that a ready block raises completes the command at once: there is no EOS configuration to restore
(41_slicer_continuation.md R203). -/
theorem raise_accepted (e : Status) (w : CmdWord) : raise e (accept w s) = complete e 0 (accept w s) := finish_not_held hs.2

theorem exec_encRd_error {e : Status} (h : encodeRead (portOperands s).desc f.kind = .error e) :
    exec (.encRd f) s = .next (complete e 0 (accept (commandWord 1 f) s)) := by
  simp only [exec, execEncRd, hostCommand_idle hs.1, accept_latch, h, raise_accepted hs]

theorem exec_encRd_ok {c : ReadCmd} (h : encodeRead (portOperands s).desc f.kind = .ok c) :
    exec (.encRd f) s = .next (complete .ok 0 { accept (commandWord 1 f) s with res := { Results.none with
      frame := some c.frame, expected := some (BitVec.ofNat 16 c.expected), dataBytes := some (BitVec.ofNat 64 c.dataBytes) } }) := by
  simp only [exec, execEncRd, hostCommand_idle hs.1, accept_latch, h]
  exact congrArg _ (finish_not_held hs.2)

theorem exec_encRdsl_error {e : Status} (h : encodeReadSlice (portOperands s).desc f.kind f.slice.toNat = .error e) :
    exec (.encRdsl f) s = .next (complete e 0 (accept (commandWord 2 f) s)) := by
  simp only [exec, execEncRdsl, hostCommand_idle hs.1, accept_latch, h, raise_accepted hs]

theorem exec_encRdsl_ok {c : ReadCmd} (h : encodeReadSlice (portOperands s).desc f.kind f.slice.toNat = .ok c) :
    exec (.encRdsl f) s = .next (complete .ok 0 { accept (commandWord 2 f) s with res := { Results.none with
      frame := some c.frame, expected := some (BitVec.ofNat 16 c.expected), dataBytes := some (BitVec.ofNat 64 c.dataBytes) } }) := by
  simp only [exec, execEncRdsl, hostCommand_idle hs.1, accept_latch, h]
  exact congrArg _ (finish_not_held hs.2)

theorem exec_encWr_error {e : Status} (h : encodeWrite (portOperands s).desc f.kind (portOperands s).data f.slice.toNat = .error e) :
    exec (.encWr f) s = .next (complete e 0 (accept (commandWord 3 f) s)) := by
  simp only [exec, execEncWr, hostCommand_idle hs.1, accept_latch, h, raise_accepted hs]

theorem exec_encWr_ok {c : WriteCmd} (h : encodeWrite (portOperands s).desc f.kind (portOperands s).data f.slice.toNat = .ok c) :
    exec (.encWr f) s = .next (complete .ok 0 { accept (commandWord 3 f) s with res := { Results.none with
      frame := some c.frame, outBytes := some (BitVec.ofNat 16 c.frame.length), inBytes := some 2
      elems := some (BitVec.ofNat 32 c.elems), remsl := some (BitVec.ofNat 32 c.rem) } }) := by
  simp only [exec, execEncWr, hostCommand_idle hs.1, accept_latch, h]
  exact congrArg _ (finish_not_held hs.2)

/-- Without write opcodes PLAN_WR of a valid descriptor completes at once (43_slice_wrap_tracker.md R281). -/
theorem exec_planWr_no_opcodes {e : Status} (hv : validDesc (portOperands s).desc false = true) (ho : writeOpcodes f.kind = .error e) :
    exec (.planWr f) s = .next (complete e 0 (accept (commandWord 5 f) s)) := by
  simp only [exec, execPlanWr, hostCommand_idle hs.1, accept_latch, hv, not_true_eq_false, if_false, ho, raise_accepted hs]

/-- Without write opcodes XFER_WR of operands that pass the checks before completes at once (41_slicer_continuation.md R208). -/
theorem exec_xferWr_no_opcodes {e : Status} (hv : validDesc (portOperands s).desc false = true)
    (hd : (portOperands s).data.length = numElements (portOperands s).desc) (ho : writeOpcodes f.kind = .error e) :
    exec (.xferWr f) s = .next (complete e 0 (accept (commandWord 7 f) s)) := by
  simp only [exec, execXferWr, hostCommand_idle hs.1, accept_latch, hv, hd, ne_eq, not_true_eq_false, if_false, ho, raise_accepted hs]

end

/-! The statements -/

/-- Settles O23: the conditions of a valid descriptor as `validDesc` checks them, and the first-read encoder's two answers. -/
theorem encRdResult : Obligations.EncRdResult := by
  constructor
  · intro d forRead
    simp only [validDesc_iff, nameByte_iff]
    rfl
  · intro f s hs d db opc
    constructor
    · intro hv
      exact exec_encRd_error hs (encodeRead_invalid f.kind hv)
    · intro hv
      have hopc : readOpcode f.kind (isLong d f.kind) = opc := readOpcode_isLong d f.kind
      rw [exec_encRd_ok hs (encodeRead_valid f.kind hv), hopc, replySize, Nat.zero_mul, Nat.sub_zero]
      rfl

/-- Settles O24: the slice-read encoder's three answers. -/
theorem encRdslResult : Obligations.EncRdslResult := by
  intro f s hs d db k
  refine ⟨?_, ?_, ?_⟩
  · intro hv
    exact exec_encRdsl_error hs (encodeReadSlice_invalid f.kind k hv)
  · intro hv hk
    exact exec_encRdsl_error hs (encodeReadSlice_outOfRange hv hk)
  · intro hv h1 h9 hk
    rw [exec_encRdsl_ok hs (encodeReadSlice_valid hv h1 h9 hk), sliceOpcode_eq]
    rfl

/-- Settles O25: the write encoder's errors, each after the checks before it passed. -/
theorem encWrErrors : Obligations.EncWrErrors := by
  intro f s hs d data n a es fails
  refine ⟨?_, ?_, ?_⟩
  · intro h
    exact exec_encWr_error hs (encodeWrite_argument h)
  · intro hv hd e ho
    cases writeOpcodes_error ho
    exact exec_encWr_error hs (encodeWrite_no_opcodes hv hd ho)
  · rintro hv hd ⟨opS, opL⟩ ho
    refine ⟨?_, ?_, ?_⟩
    · intro hfits hslice
      apply exec_encWr_error hs
      rw [encodeWrite_checked hv hd ho (geom_single hfits)]
      exact encodeChunk_outOfRange _ _ _ _ _ (fun _ => hslice) nofun
    · intro hlong hroom
      exact exec_encWr_error hs (encodeWrite_geom_error hv hd ho (geom_no_room hlong hroom))
    · intro hlong hroom hslice
      apply exec_encWr_error hs
      rw [encodeWrite_checked hv hd ho (geom_several hlong hroom)]
      exact encodeChunk_outOfRange _ _ _ _ _ nofun (fun _ => hslice)

/-- Settles O26: the geometry is that of a single packet, and slice 0 is all the data. -/
theorem encWrSinglePacket : Obligations.EncWrSinglePacket := by
  intro f s opS opL hs d data n hv hd ho hfits hslice b
  have hc : encodeWrite d f.kind data f.slice.toNat = .ok { op := writeOp f.kind true, frame := b, elems := n, rem := 0 } := by
    rw [encodeWrite_checked hv hd ho (geom_single hfits), hslice]
    exact encodeChunk_single d f.kind data opS opL rfl
  have hlen := encodeWrite_frame_length hc
  rw [if_pos hfits] at hlen
  simp only at hlen
  exact ⟨by omega, exec_encWr_ok hs hc⟩

/-- Settles O27: the geometry is that of several packets, and slice `k` is one of them. -/
theorem encWrChunk : Obligations.EncWrChunk := by
  intro f s opS opL hs d data n k m p e hv hd ho hlong hroom h9 hp b
  have hg := geom_several hlong hroom
  have hc : encodeWrite d f.kind data k = .ok { op := writeOp f.kind false, frame := b, elems := e, rem := p - k - 1 } := by
    rw [encodeWrite_checked hv hd ho hg]
    exact encodeChunk_several d f.kind data opS opL rfl h9 hp
  obtain ⟨hpos, hle⟩ : 1 ≤ e ∧ e ≤ m := chunkElems_bounds hg rfl k
  have hlen := encodeWrite_frame_length hc
  rw [if_neg hlong.not_ge] at hlen
  simp only at hlen
  exact ⟨hpos, hle, by omega, encodeWrite_length hc, exec_encWr_ok hs hc⟩

/-- Settles O28: where one of the two opcodes is not configured, the opcodes are the first check that fails. -/
theorem int32WritesNeedOpcodes : Obligations.Int32WritesNeedOpcodes := by
  refine ⟨rfl, ?_⟩
  split
  · rename_i a b ha hb
    exact writeOpcodes_configured ha hb
  · rename_i hnone
    intro f s hk hs hv
    have ho : writeOpcodes f.kind = .error .unsupported := hk ▸ writeOpcodes_unconfigured hnone
    refine ⟨exec_planWr_no_opcodes hs hv ho, fun hd => ⟨?_, exec_xferWr_no_opcodes hs hv hd ho⟩⟩
    exact exec_encWr_error hs (encodeWrite_no_opcodes hv hd ho)

end Sys2Proof.Machine
end

section
/-! PROOF. The Int32 write opcodes (40_frame_codec.md R160, 30_encoding.md R117): sent when both are configured, and never selected when
they are not. -/

namespace Sys2Proof.Machine

open Sys2Proof

/-- Without write opcodes of the kind latched, XFER_WR selects no opcode (40_frame_codec.md R160). -/
theorem selectWire_no_opcodes {s : State} {e : Status} (hl : latchOp s = 7) (ho : writeOpcodes (latchKind s) = .error e) (i : Instr) :
    selectWire s ≠ some (.ok i) := by
  have hn : latchOp s ≠ 6 := by rw [hl]; decide
  intro h
  rw [selectWire, if_neg hn, if_pos hl] at h
  split at h
  · rename_i c hc
    obtain ⟨-, -, opS, opL, g, ho', -⟩ := encodeWrite_ok hc
    rw [ho] at ho'
    cases ho'
  · cases h

/-- Settles O46: `exec_trackedChunk` with the two configured opcodes; without them XFER_WR selects neither. -/
theorem int32ChunkIsSent : Obligations.Int32ChunkIsSent := by
  intro s hp hl hk hv hd h d data
  split
  · rename_i opS opL ha hb
    exact exec_trackedChunk hp hl hk hv hd h (writeOpcodes_configured ha hb)
  · rename_i hnone
    have ho : writeOpcodes (latchKind s) = .error .unsupported := hk ▸ writeOpcodes_unconfigured hnone
    exact ⟨otherOpcodesAreNotSent _ s rfl (.inr (selectWire_no_opcodes hl ho _)),
      otherOpcodesAreNotSent _ s rfl (.inr (selectWire_no_opcodes hl ho _))⟩

end Sys2Proof.Machine
end

section
/-! PROOF. One request is outstanding at a time (41_slicer_continuation.md R200, R213): how each operation of a command in progress goes on,
and what that says of a step. -/

namespace Sys2Proof.Machine

open Sys2Proof

/-- From `s` to `t` one request was issued, the one `t` waits for; where it is a `Write`, of a request frame (30_encoding.md R118). -/
def Issues (s t : State) : Prop :=
  ∃ r, t.issued = s.issued ++ [r] ∧ Awaits t r ∧ ∀ b tm, r = .write b tm → IsRequestFrame b

/-- How an operation of a command in progress goes on from `s` to `t`: the latches and the ports stay, and there is a frame to send next, or
the command completed with no EOS configuration held, or one request was issued. -/
def GoesOn (s t : State) : Prop :=
  t.latch = s.latch ∧ t.offered = s.offered ∧ t.responses = s.responses ∧
  (t.phase = .exec ∧ t.eosHeld = s.eosHeld ∧ t.issued = s.issued ∨
    t.phase = .idle ∧ s.eosHeld = false ∧ t.issued = s.issued ∨ Issues s t)

/-- A 16-bit register holds a smaller number exactly (10_state.md R38, R40; log 9). -/
theorem toNat_ofNat_16 {n : Nat} (h : n < 65536) : (BitVec.ofNat 16 n).toNat = n := by
  rw [BitVec.toNat_ofNat]
  exact Nat.mod_eq_of_lt h

theorem GoesOn.pendingInv {s t : State} (h : GoesOn s t) : PendingInv t := by
  obtain ⟨-, -, -, ⟨hp, -, -⟩ | ⟨hp, -, -⟩ | ⟨r, hi, ha, -⟩⟩ := h
  · exact Or.inr (Or.inl hp)
  · exact Or.inl hp
  · exact Or.inr (Or.inr ⟨r, by rw [hi, List.getLast?_concat], ha⟩)

theorem GoesOn.issued {s t : State} (h : GoesOn s t) : t.issued = s.issued ∨ ∃ r, t.issued = s.issued ++ [r] := by
  obtain ⟨-, -, -, ⟨-, -, hi⟩ | ⟨-, -, hi⟩ | ⟨r, hi, -, -⟩⟩ := h
  · exact Or.inl hi
  · exact Or.inl hi
  · exact Or.inr ⟨r, hi⟩

/-- The frame sent next goes on with the command, as one operation with the one before it. -/
theorem GoesOn.trans_exec {s u t : State} (h : GoesOn s u) (hp : u.phase = .exec) (ht : GoesOn u t) : GoesOn s t := by
  obtain ⟨hl, ho, hr, hreq⟩ := h
  obtain ⟨hl', ho', hr', hreq'⟩ := ht
  have hkept : u.eosHeld = s.eosHeld ∧ u.issued = s.issued := by
    rcases hreq with ⟨-, hkept⟩ | ⟨hidle, -⟩ | ⟨r, -, ha, -⟩
    · exact hkept
    · rw [hp] at hidle; cases hidle
    · rw [Awaits, hp] at ha; exact ha.elim
  obtain ⟨hh, hi⟩ := hkept
  refine ⟨hl'.trans hl, ho'.trans ho, hr'.trans hr, ?_⟩
  rw [← hh, ← hi]
  rcases hreq' with hexec | hidle | ⟨r, hnew, hawaits⟩
  · exact Or.inl hexec
  · exact Or.inr (Or.inl hidle)
  · exact Or.inr (Or.inr ⟨r, hi ▸ hnew, hawaits⟩)

/-! The operations -/

theorem finish_goesOn (e : Status) (code : Nat) (s : State) : GoesOn s (finish e code s) := by
  refine ⟨finish_latch e code s, finish_offered e code s, finish_responses e code s, ?_⟩
  cases hh : s.eosHeld with
  | true =>
    rw [finish_held hh]
    exact Or.inr (Or.inr ⟨_, rfl, rfl, nofun⟩)
  | false =>
    rw [finish_not_held hh]
    exact Or.inr (Or.inl ⟨rfl, rfl, rfl⟩)

theorem raise_goesOn (e : Status) (s : State) : GoesOn s (raise e s) := finish_goesOn e 0 s

theorem sent_goesOn {b : List Byte} (opc : Byte) {tm : Timeout} {s : State} (hb : IsRequestFrame b)
    (ht : tm = if latchOp s = 6 then .tCmd else .tArray) : GoesOn s (sent b opc tm s) := by
  refine ⟨rfl, rfl, rfl, Or.inr (Or.inr ⟨.write b tm, rfl, ⟨b, ?_, ?_⟩, ?_⟩)⟩
  · have hlen : (BitVec.ofNat 16 b.length).toNat = b.length := toNat_ofNat_16 (by have := hb.length_le; omega)
    change Memory.loadBytes (Memory.store [] 0 b) 0 (BitVec.ofNat 16 b.length).toNat = some b
    rw [hlen, loadBytes_store]
  · rw [ht]; rfl
  · rintro _ _ ⟨⟩; exact hb

theorem nextRead_requestFrame {s : State} {c : ReadCmd} (h : nextRead s = .ok c) : IsRequestFrame c.frame := by
  unfold nextRead at h
  split at h
  · exact encodeRead_requestFrame h
  · exact encodeReadSlice_requestFrame h

theorem runWire_goesOn {s t : State} (hp : s.phase = .exec) (h : runWire s = .next t) : GoesOn s t := by
  rcases runWire_cases hp h with ⟨c, hl, hc, rfl⟩ | ⟨c, hl, hc, rfl⟩ | ⟨e, -, rfl⟩
  · exact sent_goesOn (s := { s with rd := { s.rd with expected := BitVec.ofNat 16 c.expected } }) _ (nextRead_requestFrame hc)
      (if_pos hl).symm
  · have hl' : latchOp s ≠ 6 := by rw [hl]; decide
    exact sent_goesOn _ (encodeWrite_requestFrame hc) (if_neg hl').symm
  · exact raise_goesOn e s

theorem onEosSave_goesOn (cfg : EosCfg) (st : XStatus) (s : State) : GoesOn s (onEosSave cfg st s) := by
  unfold onEosSave
  split
  · exact raise_goesOn _ s
  · exact ⟨rfl, rfl, rfl, Or.inr (Or.inr ⟨_, rfl, rfl, nofun⟩)⟩

theorem onEosClear_goesOn (st : XStatus) (s : State) : GoesOn s (onEosClear st s) := by
  unfold onEosClear
  split
  · exact raise_goesOn _ s
  · exact ⟨rfl, rfl, rfl, Or.inr (Or.inr ⟨_, rfl, rfl, nofun⟩)⟩

theorem onFlush_goesOn (st : XStatus) (s : State) : GoesOn s (onFlush st s) := by
  unfold onFlush
  split
  · exact raise_goesOn _ s
  · exact ⟨rfl, rfl, rfl, Or.inl ⟨rfl, rfl, rfl⟩⟩

theorem onWritten_goesOn (st : XStatus) (s : State) : GoesOn s (onWritten st s) := by
  unfold onWritten
  split
  · exact raise_goesOn _ s
  · split
    · exact ⟨rfl, rfl, rfl, Or.inr (Or.inr ⟨_, rfl, rfl, nofun⟩)⟩
    · exact ⟨rfl, rfl, rfl, Or.inr (Or.inr ⟨_, rfl, rfl, nofun⟩)⟩

theorem continueRead_goesOn (s : State) : GoesOn s (continueRead s) := by
  unfold continueRead
  split
  · rw [noteContEnd_eq]
    exact finish_goesOn .ok 0 { s with diagContEnd := s.rd.cont || s.diagContEnd }
  · split
    · exact raise_goesOn _ s
    · exact ⟨rfl, rfl, rfl, Or.inl ⟨rfl, rfl, rfl⟩⟩

theorem onData_goesOn {b : List Byte} {st : XStatus} {s t : State} (h : onData b st s = .next t) : GoesOn s t := by
  rcases onData_cases h with ⟨-, rfl⟩ | ⟨-, -, ⟨code, -, rfl⟩ | ⟨-, rfl⟩ | ⟨-, -, -, rfl⟩⟩
  · exact raise_goesOn _ s
  · exact finish_goesOn _ _ (received b s)
  · exact raise_goesOn _ (received b s)
  · exact continueRead_goesOn (appended b s)

theorem chunkAcknowledged_goesOn (echo : Byte) (s : State) : GoesOn s (chunkAcknowledged echo s) := by
  unfold chunkAcknowledged
  rw [noteEcho_eq]
  dsimp only
  split
  · exact finish_goesOn .ok 0 (countAcknowledged { s with diagEcho := decide (echo ≠ s.lastOpc) || s.diagEcho })
  · split
    · exact raise_goesOn _ (countAcknowledged { s with diagEcho := decide (echo ≠ s.lastOpc) || s.diagEcho })
    · exact ⟨rfl, rfl, rfl, Or.inl ⟨rfl, rfl, rfl⟩⟩

theorem onAck_goesOn (b : List Byte) (st : XStatus) (s : State) : GoesOn s (onAck b st s) := by
  have hfails : GoesOn s (raise .transport { s with phase := .exec }) := raise_goesOn .transport { s with phase := .exec }
  unfold onAck
  dsimp only
  split
  · exact hfails
  · split
    · exact hfails
    · split
      · exact ⟨rfl, rfl, rfl, Or.inr (Or.inr ⟨_, rfl, rfl, nofun⟩)⟩
      · split
        · exact hfails
        · exact chunkAcknowledged_goesOn _ { s with phase := .exec }

theorem onTail_goesOn {b : List Byte} {st : XStatus} {s t : State} (h : onTail b st s = .next t) : GoesOn s t := by
  rcases onTail_cases h with ⟨-, rfl⟩ | ⟨-, -, e, code, rfl, -⟩
  · exact raise_goesOn _ { s with phase := .exec }
  · rw [noteLegacy_eq]
    exact finish_goesOn e code
      { received (s.ackHead ++ b) s with diagLegacy := isLegacy .nak (s.ackHead ++ b) || (received (s.ackHead ++ b) s).diagLegacy }

/-- Every response goes on with the command, but the one to EosRestore, which completes it (41_slicer_continuation.md R203). -/
theorem handle_goesOn {r : Response} {s t : State} (h : handle r s = .next t) :
    GoesOn s t ∨ s.phase = .wEosRestore ∧ ∃ st, t = finishRestored st s := by
  rcases handle_cases h with ⟨cfg, st, -, -, -, rfl⟩ | ⟨st, -, -, -, rfl⟩ | ⟨st, -, -, -, rfl⟩ | ⟨st, -, -, rfl⟩ |
    ⟨b, st, -, -, -, ht⟩ | ⟨b, st, -, -, -, rfl⟩ | ⟨b, st, -, -, -, ht⟩ | ⟨st, hp, -, -, rfl⟩
  · exact Or.inl (onEosSave_goesOn cfg st s)
  · exact Or.inl (onEosClear_goesOn st s)
  · exact Or.inl (onFlush_goesOn st s)
  · exact Or.inl (onWritten_goesOn st s)
  · exact Or.inl (onData_goesOn ht)
  · exact Or.inl (onAck_goesOn b st s)
  · exact Or.inl (onTail_goesOn ht)
  · exact Or.inr ⟨hp, st, rfl⟩

/-- A response with the frame it leads to goes on with the command, or completes it after the restore. -/
theorem response_goesOn {r : Response} {s u t : State} (hu : handle r s = .next u)
    (ht : u.phase ≠ .exec ∧ t = u ∨ u.phase = .exec ∧ runWire u = .next t) :
    GoesOn s t ∨ s.phase = .wEosRestore ∧ ∃ st, t = finishRestored st s := by
  rcases ht with ⟨-, rfl⟩ | ⟨hp, ht⟩
  · exact handle_goesOn hu
  · rcases handle_goesOn hu with hg | ⟨-, st, rfl⟩
    · exact Or.inl (hg.trans_exec hp (runWire_goesOn hp ht))
    · cases hp

/-- A host command run in IDLE: it ends, or issues EosSave or, with an EOS configuration still held, EosRestore, and its request log is new. -/
theorem exec_command_goesOn {i : Instr} {w : CmdWord} {s t : State} (hw : i.command = some w) (hp : s.phase = .idle)
    (h : exec i s = .next t) : GoesOn (accept w s) t := by
  by_cases hr : ∃ f, i = .xferRd f
  · obtain ⟨f, rfl⟩ := hr
    cases hw
    rcases execXferRd_cases h with ⟨hne, -⟩ | ⟨-, ⟨e, rfl⟩ | ⟨c, -, -, rfl⟩⟩
    · exact absurd hp hne
    · exact raise_goesOn e _
    · exact ⟨rfl, rfl, rfl, Or.inr (Or.inr ⟨.eosSave, rfl, rfl, nofun⟩)⟩
  by_cases hwr : ∃ f, i = .xferWr f
  · obtain ⟨f, rfl⟩ := hwr
    cases hw
    rcases execXferWr_cases h with ⟨hne, -⟩ | ⟨-, ⟨e, rfl⟩ | ⟨_, x, -, -, -, -, rfl⟩⟩
    · exact absurd hp hne
    · exact raise_goesOn e _
    · exact ⟨rfl, rfl, rfl, Or.inr (Or.inr ⟨.eosSave, rfl, rfl, nofun⟩)⟩
  rcases pure_cases hw ⟨fun f hi => hr ⟨f, hi⟩, fun f hi => hwr ⟨f, hi⟩⟩ h with ⟨hne, -⟩ | ⟨-, e, r, l, x, rfl⟩
  · exact absurd hp hne
  · exact finish_goesOn e 0 { accept w s with res := r, diagLegacy := l, wt := x }

/-- All that a step can do with a command: it waits, with at most the host port read; or the reset or the acceptance of a command begins a new
run; or the run goes on without a response, from EXEC; or it takes the next response. -/
theorem step_goesOn {s t : State} (h : step s = .next t) :
    (∃ p v, t = { s with hostRead := p, hostData := v }) ∨
    s.rst = true ∧ t = resetBlock s ∨
    (∃ w, s.rst = false ∧ s.phase = .idle ∧ GoesOn (accept w s) t) ∨
    s.rst = false ∧ s.phase = .exec ∧ GoesOn s t ∨
    (∃ r rest, s.rst = false ∧ s.phase ≠ .idle ∧ s.phase ≠ .exec ∧ s.responses = r :: rest ∧
      (GoesOn { s with responses := rest } t ∨ s.phase = .wEosRestore ∧ ∃ st, t = finishRestored st { s with responses := rest })) := by
  rcases step_cases h with ⟨hr, rfl⟩ | ⟨r, v, -, -, -, rfl⟩ | ⟨⟨hrst, -⟩, h⟩
  · exact Or.inr (Or.inl ⟨hr, rfl⟩)
  · exact Or.inl ⟨none, some v, rfl⟩
  rcases sequence_cases h with ⟨-, -, rfl⟩ | ⟨o, _, hp, -, -, hx⟩ | ⟨hp, hx⟩ | ⟨-, -, -, rfl⟩ | ⟨r, rest, u, hidle, hexec, hr, hu, ht⟩
  · exact Or.inl ⟨t.hostRead, t.hostData, rfl⟩
  · obtain ⟨w, hw⟩ := decodeCommand_command o.cmdw
    exact Or.inr (Or.inr (Or.inl ⟨w, hrst, hp, exec_command_goesOn hw hp hx⟩))
  · exact Or.inr (Or.inr (Or.inr (Or.inl ⟨hrst, hp, runWire_goesOn hp hx⟩)))
  · exact Or.inl ⟨t.hostRead, t.hostData, rfl⟩
  · exact Or.inr (Or.inr (Or.inr (Or.inr ⟨r, rest, hrst, hidle, hexec, hr, response_goesOn hu ht⟩)))

/-- A command run from acceptance has issued at most one request. -/
theorem GoesOn.issued_accepted {w : CmdWord} {s t : State} (h : GoesOn (accept w s) t) : t.issued.length ≤ 1 := by
  rcases h.issued with hi | ⟨r, hi⟩
  · rw [hi]; exact Nat.zero_le 1
  · rw [hi]; exact Nat.le_refl 1

/-- Settles O7: by cases on how the step goes on, `GoesOn` naming the request issued and the phase that waits for it. -/
theorem oneRequestOutstanding : Obligations.OneRequestOutstanding := by
  intro s t h
  rcases step_goesOn h with ⟨p, v, rfl⟩ | ⟨hr, rfl⟩ | ⟨w, -, hp, hg⟩ | ⟨-, hp, hg⟩ | ⟨r, rest, -, -, -, hr, hg | ⟨-, st, rfl⟩⟩
  · exact ⟨id, Or.inl rfl, fun _ _ _ hne => absurd rfl hne⟩
  · exact ⟨fun _ => Or.inl rfl, Or.inr (Or.inr ⟨Or.inr hr, Nat.zero_le 1⟩), fun hr' => absurd (hr'.symm.trans hr) (by decide)⟩
  · exact ⟨fun _ => hg.pendingInv, Or.inr (Or.inr ⟨Or.inl hp, hg.issued_accepted⟩), fun _ hne => absurd hp hne⟩
  · exact ⟨fun _ => hg.pendingInv, hg.issued.imp_right Or.inl, fun _ _ hne => absurd hp hne⟩
  · refine ⟨fun _ => hg.pendingInv, hg.issued.imp_right Or.inl, fun _ _ _ _ => ⟨r, ?_⟩⟩
    obtain ⟨-, -, hresp, -⟩ := hg
    rw [hr, hresp]
  · exact ⟨fun _ => Or.inl rfl, Or.inl rfl, fun _ _ _ hne => absurd rfl hne⟩

end Sys2Proof.Machine
end

section
/-! PROOF. What a step does with the host port (41_slicer_continuation.md R202): it waits, runs the command offered first, or holds it. -/

namespace Sys2Proof.Machine

open Sys2Proof

/-- Settles O12: with nothing to take the sequencer answers the same state. -/
theorem waits : Obligations.Waits := by
  intro s hq
  rw [step_quiet hq]
  constructor
  · intro hp ho
    simp only [sequence, hp, fetchCommand, ho]
  · intro hidle hexec hr
    rw [sequence_waiting hidle hexec, respond, hr, settle_of_phase_ne_exec hexec]

/-- Settles O18: a quiet step is the sequencer's, and in IDLE the sequencer runs the command offered first. -/
theorem stepRunsCommand : Obligations.StepRunsCommand := by
  intro s o rest hq hp ho hw
  rw [step_quiet hq, sequence_idle hp ho hw]

/-- A host command run at a busy block is held: it changes nothing. -/
theorem exec_command_busy {i : Instr} {w : CmdWord} {s : State} (hw : i.command = some w) (hp : s.phase ≠ .idle) :
    exec i s = .next s := by
  cases i with
  | encRd | encRdsl | encWr | decErr | planWr | xferRd | xferWr | illegal =>
    simp only [exec, execEncRd, execEncRdsl, execEncWr, execDecErr, execPlanWr, execXferRd, execXferWr, execIllegal, hostCommand_busy hp]
  | _ => cases hw

/-- Settles O21: a step of a busy block without RST goes on with its command, and `GoesOn` keeps the offers and the latches. -/
theorem commandHeldWhileBusy : Obligations.CommandHeldWhileBusy := by
  refine ⟨fun s t hrst hp h => ?_, fun i w s hw hp => exec_command_busy hw hp⟩
  rcases step_goesOn h with ⟨p, v, rfl⟩ | ⟨hr, -⟩ | ⟨w, -, hidle, -⟩ | ⟨-, -, hl, ho, -⟩ | ⟨r, rest, -, -, -, -, ⟨hl, ho, -⟩ | ⟨-, st, rfl⟩⟩
  · exact ⟨rfl, rfl⟩
  · rw [hrst] at hr; cases hr
  · exact absurd hidle hp
  · exact ⟨ho, hl⟩
  · exact ⟨ho, hl⟩
  · exact ⟨rfl, rfl⟩

end Sys2Proof.Machine
end

section
/-! PROOF. Every step keeps the invariant of a run (41_slicer_continuation.md R207, R208, R214, 43_slice_wrap_tracker.md R282, R283,
30_encoding.md R118): the frames written, the command that waits, the progress of a read and of a write. -/

namespace Sys2Proof.Machine

open Sys2Proof

/-! The frames written, and the command that waits -/

theorem GoesOn.frameInv {s t : State} (h : GoesOn s t) (hf : FrameInv s) : FrameInv t := by
  obtain ⟨-, -, -, ⟨-, -, hi⟩ | ⟨-, -, hi⟩ | ⟨r, hi, -, hr⟩⟩ := h
  · unfold FrameInv; rw [hi]; exact hf
  · unfold FrameInv; rw [hi]; exact hf
  · intro b tm hb
    rw [hi, List.mem_append, List.mem_singleton] at hb
    rcases hb with hb | hb
    · exact hf b tm hb
    · exact hr b tm hb.symm

theorem step_frameInv {s t : State} (hf : FrameInv s) (h : step s = .next t) : FrameInv t := by
  rcases step_goesOn h with ⟨p, v, rfl⟩ | ⟨-, rfl⟩ | ⟨w, -, -, hg⟩ | ⟨-, -, hg⟩ | ⟨r, rest, -, -, -, -, hg | ⟨-, st, rfl⟩⟩
  · exact hf
  · exact reset_frameInv
  · exact hg.frameInv reset_frameInv
  · exact hg.frameInv hf
  · exact hg.frameInv (s := { s with responses := rest }) hf
  · exact hf

/-- A host command run by a ready block has ended, or is a transfer that issued EosSave. -/
theorem exec_command_started {i : Instr} {w : CmdWord} {s t : State} (hw : i.command = some w) (hs : Ready s)
    (h : exec i s = .next t) :
    t.phase = .idle ∨
    (∃ f c, encodeRead (portOperands s).desc f.kind = .ok c ∧ c.dataBytes ≤ 14000 ∧
      t = enterRaw { startRead c (accept (commandWord 6 f) s) with
        txbuf := Memory.store [] 0 c.frame, txlen := BitVec.ofNat 16 c.frame.length }) ∨
    (∃ f w x, validDesc (portOperands s).desc false = true ∧ (portOperands s).data.length = numElements (portOperands s).desc ∧
      writeOpcodes f.kind = .ok w ∧ wtInit (portOperands s).desc f.kind (wtCounts s.wt) = .ok x ∧
      t = enterRaw { accept (commandWord 7 f) s with wt := wtRegs x, res := { Results.none with elems := some 0 } }) := by
  have hend : ∀ (e : Status) (u : State), u.eosHeld = false → (finish e 0 u).phase = .idle := fun e u hu => by rw [finish_not_held hu]; rfl
  by_cases hr : ∃ f, i = .xferRd f
  · obtain ⟨f, rfl⟩ := hr
    rcases execXferRd_cases h with ⟨hne, -⟩ | ⟨-, ⟨e, rfl⟩ | hstart⟩
    · exact absurd hs.1 hne
    · exact Or.inl (hend e _ hs.2)
    · exact Or.inr (Or.inl ⟨f, hstart⟩)
  by_cases hwr : ∃ f, i = .xferWr f
  · obtain ⟨f, rfl⟩ := hwr
    rcases execXferWr_cases h with ⟨hne, -⟩ | ⟨-, ⟨e, rfl⟩ | hstart⟩
    · exact absurd hs.1 hne
    · exact Or.inl (hend e _ hs.2)
    · exact Or.inr (Or.inr ⟨f, hstart⟩)
  rcases pure_cases hw ⟨fun f hi => hr ⟨f, hi⟩, fun f hi => hwr ⟨f, hi⟩⟩ h with ⟨hne, -⟩ | ⟨-, e, r, l, x, rfl⟩
  · exact absurd hs.1 hne
  · exact Or.inl (hend e _ hs.2)

theorem latchOp_accept (op : BitVec 3) (f : Fields) (s : State) : latchOp (accept (commandWord op f) s) = op := cmdOp_commandWord op f

theorem latchKind_accept (op : BitVec 3) (f : Fields) (s : State) : latchKind (accept (commandWord op f) s) = f.kind :=
  cmdKind_commandWord op f

/-! The progress of a read -/

/-- What XFER_RD keeps in every phase (the part of `ReadInv` that does not look at PHASE). -/
def ReadCore (s : State) : Prop :=
  validDesc s.latch.desc true = true ∧ dataBytes s.latch.desc (latchKind s) ≤ 14000 ∧
  s.rd.dataBytes.toNat = dataBytes s.latch.desc (latchKind s) ∧
  s.rd.bytesRead.toNat + s.rd.remain.toNat = dataBytes s.latch.desc (latchKind s) ∧ s.outlen = some s.rd.bytesRead ∧
  (Memory.loadBytes s.outbuf 0 s.rd.bytesRead.toNat).isSome = true ∧ s.rd.slice.toNat ≤ 9

/-- The data read before slice `RD_SLICE` are those of the slices below it, and some are left (41_slicer_continuation.md R207). -/
def AtSlice (s : State) : Prop :=
  s.rd.bytesRead.toNat = s.rd.slice.toNat * 1400 ∧ s.rd.bytesRead.toNat < dataBytes s.latch.desc (latchKind s)

/-- The reply XFER_RD waits for, or has asked for, is that of slice `RD_SLICE` (40_frame_codec.md R155). -/
def ExpectsSlice (s : State) : Prop :=
  s.rd.expected.toNat = replySize (dataBytes s.latch.desc (latchKind s)) s.rd.slice.toNat

/-- Where XFER_RD is in phase `p` (the part of `ReadInv` that looks at PHASE): the slice, and the requests issued (R214). -/
def ReadAt (s : State) : Phase → Prop
  | .idle => True
  | .wEosSave => s.rd.slice.toNat = 0 ∧ s.rd.bytesRead.toNat = 0 ∧ s.issued.length = 1
  | .wEosClear => s.rd.slice.toNat = 0 ∧ s.rd.bytesRead.toNat = 0 ∧ s.issued.length = 2
  | .wFlush => s.rd.slice.toNat = 0 ∧ s.rd.bytesRead.toNat = 0 ∧ s.issued.length = 3
  | .exec => AtSlice s ∧ s.issued.length = 3 + 2 * s.rd.slice.toNat
  | .wTx => AtSlice s ∧ ExpectsSlice s ∧ s.issued.length = 4 + 2 * s.rd.slice.toNat
  | .wRxData => AtSlice s ∧ ExpectsSlice s ∧ s.issued.length = 5 + 2 * s.rd.slice.toNat
  | .wRxAck => False
  | .wRxTail => False
  | .wEosRestore => s.issued.length ≤ 6 + 2 * s.rd.slice.toNat

/-- `ReadInv` in its two parts. -/
theorem readInv_iff (s : State) : ReadInv s ↔ (s.phase ≠ .idle → latchOp s = 6 → ReadCore s ∧ ReadAt s s.phase) := by
  unfold ReadInv ReadCore ReadAt AtSlice ExpectsSlice
  cases s.phase <;> simp only [and_assoc]

/-- XFER_RD in phase `p`. -/
theorem ReadInv.at {s : State} {p : Phase} (h : ReadInv s) (hl : latchOp s = 6) (hp : s.phase = p) (hne : p ≠ .idle) :
    ReadCore s ∧ ReadAt s p := by
  subst hp
  exact (readInv_iff s).mp h hne hl

theorem ReadInv.of_at {s : State} (hc : ReadCore s) (ha : ReadAt s s.phase) : ReadInv s := (readInv_iff s).mpr fun _ _ => ⟨hc, ha⟩

theorem ReadInv.of_idle {s : State} (hp : s.phase = .idle) : ReadInv s := fun hne => absurd hp hne

theorem ReadInv.of_latchOp {s : State} (hl : latchOp s ≠ 6) : ReadInv s := fun _ hl' => absurd hl' hl

theorem dataBytes_pos (d : Descriptor) (k : Kind) : 0 < dataBytes d k := Nat.mul_pos (numElements_pos d) (esize_pos k)

/-- The end of a read, whatever its status, issues at most the restore (41_slicer_continuation.md R203, R214). -/
theorem finish_readInv (e : Status) (code : Nat) {s : State} (hc : ReadCore s) (hi : s.issued.length ≤ 5 + 2 * s.rd.slice.toNat) :
    ReadInv (finish e code s) := by
  cases hh : s.eosHeld with
  | true =>
    rw [finish_held hh]
    refine ReadInv.of_at hc ?_
    change (s.issued ++ [_]).length ≤ 6 + 2 * s.rd.slice.toNat
    rw [List.length_append, List.length_singleton]
    omega
  | false =>
    rw [finish_not_held hh]
    exact ReadInv.of_idle rfl

theorem issued_concat_length (s : State) (r : Request) : (s.issued ++ [r]).length = s.issued.length + 1 := List.length_append

/-- The next read frame goes out with the length of its reply in RD_EXPECTED (41_slicer_continuation.md R204). -/
theorem runWire_readInv {s t : State} (hp : s.phase = .exec) (h : ReadInv s) (hr : runWire s = .next t) : ReadInv t := by
  by_cases hl : latchOp s = 6
  · obtain ⟨hc, hat, hi⟩ := h.at hl hp (by decide)
    rcases runWire_cases hp hr with ⟨c, -, hn, rfl⟩ | ⟨c, hl', -⟩ | ⟨e, -, rfl⟩
    · obtain ⟨-, hexp, -⟩ := nextRead_ok hn
      refine ReadInv.of_at hc ⟨hat, ?_, ?_⟩
      · change (BitVec.ofNat 16 c.expected).toNat = _
        have := replySize_le (dataBytes s.latch.desc (latchKind s)) s.rd.slice.toNat
        rw [toNat_ofNat_16 (by omega), hexp]
        rfl
      · change (s.issued ++ [_]).length = 4 + 2 * s.rd.slice.toNat
        rw [issued_concat_length]
        omega
    · rw [hl] at hl'; cases hl'
    · exact finish_readInv e 0 hc (by omega)
  · refine ReadInv.of_latchOp ?_
    obtain ⟨hlatch, -⟩ := runWire_goesOn hp hr
    rwa [latchOp, hlatch]

theorem onEosSave_readInv (cfg : EosCfg) (st : XStatus) {s : State} (hc : ReadCore s) (ha : ReadAt s .wEosSave) :
    ReadInv (onEosSave cfg st s) := by
  obtain ⟨h0, hgot, hi⟩ := ha
  unfold onEosSave
  split
  · exact finish_readInv _ _ hc (by omega)
  · exact ReadInv.of_at hc ⟨h0, hgot, by rw [issue_issued, issued_concat_length, hi]⟩

theorem onEosClear_readInv (st : XStatus) {s : State} (hc : ReadCore s) (ha : ReadAt s .wEosClear) : ReadInv (onEosClear st s) := by
  obtain ⟨h0, hgot, hi⟩ := ha
  unfold onEosClear
  split
  · exact finish_readInv _ _ hc (by omega)
  · exact ReadInv.of_at hc ⟨h0, hgot, by rw [issue_issued, issued_concat_length, hi]⟩

theorem onFlush_readInv (st : XStatus) {s : State} (hc : ReadCore s) (ha : ReadAt s .wFlush) : ReadInv (onFlush st s) := by
  obtain ⟨h0, hgot, hi⟩ := ha
  unfold onFlush
  split
  · exact finish_readInv _ _ hc (by omega)
  · have hpos := dataBytes_pos s.latch.desc (latchKind s)
    refine ReadInv.of_at hc ⟨⟨?_, ?_⟩, ?_⟩
    · change s.rd.bytesRead.toNat = s.rd.slice.toNat * 1400
      omega
    · exact hgot ▸ hpos
    · change s.issued.length = 3 + 2 * s.rd.slice.toNat
      omega

theorem onWritten_readInv (st : XStatus) {s : State} (hl : latchOp s = 6) (hc : ReadCore s) (ha : ReadAt s .wTx) :
    ReadInv (onWritten st s) := by
  obtain ⟨hat, hexp, hi⟩ := ha
  rw [onWritten, if_pos hl]
  split
  · exact finish_readInv _ _ hc (by omega)
  · refine ReadInv.of_at hc ⟨hat, hexp, ?_⟩
    change (s.issued ++ [_]).length = 5 + 2 * s.rd.slice.toNat
    rw [issued_concat_length]
    omega

/-- The data bytes of the reply awaited: what is left of the array, up to 1400 (40_frame_codec.md R155). -/
theorem expected_data {s : State} (hat : AtSlice s) (hexp : ExpectsSlice s) :
    s.rd.expected.toNat = min (dataBytes s.latch.desc (latchKind s) - s.rd.bytesRead.toNat) 1400 + 5 := by
  obtain ⟨hgot, hlt⟩ := hat
  obtain ⟨hsize, -⟩ := replySizes s.latch.desc (latchKind s) s.rd.slice.toNat (by omega)
  rw [hexp, hsize, hgot]

theorem bytesFrom_length {r : List Byte} {m : Nat} (h : m + 5 = r.length) : (bytesFrom r 4 (4 + m)).length = m := by
  rw [bytesFrom, List.length_take, List.length_drop]
  omega

/-- An accepted reply of the length awaited moves its bytes from what remains to what is read, and they stand in OUTBUF
(41_slicer_continuation.md R204). -/
theorem appended_readCore {s : State} {r : List Byte} (hc : ReadCore s) (hat : AtSlice s) (hexp : ExpectsSlice s)
    (hr : r.length = s.rd.expected.toNat) :
    ReadCore (appended r s) ∧ (appended r s).rd.bytesRead.toNat = s.rd.bytesRead.toNat + (s.rd.expected.toNat - 5) ∧
      (appended r s).rd.remain.toNat = s.rd.remain.toNat - (s.rd.expected.toNat - 5) := by
  have hm := expected_data hat hexp
  obtain ⟨hv, hmax, hdb, hsum, -, hout, h9⟩ := hc
  have hread : (appended r s).rd.bytesRead.toNat = s.rd.bytesRead.toNat + (s.rd.expected.toNat - 5) := toNat_ofNat_16 (by omega)
  have hleft : (appended r s).rd.remain.toNat = s.rd.remain.toNat - (s.rd.expected.toNat - 5) := toNat_ofNat_16 (by omega)
  refine ⟨⟨hv, hmax, hdb, ?_, rfl, ?_, h9⟩, hread, hleft⟩
  · rw [hread, hleft]
    change _ = dataBytes s.latch.desc (latchKind s)
    omega
  · obtain ⟨old, hold⟩ := Option.isSome_iff_exists.mp hout
    have hlen : (bytesFrom r 4 (4 + (s.rd.expected.toNat - 5))).length = s.rd.expected.toNat - 5 := bytesFrom_length (by omega)
    have happ := loadBytes_store_append (bs := bytesFrom r 4 (4 + (s.rd.expected.toNat - 5))) hold
    rw [hlen, ← hread] at happ
    exact Option.isSome_iff_exists.mpr ⟨_, happ⟩

/-- After a reply the read ends, or goes on with the next slice: then a whole packet was received and bytes are left, so the slice
is at most 9 (41_slicer_continuation.md R206, R207). -/
theorem continueRead_readInv {s : State} (hc : ReadCore s) (hi : s.issued.length = 5 + 2 * s.rd.slice.toNat)
    (hfull : s.rd.remain.toNat ≠ 0 → s.rd.bytesRead.toNat = (s.rd.slice.toNat + 1) * 1400) : ReadInv (continueRead s) := by
  unfold continueRead
  split
  · rw [noteContEnd_eq]
    exact finish_readInv .ok 0 (s := { s with diagContEnd := s.rd.cont || s.diagContEnd }) hc hi.le
  · rename_i hrem
    split
    · exact finish_readInv .malformed 0 hc hi.le
    · have hrem' : s.rd.remain.toNat ≠ 0 := fun h0 => hrem (BitVec.eq_of_toNat_eq h0)
      have hgot := hfull hrem'
      obtain ⟨hv, hmax, hdb, hsum, hlen, hout, h9⟩ := hc
      have hnext : (s.rd.slice + 1).toNat = s.rd.slice.toNat + 1 := by
        rw [BitVec.toNat_add]
        exact Nat.mod_eq_of_lt (by change s.rd.slice.toNat + 1 < 16; omega)
      refine ReadInv.of_at ⟨hv, hmax, hdb, hsum, hlen, hout, ?_⟩ ⟨⟨?_, ?_⟩, ?_⟩
      · change (s.rd.slice + 1).toNat ≤ 9
        omega
      · change s.rd.bytesRead.toNat = (s.rd.slice + 1).toNat * 1400
        rw [hnext, hgot]
      · change s.rd.bytesRead.toNat < dataBytes s.latch.desc (latchKind s)
        omega
      · change s.issued.length = 3 + 2 * (s.rd.slice + 1).toNat
        omega

theorem onData_readInv {b : List Byte} {st : XStatus} {s t : State} (hc : ReadCore s) (ha : ReadAt s .wRxData)
    (hshape : handle.readShape s.rd.expected.toNat b st = true) (h : onData b st s = .next t) : ReadInv t := by
  obtain ⟨hat, hexp, hi⟩ := ha
  rcases onData_cases h with ⟨-, rfl⟩ | ⟨rfl, -, ⟨code, -, rfl⟩ | ⟨-, rfl⟩ | ⟨-, -, -, rfl⟩⟩
  · exact finish_readInv _ _ hc hi.le
  · exact finish_readInv _ _ (s := received b s) hc hi.le
  · exact finish_readInv _ _ (s := received b s) hc hi.le
  · have hlen : b.length = s.rd.expected.toNat := of_decide_eq_true hshape
    obtain ⟨hcore, hread, hleft⟩ := appended_readCore hc hat hexp hlen
    refine continueRead_readInv hcore hi fun hrem => ?_
    have hm := expected_data hat hexp
    obtain ⟨-, -, -, hsum, -⟩ := hc
    obtain ⟨hgot, -⟩ := hat
    rw [hread]
    change _ = (s.rd.slice.toNat + 1) * 1400
    omega

/-- Every response keeps the progress of a read. -/
theorem handle_readInv {r : Response} {s t : State} (h : ReadInv s) (ht : handle r s = .next t) : ReadInv t := by
  by_cases hl : latchOp s = 6
  · rcases handle_cases ht with ⟨cfg, st, hp, -, -, rfl⟩ | ⟨st, hp, -, -, rfl⟩ | ⟨st, hp, -, -, rfl⟩ | ⟨st, hp, -, rfl⟩ |
      ⟨b, st, hp, -, hshape, ht⟩ | ⟨b, st, hp, -, -, -⟩ | ⟨b, st, hp, -, -, -⟩ | ⟨st, -, -, -, rfl⟩
    · obtain ⟨hc, ha⟩ := h.at hl hp (by decide); exact onEosSave_readInv cfg st hc ha
    · obtain ⟨hc, ha⟩ := h.at hl hp (by decide); exact onEosClear_readInv st hc ha
    · obtain ⟨hc, ha⟩ := h.at hl hp (by decide); exact onFlush_readInv st hc ha
    · obtain ⟨hc, ha⟩ := h.at hl hp (by decide); exact onWritten_readInv st hl hc ha
    · obtain ⟨hc, ha⟩ := h.at hl hp (by decide); exact onData_readInv hc ha hshape ht
    · obtain ⟨-, ha⟩ := h.at hl hp (by decide); exact ha.elim
    · obtain ⟨-, ha⟩ := h.at hl hp (by decide); exact ha.elim
    · exact ReadInv.of_idle rfl
  · exact ReadInv.of_latchOp (handle_latchOp ht ▸ hl)

/-- XFER_RD starts with nothing read (41_slicer_continuation.md R204). -/
theorem startRead_readInv {f : Fields} {c : ReadCmd} {s : State} {m : Memory} {n : BitVec 16}
    (hc : encodeRead (portOperands s).desc f.kind = .ok c) (hmax : c.dataBytes ≤ 14000) :
    ReadInv (enterRaw { startRead c (accept (commandWord 6 f) s) with txbuf := m, txlen := n }) := by
  obtain ⟨hv, -, -, -, hdb⟩ := encodeRead_ok hc
  have hk := latchKind_accept 6 f s
  have hreg : (BitVec.ofNat 16 c.dataBytes).toNat = dataBytes (portOperands s).desc (latchKind (accept (commandWord 6 f) s)) := by
    rw [toNat_ofNat_16 (by omega), hdb, hk]
  refine ReadInv.of_at ⟨hv, ?_, hreg, ?_, rfl, rfl, Nat.zero_le 9⟩ ⟨rfl, rfl, rfl⟩
  · change dataBytes (portOperands s).desc (latchKind (accept (commandWord 6 f) s)) ≤ 14000
    rw [hk, ← hdb]
    exact hmax
  · exact (Nat.zero_add _).trans hreg

/-! The progress of a write -/

/-- What XFER_WR keeps until it finishes: the operands passed the checks, and the tracker is at a chunk of their plan. -/
def Writing (s : State) : Prop :=
  validDesc s.latch.desc false = true ∧ s.latch.data.length = numElements s.latch.desc ∧
  (∃ w, writeOpcodes (latchKind s) = .ok w) ∧ Tracking s.latch.desc (latchKind s) (wtCounts s.wt)

theorem WriteInv.of_idle {s : State} (hp : s.phase = .idle) : WriteInv s := fun hne => absurd hp hne

theorem WriteInv.of_latchOp {s : State} (hl : latchOp s ≠ 7) : WriteInv s := fun _ hl' => absurd hl' hl

/-- A write in a phase that is not one of a reply. -/
theorem WriteInv.of_writing {s : State} (hdata : s.phase ≠ .wRxData) (htail : s.phase ≠ .wRxTail) (he : s.res.elems = some s.wt.sent)
    (h : Writing s) : WriteInv s := fun _ _ => ⟨hdata, fun hp => absurd hp htail, he, fun _ => h⟩

theorem WriteInv.elems {s : State} (h : WriteInv s) (hl : latchOp s = 7) (hne : s.phase ≠ .idle) : s.res.elems = some s.wt.sent := by
  obtain ⟨-, -, he, -⟩ := h hne hl
  exact he

theorem WriteInv.writing {s : State} (h : WriteInv s) (hl : latchOp s = 7) (hne : s.phase ≠ .idle) (hfin : s.phase ≠ .wEosRestore) :
    Writing s := by
  obtain ⟨-, -, -, hw⟩ := h hne hl
  exact hw hfin

/-- The end of a write, whatever its status, keeps RES_ELEMS (41_slicer_continuation.md R203). -/
theorem finish_writeInv (e : Status) (code : Nat) {s : State} (he : s.res.elems = some s.wt.sent) : WriteInv (finish e code s) := by
  cases hh : s.eosHeld with
  | true =>
    rw [finish_held hh]
    exact fun _ _ => ⟨nofun, nofun, he, fun hp => absurd rfl hp⟩
  | false =>
    rw [finish_not_held hh]
    exact WriteInv.of_idle rfl

theorem runWire_writeInv {s t : State} (hp : s.phase = .exec) (h : WriteInv s) (hr : runWire s = .next t) : WriteInv t := by
  by_cases hl : latchOp s = 7
  · have hne : s.phase ≠ .idle := by rw [hp]; decide
    have he := h.elems hl hne
    rcases runWire_cases hp hr with ⟨c, hl', -⟩ | ⟨c, -, hn, rfl⟩ | ⟨e, -, rfl⟩
    · rw [hl] at hl'; cases hl'
    · exact WriteInv.of_writing nofun nofun he (h.writing hl hne (by rw [hp]; decide))
    · exact finish_writeInv e 0 he
  · refine WriteInv.of_latchOp ?_
    obtain ⟨hlatch, -⟩ := runWire_goesOn hp hr
    rwa [latchOp, hlatch]

theorem onEosSave_writeInv (cfg : EosCfg) (st : XStatus) {s : State} (he : s.res.elems = some s.wt.sent) (hw : Writing s) :
    WriteInv (onEosSave cfg st s) := by
  unfold onEosSave
  split
  · exact finish_writeInv _ _ he
  · exact WriteInv.of_writing nofun nofun he hw

theorem onEosClear_writeInv (st : XStatus) {s : State} (he : s.res.elems = some s.wt.sent) (hw : Writing s) :
    WriteInv (onEosClear st s) := by
  unfold onEosClear
  split
  · exact finish_writeInv _ _ he
  · exact WriteInv.of_writing nofun nofun he hw

theorem onFlush_writeInv (st : XStatus) {s : State} (he : s.res.elems = some s.wt.sent) (hw : Writing s) :
    WriteInv (onFlush st s) := by
  unfold onFlush
  split
  · exact finish_writeInv _ _ he
  · exact WriteInv.of_writing nofun nofun he hw

theorem onWritten_writeInv (st : XStatus) {s : State} (hl : latchOp s = 7) (he : s.res.elems = some s.wt.sent) (hw : Writing s) :
    WriteInv (onWritten st s) := by
  have hl' : latchOp s ≠ 6 := by rw [hl]; decide
  rw [onWritten, if_neg hl']
  split
  · exact finish_writeInv _ _ he
  · exact WriteInv.of_writing nofun nofun he hw

/-- An acknowledged chunk is counted in RES_ELEMS and in WT_SENT alike (41_slicer_continuation.md R208). -/
theorem chunkAcknowledged_writeInv (echo : Byte) {s : State} (hw : Writing s) : WriteInv (chunkAcknowledged echo s) := by
  obtain ⟨hv, hd, hop, htrack⟩ := hw
  rcases chunkAcknowledged_cases echo rfl hv htrack with ⟨-, heq⟩ | ⟨-, t', hadv, htrack', hoff, hfit, heq⟩
  · rw [heq]
    exact finish_writeInv _ _ (countAcknowledged_elems _)
  · rw [heq, noteEcho_eq]
    refine WriteInv.of_writing nofun nofun ?_ ⟨hv, hd, hop, ?_⟩
    · have hsent : t'.sent = s.wt.sent.toNat + s.wt.chunk.toNat := by
        obtain ⟨-, -, -, -, -, -, -, hsent, -⟩ := htrack
        obtain ⟨-, -, -, -, -, -, -, hsent', -⟩ := htrack'
        rw [hsent', hoff, ← show s.wt.sent.toNat = s.wt.offset.toNat from hsent]
      change some (BitVec.ofNat 32 (s.wt.sent.toNat + s.wt.chunk.toNat)) = some (BitVec.ofNat 32 t'.sent)
      rw [hsent]
    · change Tracking s.latch.desc (latchKind s) (wtCounts (wtRegs t'))
      rw [hfit]
      exact htrack'

/-- The bytes of an acknowledgement that leads to the tail read are one or two (41_slicer_continuation.md R209). -/
theorem onAck_writeInv {b : List Byte} {st : XStatus} {s : State} (hshape : handle.readShape 2 b st = true)
    (he : s.res.elems = some s.wt.sent) (hw : Writing s) : WriteInv (onAck b st s) := by
  have hfails : WriteInv (raise .transport { s with phase := .exec }) := finish_writeInv _ _ (s := { s with phase := .exec }) he
  unfold onAck
  dsimp only
  split
  · exact hfails
  · rename_i hst
    split
    · exact hfails
    · rename_i hb
      split
      · have hlen := readShape_length_le hshape hst
        exact fun _ _ => ⟨nofun, fun _ => ⟨Nat.pos_of_ne_zero hb, hlen⟩, he, fun _ => hw⟩
      · split
        · exact hfails
        · exact chunkAcknowledged_writeInv _ (s := { s with phase := .exec }) hw

theorem onTail_writeInv {b : List Byte} {st : XStatus} {s t : State} (he : s.res.elems = some s.wt.sent)
    (h : onTail b st s = .next t) : WriteInv t := by
  rcases onTail_cases h with ⟨-, rfl⟩ | ⟨-, -, e, code, rfl, -⟩
  · exact finish_writeInv _ _ (s := { s with phase := .exec }) he
  · exact finish_writeInv e code (by rw [noteLegacy_res, noteLegacy_wt]; exact he)

/-- Every response keeps the progress of a write. -/
theorem handle_writeInv {r : Response} {s t : State} (h : WriteInv s) (ht : handle r s = .next t) : WriteInv t := by
  by_cases hl : latchOp s = 7
  · have hin : ∀ {p}, s.phase = p → p ≠ .idle → p ≠ .wEosRestore → s.res.elems = some s.wt.sent ∧ Writing s := by
      rintro p rfl hne hfin
      exact ⟨h.elems hl hne, h.writing hl hne hfin⟩
    rcases handle_cases ht with ⟨cfg, st, hp, -, -, rfl⟩ | ⟨st, hp, -, -, rfl⟩ | ⟨st, hp, -, -, rfl⟩ | ⟨st, hp, -, rfl⟩ |
      ⟨b, st, hp, -, -, -⟩ | ⟨b, st, hp, -, hshape, rfl⟩ | ⟨b, st, hp, -, -, ht⟩ | ⟨st, -, -, -, rfl⟩
    · obtain ⟨he, hw⟩ := hin hp (by decide) (by decide); exact onEosSave_writeInv cfg st he hw
    · obtain ⟨he, hw⟩ := hin hp (by decide) (by decide); exact onEosClear_writeInv st he hw
    · obtain ⟨he, hw⟩ := hin hp (by decide) (by decide); exact onFlush_writeInv st he hw
    · obtain ⟨he, hw⟩ := hin hp (by decide) (by decide); exact onWritten_writeInv st hl he hw
    · obtain ⟨hne, -⟩ := h (by rw [hp]; decide) hl; exact absurd hp hne
    · obtain ⟨he, hw⟩ := hin hp (by decide) (by decide); exact onAck_writeInv hshape he hw
    · obtain ⟨he, -⟩ := hin hp (by decide) (by decide); exact onTail_writeInv he ht
    · exact WriteInv.of_idle rfl
  · exact WriteInv.of_latchOp (handle_latchOp ht ▸ hl)

/-- XFER_WR starts at the first chunk, with no element acknowledged (41_slicer_continuation.md R208). -/
theorem startWrite_writeInv {f : Fields} {w : Byte × Byte} {x : WtCounts} {s : State} (hv : validDesc (portOperands s).desc false = true)
    (hd : (portOperands s).data.length = numElements (portOperands s).desc) (hw : writeOpcodes f.kind = .ok w)
    (hx : wtInit (portOperands s).desc f.kind (wtCounts s.wt) = .ok x) :
    WriteInv (enterRaw { accept (commandWord 7 f) s with wt := wtRegs x, res := { Results.none with elems := some 0 } }) := by
  have hk := latchKind_accept 7 f s
  obtain ⟨htrack, hoff, -⟩ := wtInit_tracking hx
  refine WriteInv.of_writing nofun nofun ?_ ⟨hv, hd, ⟨w, ?_⟩, ?_⟩
  · obtain ⟨-, -, -, -, -, -, -, hsent, -⟩ := htrack
    change some 0 = some (BitVec.ofNat 32 x.sent)
    rw [hsent, hoff]
    rfl
  · change writeOpcodes (latchKind (accept (commandWord 7 f) s)) = _
    rw [hk, hw]
  · change Tracking (portOperands s).desc (latchKind (accept (commandWord 7 f) s)) (wtCounts (wtRegs x))
    rw [hk, tracking_fits hv htrack]
    exact htrack

/-! The whole invariant -/

/-- What is kept of a command that waits: it is a transfer, and its read or its write is where the invariant says. -/
def TransferKept (s : State) : Prop := TransferInv s ∧ ReadInv s ∧ WriteInv s

theorem TransferKept.of_idle {s : State} (hp : s.phase = .idle) : TransferKept s :=
  ⟨fun hne => absurd hp hne, ReadInv.of_idle hp, WriteInv.of_idle hp⟩

theorem exec_command_transferKept {i : Instr} {w : CmdWord} {s t : State} (hw : i.command = some w) (hs : Ready s)
    (h : exec i s = .next t) : TransferKept t := by
  rcases exec_command_started hw hs h with hp | ⟨f, c, hc, hmax, rfl⟩ | ⟨f, w, x, hv, hd, ho, hx, rfl⟩
  · exact TransferKept.of_idle hp
  · have hl := latchOp_accept 6 f s
    exact ⟨fun _ => Or.inl hl, startRead_readInv hc hmax, WriteInv.of_latchOp fun hl' => absurd (hl.symm.trans hl') (by decide)⟩
  · have hl := latchOp_accept 7 f s
    exact ⟨fun _ => Or.inr hl, ReadInv.of_latchOp fun hl' => absurd (hl.symm.trans hl') (by decide), startWrite_writeInv hv hd ho hx⟩

theorem runWire_transferKept {s t : State} (hp : s.phase = .exec) (h : TransferKept s) (hr : runWire s = .next t) : TransferKept t := by
  obtain ⟨htr, hrd, hwr⟩ := h
  refine ⟨fun _ => ?_, runWire_readInv hp hrd hr, runWire_writeInv hp hwr hr⟩
  obtain ⟨hlatch, -⟩ := runWire_goesOn hp hr
  rw [latchOp, hlatch]
  exact htr (by rw [hp]; decide)

theorem handle_transferKept {r : Response} {s t : State} (hne : s.phase ≠ .idle) (h : TransferKept s) (ht : handle r s = .next t) :
    TransferKept t := by
  obtain ⟨htr, hrd, hwr⟩ := h
  refine ⟨fun _ => ?_, handle_readInv hrd ht, handle_writeInv hwr ht⟩
  rw [handle_latchOp ht]
  exact htr hne

theorem step_transferKept {s t : State} (hc : ControlInv s) (hk : TransferKept s) (h : step s = .next t) : TransferKept t := by
  rcases step_cases h with ⟨-, rfl⟩ | ⟨r, v, -, -, -, rfl⟩ | ⟨-, h⟩
  · exact TransferKept.of_idle rfl
  · exact hk
  rcases sequence_cases h with ⟨hp, -, rfl⟩ | ⟨o, _, hp, -, -, hx⟩ | ⟨hp, hx⟩ | ⟨-, -, -, rfl⟩ | ⟨r, rest, u, hidle, -, -, hu, ht⟩
  · exact TransferKept.of_idle hp
  · obtain ⟨w, hw⟩ := decodeCommand_command o.cmdw
    have hheld : s.eosHeld = false := by rw [hc.1, hp]; rfl
    exact exec_command_transferKept hw ⟨hp, hheld⟩ hx
  · exact runWire_transferKept hp hk hx
  · exact hk
  · have hku : TransferKept u := handle_transferKept (s := { s with responses := rest }) hidle hk hu
    rcases ht with ⟨-, rfl⟩ | ⟨hp, hx⟩
    · exact hku
    · exact runWire_transferKept hp hku hx

/-- Settles O9: each part of the invariant is kept, the last three together. -/
theorem runKept : Obligations.RunKept := by
  intro s t ⟨hc, hb, hf, hk⟩ h
  exact ⟨controlKept s t hc h, buffersKept s t hb h, step_frameInv hf h, step_transferKept hc hk h⟩

end Sys2Proof.Machine
end

section
/-! PROOF. The starts of XFER_RD and XFER_WR in a ready block (41_slicer_continuation.md R204, R208, R212): the checks in their order, the whole
state after the first request, and what stays as it was. -/

namespace Sys2Proof.Machine

open Sys2Proof

section
variable {f : Fields} {s : State} (hs : Ready s)
include hs

/-! XFER_RD -/

theorem exec_xferRd_error {e : Status} (h : encodeRead (portOperands s).desc f.kind = .error e) :
    exec (.xferRd f) s = .next (complete e 0 (accept (commandWord 6 f) s)) := by
  simp only [exec, execXferRd, hostCommand_idle hs.1, accept_latch, h, raise_accepted hs]

theorem exec_xferRd_tooLong {c : ReadCmd} (h : encodeRead (portOperands s).desc f.kind = .ok c) (hlong : 14000 < c.dataBytes) :
    exec (.xferRd f) s = .next (complete .protocolLimit 0 (accept (commandWord 6 f) s)) := by
  have hlimit : c.dataBytes > (Config.readMaxSlice + 1) * Config.maxPacketData := hlong
  simp only [exec, execXferRd, hostCommand_idle hs.1, accept_latch, h, if_pos hlimit, raise_accepted hs]

theorem exec_xferRd_ok {c : ReadCmd} (h : encodeRead (portOperands s).desc f.kind = .ok c) (hmax : c.dataBytes ≤ 14000) :
    exec (.xferRd f) s = .next (enterRaw { startRead c (accept (commandWord 6 f) s) with
      txbuf := Memory.store [] 0 c.frame, txlen := BitVec.ofNat 16 c.frame.length }) := by
  have hlimit : ¬ c.dataBytes > (Config.readMaxSlice + 1) * Config.maxPacketData := hmax.not_gt
  simp only [exec, execXferRd, hostCommand_idle hs.1, accept_latch, h, if_neg hlimit, withTx_fits (encodeRead_length h)]

/-! XFER_WR -/

theorem exec_xferWr_argument
    (h : validDesc (portOperands s).desc false = false ∨ (portOperands s).data.length ≠ numElements (portOperands s).desc) :
    exec (.xferWr f) s = .next (complete .argument 0 (accept (commandWord 7 f) s)) := by
  simp only [exec, execXferWr, hostCommand_idle hs.1, accept_latch, raise_accepted hs]
  split
  · rfl
  · rename_i hv
    rw [if_pos (h.resolve_left (by simpa using hv))]

section
variable {w : Byte × Byte} (hv : validDesc (portOperands s).desc false = true)
  (hd : (portOperands s).data.length = numElements (portOperands s).desc) (ho : writeOpcodes f.kind = .ok w)
include hv hd ho

theorem exec_xferWr_error {e : Status} (h : wtInit (portOperands s).desc f.kind (wtCounts s.wt) = .error e) :
    exec (.xferWr f) s = .next (complete e 0 (accept (commandWord 7 f) s)) := by
  simp only [exec, execXferWr, hostCommand_idle hs.1, accept_latch, accept_wt, hv, hd, ho, h, ne_eq, not_true_eq_false, if_false,
    raise_accepted hs]

theorem exec_xferWr_ok {x : WtCounts} (h : wtInit (portOperands s).desc f.kind (wtCounts s.wt) = .ok x) :
    exec (.xferWr f) s = .next (enterRaw { accept (commandWord 7 f) s with
      wt := wtRegs x, res := { Results.none with elems := some 0 } }) := by
  simp only [exec, execXferWr, hostCommand_idle hs.1, accept_latch, accept_wt, hv, hd, ho, h, ne_eq, not_true_eq_false, if_false,
    accept_res]

end

end

theorem wtInit_error {d : Descriptor} {k : Kind} {e : Status} (t : WtCounts) (h : planCheck d k = .error e) : wtInit d k t = .error e := by
  rw [wtInit, h]

/-- Settles O40: the first-read encoder's two answers, the second split at 14000 bytes. -/
theorem xferRdStarts : Obligations.XferRdStarts := by
  intro f s hs d db a
  refine ⟨?_, ?_, ?_⟩
  · intro hv
    exact exec_xferRd_error hs (encodeRead_invalid f.kind hv)
  · intro hv hlong
    exact exec_xferRd_tooLong hs (encodeRead_valid f.kind hv) hlong
  · intro hv hmax
    have hc := encodeRead_valid f.kind hv
    have hlen := encodeRead_length hc
    refine ⟨_, frame (readOpcode f.kind (isLong d f.kind)) (readBody f.kind d), exec_xferRd_ok hs hc hmax, ?_, ?_,
      toNat_ofNat_16 (by change db < 65536; omega), toNat_ofNat_16 (Nat.lt_of_le_of_lt hlen (by decide)), loadBytes_store _ _ _⟩
    · rw [readOpcode_isLong]
      rfl
    · have hsize : replySize db 0 = if db > 1400 then 1405 else db + 5 := by
        rw [replySize, Nat.zero_mul, Nat.sub_zero]
      rw [← hsize]
      rfl

/-- Settles O41: the checks as `execXferWr` makes them, and the tracker that `wtInit` answers. -/
theorem xferWrStarts : Obligations.XferWrStarts := by
  intro f s hs d n a fails
  refine ⟨exec_xferWr_argument hs, fun hv hd => ⟨?_, ?_, ?_⟩⟩
  · intro e ho
    cases writeOpcodes_error ho
    exact exec_xferWr_no_opcodes hs hv hd ho
  · intro w e ho hplan
    cases planCheckFrom_error hplan
    exact exec_xferWr_error hs hv hd ho (wtInit_error _ hplan)
  · intro w ho hplan
    obtain ⟨t, ht⟩ := wtInit_ok (wtCounts s.wt) hplan
    obtain ⟨htrack, hoff, hslice, hbase, htotal, -⟩ := wtInit_tracking ht
    refine ⟨t, exec_xferWr_ok hs hv hd ho ht, tracking_fits hv htrack, htrack, htotal, ?_, hbase, ?_, hslice, hoff⟩
    · obtain ⟨-, -, -, -, -, -, -, hsent, -⟩ := htrack
      rw [hsent, hoff]
    · obtain ⟨-, -, -, hseg, -⟩ := htrack
      rw [hseg, hbase, shift_zero]

/-- Settles O58: each start raised an error, which completes the command at once, or issued EosSave. -/
theorem transferStartFrame : Obligations.TransferStartFrame := by
  intro f s t hs
  have hp := hs.1
  constructor
  · intro h
    rcases execXferRd_cases h with ⟨hne, -⟩ | ⟨-, ⟨e, rfl⟩ | ⟨c, hc, -, rfl⟩⟩
    · exact absurd hp hne
    · rw [raise_accepted hs]
      refine ⟨?_, Or.inl ⟨rfl, rfl⟩, fun _ => rfl, nofun, fun _ _ => rfl⟩
      simp only [complete, accept, BitVec.ofNat_eq_ofNat, ite_self]
    · have hlen := encodeRead_length hc
      refine ⟨rfl, Or.inr ⟨rfl, rfl⟩, fun _ => rfl, fun a ha _ => ?_, nofun⟩
      change Memory.load (Memory.store [] 0 c.frame) a = none
      change (BitVec.ofNat 16 c.frame.length).toNat ≤ a at ha
      rw [toNat_ofNat_16 (by omega)] at ha
      rw [load_store_outside (Or.inr (by omega))]
      rfl
  · intro h
    rcases execXferWr_cases h with ⟨hne, -⟩ | ⟨-, ⟨e, rfl⟩ | ⟨_, x, -, -, -, -, rfl⟩⟩
    · exact absurd hp hne
    · rw [raise_accepted hs]
      refine ⟨?_, Or.inl ⟨rfl, rfl⟩, fun _ => ⟨rfl, rfl⟩⟩
      simp only [complete, accept, BitVec.ofNat_eq_ofNat, ite_self]
    · exact ⟨rfl, Or.inr ⟨rfl, rfl⟩, fun _ => ⟨rfl, rfl⟩⟩

end Sys2Proof.Machine
end

section
/-! PROOF. What the commands without a transport request, and the wire opcodes, leave unchanged. -/

namespace Sys2Proof.Machine

open Sys2Proof

/-- DEC_ERR run by a ready block (42_error_classifier.md R250). -/
theorem exec_decErr_ready (f : Fields) {s : State} (hs : Ready s) :
    let c := classify f.path (portOperands s).buf
    exec (.decErr f) s = .next (complete .ok 0 { accept (commandWord 4 f) s with
      res := { Results.none with cls := some (classBits c), code := some (BitVec.ofNat 16 (classCode c)) }
      diagLegacy := isLegacy f.path (portOperands s).buf }) := by
  simp only [exec, execDecErr, hostCommand_idle hs.1, noteLegacy_eq, accept_latch, accept_diagLegacy, Bool.or_false]
  exact congrArg _ (finish_not_held hs.2)

/-- A ready block completes each of these commands at once, having written results and, for DEC_ERR, DIAG_LEGACY. -/
theorem pureCommand_completes {f : Fields} {w : CmdWord} {i : Instr} {s : State} (hs : Ready s)
    (hi : i = .encRd f ∨ i = .encRdsl f ∨ i = .encWr f ∨ i = .decErr f ∨ i = .illegal w) :
    ∃ w' e r l, i.command = some w' ∧ exec i s = .next (complete e 0 { accept w' s with res := r, diagLegacy := l }) ∧
      (l = true → i = .decErr f) := by
  rcases hi with rfl | rfl | rfl | rfl | rfl
  · cases hc : encodeRead (portOperands s).desc f.kind with
    | error e => exact ⟨_, e, _, false, rfl, exec_encRd_error hs hc, nofun⟩
    | ok c => exact ⟨_, .ok, _, false, rfl, exec_encRd_ok hs hc, nofun⟩
  · cases hc : encodeReadSlice (portOperands s).desc f.kind f.slice.toNat with
    | error e => exact ⟨_, e, _, false, rfl, exec_encRdsl_error hs hc, nofun⟩
    | ok c => exact ⟨_, .ok, _, false, rfl, exec_encRdsl_ok hs hc, nofun⟩
  · cases hc : encodeWrite (portOperands s).desc f.kind (portOperands s).data f.slice.toNat with
    | error e => exact ⟨_, e, _, false, rfl, exec_encWr_error hs hc, nofun⟩
    | ok c => exact ⟨_, .ok, _, false, rfl, exec_encWr_ok hs hc, nofun⟩
  · exact ⟨_, .ok, _, _, rfl, exec_decErr_ready f hs, fun _ => rfl⟩
  · exact ⟨w, .argument, _, false, rfl, exec_illegal_ready w hs, nofun⟩

/-- Settles O56: completion after acceptance, with the registers they write named. -/
theorem pureCommandFrame : Obligations.PureCommandFrame := by
  intro f w i s t hs hi h
  obtain ⟨w', e, r, l, hw, hx, hlegacy⟩ := pureCommand_completes hs hi
  obtain rfl : complete e 0 { accept w' s with res := r, diagLegacy := l } = t := Host.Outcome.next.inj (hx.symm.trans h)
  refine ⟨?_, fun _ => ⟨rfl, rfl⟩, rfl, rfl, rfl, hw, hlegacy⟩
  simp only [complete, accept, hs.1]

/-- A wire opcode changes nothing (log 13), or sends a frame that fits TXBUF, having written RD_EXPECTED where the command is a read. -/
def SendsOrKeeps (s t : State) : Prop :=
  t = s ∨ ∃ b opc tm e, b.length ≤ 1405 ∧ (latchOp s ≠ 6 → e = s.rd.expected) ∧
    t = sent b opc tm { s with rd := { s.rd with expected := e } }

theorem emitRead_sendsOrKeeps {i : Instr} {s t : State} (h : emitRead i s = .next t) : SendsOrKeeps s t := by
  unfold emitRead at h
  split at h
  · rename_i hx
    obtain ⟨-, hl⟩ := hx
    split at h
    · rename_i c hc
      split at h
      · obtain ⟨-, -, -, hlen, -⟩ := nextRead_ok hc
        rw [sendRead_sent hlen] at h
        cases h
        exact Or.inr ⟨c.frame, _, _, _, hlen, fun hl' => absurd hl hl', rfl⟩
      · cases h; exact Or.inl rfl
    · cases h; exact Or.inl rfl
  · cases h; exact Or.inl rfl

theorem emitWrite_sendsOrKeeps {i : Instr} {s t : State} (h : emitWrite i s = .next t) : SendsOrKeeps s t := by
  unfold emitWrite at h
  split at h
  · split at h
    · rename_i c hc
      split at h
      · have hlen := encodeWrite_length hc
        rw [sendWrite_sent hlen] at h
        cases h
        exact Or.inr ⟨c.frame, _, _, s.rd.expected, hlen, fun _ => rfl, rfl⟩
      · cases h; exact Or.inl rfl
    · cases h; exact Or.inl rfl
  · cases h; exact Or.inl rfl

theorem exec_wire_sendsOrKeeps {i : Instr} {s t : State} (hi : i.command = none) (h : exec i s = .next t) : SendsOrKeeps s t := by
  rcases exec_wire hi s with hx | hx
  · exact emitRead_sendsOrKeeps (hx.symm.trans h)
  · exact emitWrite_sendsOrKeeps (hx.symm.trans h)

/-- TXBUF after a frame was sent holds the frame's bytes, and no other (log 8). -/
theorem load_sent (b : List Byte) (opc : Byte) (tm : Timeout) (s : State) (a : Nat) :
    Memory.load (sent b opc tm s).txbuf a = if a < b.length then b[a]? else none := by
  change Memory.load (Memory.store [] 0 b) a = _
  rw [load_store]
  simp only [Nat.zero_le, true_and, Nat.zero_add, Nat.sub_zero]
  rfl

/-- Settles O59: a wire opcode leaves the state as it is, or sends a frame. -/
theorem wireOpcodeFrame : Obligations.WireOpcodeFrame := by
  intro i s t hi h
  rcases exec_wire_sendsOrKeeps hi h with rfl | ⟨b, opc, tm, e, hlen, he, rfl⟩
  · exact ⟨rfl, fun _ => rfl, fun _ => ⟨rfl, rfl⟩, Or.inl rfl⟩
  · refine ⟨rfl, fun hl => ?_, fun _ => ⟨rfl, rfl⟩, Or.inr ⟨b, tm, rfl, toNat_ofNat_16 (by omega), load_sent b opc tm _⟩⟩
    rw [he hl]
    rfl

end Sys2Proof.Machine
end

section
/-! PROOF. The responses to the raw-mode entry, to the `Write` of a frame and to EosRestore (41_slicer_continuation.md R203, R212). -/

namespace Sys2Proof.Machine

open Sys2Proof

/-- A quiet step in a waiting phase takes the next response. -/
theorem step_response {s : State} {r : Response} {rest : List Response} (hq : Quiet s) (hw : waiting s.phase = true)
    (hr : s.responses = r :: rest) : step s = settle (handle r { s with responses := rest }) := by
  have hidle : s.phase ≠ .idle := fun h => by rw [h] at hw; cases hw
  have hexec : s.phase ≠ .exec := fun h => by rw [h] at hw; cases hw
  rw [step_quiet hq, sequence_response hidle hexec hr]

/-! What a step does with a response of the right shape in each phase -/

section
variable {s : State} {rest : List Response} (hq : Quiet s)
include hq

theorem step_eosSave {cfg : EosCfg} {st : XStatus} (hp : s.phase = .wEosSave) (hst : st ≠ .timeout)
    (hr : s.responses = .eos cfg st :: rest) : step s = settle (.next (onEosSave cfg st { s with responses := rest })) := by
  rw [step_response hq (by rw [hp]; rfl) hr]
  simp only [handle, hp, if_neg hst]

theorem step_eosClear {st : XStatus} (hp : s.phase = .wEosClear) (hst : st ≠ .timeout) (hr : s.responses = .done st :: rest) :
    step s = settle (.next (onEosClear st { s with responses := rest })) := by
  rw [step_response hq (by rw [hp]; rfl) hr]
  simp only [handle, hp, if_neg hst]

theorem step_flush {st : XStatus} (hp : s.phase = .wFlush) (hst : st ≠ .timeout) (hr : s.responses = .done st :: rest) :
    step s = settle (.next (onFlush st { s with responses := rest })) := by
  rw [step_response hq (by rw [hp]; rfl) hr]
  simp only [handle, hp, if_neg hst]

theorem step_written {st : XStatus} (hp : s.phase = .wTx) (hr : s.responses = .done st :: rest) :
    step s = settle (.next (onWritten st { s with responses := rest })) := by
  rw [step_response hq (by rw [hp]; rfl) hr]
  simp only [handle, hp]

theorem step_data {b : List Byte} {st : XStatus} (hp : s.phase = .wRxData)
    (hshape : handle.readShape s.rd.expected.toNat b st = true) (hr : s.responses = .bytes b st :: rest) :
    step s = settle (onData b st { s with responses := rest }) := by
  rw [step_response hq (by rw [hp]; rfl) hr]
  simp only [handle, hp, if_pos hshape]

theorem step_ack {b : List Byte} {st : XStatus} (hp : s.phase = .wRxAck) (hshape : handle.readShape Config.ackLen b st = true)
    (hr : s.responses = .bytes b st :: rest) : step s = settle (.next (onAck b st { s with responses := rest })) := by
  rw [step_response hq (by rw [hp]; rfl) hr]
  simp only [handle, hp, if_pos hshape]

theorem step_tail {b : List Byte} {st : XStatus} (hp : s.phase = .wRxTail)
    (hshape : handle.readShape (Config.maxPacketSize - s.ackHead.length) b st = true) (hr : s.responses = .bytes b st :: rest) :
    step s = settle (onTail b st { s with responses := rest }) := by
  rw [step_response hq (by rw [hp]; rfl) hr]
  simp only [handle, hp, if_pos hshape]

theorem step_eosRestore {st : XStatus} (hp : s.phase = .wEosRestore) (hst : st ≠ .timeout) (hr : s.responses = .done st :: rest) :
    step s = .next (finishRestored st { s with responses := rest }) := by
  rw [step_response hq (by rw [hp]; rfl) hr]
  simp only [handle, hp, if_neg hst]
  exact settle_of_phase_ne_exec nofun

end

/-- The state in which a command that ends with `e` waits for the restore of the EOS configuration (41_slicer_continuation.md R203). -/
def restoring (e : Status) (code : Nat) (s : State) : State :=
  { s with finStatus := e, finCode := code, phase := .wEosRestore, issued := s.issued ++ [.eosRestore s.eosSaved] }

theorem finish_restoring (e : Status) (code : Nat) {s : State} (h : s.eosHeld = true) : finish e code s = restoring e code s :=
  finish_held h

theorem raise_restoring (e : Status) {s : State} (h : s.eosHeld = true) : raise e s = restoring e 0 s := finish_held h

theorem settle_restoring (e : Status) (code : Nat) (s : State) : settle (.next (restoring e code s)) = .next (restoring e code s) :=
  settle_of_phase_ne_exec nofun

theorem settle_issue (r : Request) {p : Phase} (s : State) (hp : p ≠ .exec) : settle (.next (issue r p s)) = .next (issue r p s) :=
  settle_of_phase_ne_exec hp

/-! The raw-mode entry -/

theorem onEosSave_ok (cfg : EosCfg) (s : State) :
    onEosSave cfg .ok s = issue .eosClear .wEosClear { s with eosSaved := cfg, eosHeld := true } := if_neg (by decide)

theorem onEosSave_failed (cfg : EosCfg) {st : XStatus} (s : State) (hst : st ≠ .ok) : onEosSave cfg st s = raise .transport s :=
  if_pos hst

theorem onEosClear_ok (s : State) : onEosClear .ok s = issue .flush .wFlush s := if_neg (by decide)

theorem onFlush_ok (s : State) : onFlush .ok s = { s with phase := .exec } := if_neg (by decide)

theorem onWritten_read {s : State} (hl : latchOp s = 6) :
    onWritten .ok s = issue (.read s.rd.expected.toNat .tArray) .wRxData s := (if_neg (by decide)).trans (if_pos hl)

theorem onWritten_write {s : State} (hl : latchOp s = 7) : onWritten .ok s = issue (.read 2 .tAck) .wRxAck s :=
  (if_neg (by decide)).trans (if_neg (by rw [hl]; decide))

/-- Settles O42: phase by phase, an OK response and one that is not. -/
theorem enterRawSteps : Obligations.EnterRawSteps := by
  intro s st rest hq s' fails
  constructor
  · intro cfg hp hh hr
    constructor
    · rintro rfl
      rw [step_eosSave hq hp (by decide) hr, onEosSave_ok, settle_issue _ _ (by decide)]
      rfl
    · rintro rfl
      rw [step_eosSave hq hp (by decide) hr, onEosSave_failed _ _ (by decide), raise_eq, finish_not_held (s := s') hh]
      exact settle_of_phase_ne_exec nofun
  · intro hh hr
    have hfails : settle (.next (raise .transport s')) = .next (restoring .transport 0 s') := by
      rw [raise_restoring (s := s') _ hh, settle_restoring]
    refine ⟨fun hp => ⟨?_, ?_⟩, fun hp => ⟨?_, ?_⟩, fun hp => ⟨?_, ?_, ?_⟩⟩
    · rintro rfl
      rw [step_eosClear hq hp (by decide) hr, onEosClear_ok, settle_issue _ _ (by decide)]
      rfl
    · rintro rfl
      exact (step_eosClear hq hp (by decide) hr).trans hfails
    · rintro rfl
      rw [step_flush hq hp (by decide) hr, onFlush_ok, settle_of_phase_exec rfl]
    · rintro rfl
      exact (step_flush hq hp (by decide) hr).trans hfails
    · rintro rfl hl
      rw [step_written hq hp hr, onWritten_read (s := s') hl, settle_issue _ _ (by decide)]
      rfl
    · rintro rfl hl
      rw [step_written hq hp hr, onWritten_write (s := s') hl, settle_issue _ _ (by decide)]
      rfl
    · rintro (rfl | rfl)
      · exact (step_written hq hp hr).trans hfails
      · exact (step_written hq hp hr).trans hfails

/-! Completion -/

/-- A failed restore changes no status but OK, so the code is kept exactly where the status is CONTROLLER (41_slicer_continuation.md R203). -/
theorem finishRestored_eq (st : XStatus) (s : State) : finishRestored st s = { s with
    phase := .idle, done := true, eosHeld := false
    status := if st ≠ .ok ∧ s.finStatus = .ok then .transport else s.finStatus
    errcode := if s.finStatus = .controller then BitVec.ofNat 16 s.finCode else 0 } := by
  by_cases h : st ≠ .ok ∧ s.finStatus = .ok
  · obtain ⟨-, hfin⟩ := id h
    simp only [finishRestored, complete, if_pos h]
    simp [hfin]
  · simp only [finishRestored, complete, if_neg h]

/-- What a run's transfer leaves when it ends (60_exceptions.md R308): nothing but the control registers and the ports changes. -/
def KeepsResults (s t : State) : Prop :=
  t.done = true ∧ t.rd = s.rd ∧ t.wt = s.wt ∧ t.res = s.res ∧ t.outbuf = s.outbuf ∧ t.outlen = s.outlen

/-- In a run a command in progress ends only at a failed response to EosSave and at the response to EosRestore: in every other phase the
EOS configuration is held, and `finish` restores it first. -/
theorem completes_keepsResults {s t : State} (hc : ControlInv s) (hq : Quiet s) (hne : s.phase ≠ .idle) (h : step s = .next t)
    (ht : t.phase = .idle) : KeepsResults s t := by
  rw [step_quiet hq] at h
  have hheld : ∀ {u v : State}, GoesOn u v → v.phase = .idle → u.eosHeld = true → False := by
    rintro u v ⟨-, -, -, ⟨hp, -⟩ | ⟨-, hu, -⟩ | ⟨r, -, ha, -⟩⟩ hv hu'
    · rw [hv] at hp; cases hp
    · rw [hu'] at hu; cases hu
    · rw [Awaits, hv] at ha; exact ha
  rcases sequence_cases h with ⟨hp, -⟩ | ⟨o, _, hp, -⟩ | ⟨hp, hx⟩ | ⟨-, -, -, rfl⟩ | ⟨r, rest, u, -, -, -, hu, ht'⟩
  · exact absurd hp hne
  · exact absurd hp hne
  · exact (hheld (runWire_goesOn hp hx) ht (by rw [hc.1, hp]; rfl)).elim
  · exact absurd ht hne
  · rcases ht' with ⟨-, rfl⟩ | ⟨hp, hx⟩
    · rcases handle_goesOn hu with hg | ⟨-, st, rfl⟩
      · rcases handle_cases hu with ⟨cfg, st, hp, -, -, rfl⟩ | ⟨st, hp, -⟩ | ⟨st, hp, -⟩ | ⟨st, hp, -⟩ | ⟨b, st, hp, -⟩ | ⟨b, st, hp, -⟩ |
          ⟨b, st, hp, -⟩ | ⟨st, hp, -⟩
        · by_cases hst : st = .ok
          · subst hst
            rw [onEosSave_ok] at ht; cases ht
          · rw [onEosSave_failed _ _ hst, raise_eq, finish_not_held (s := { s with responses := rest }) (by
              change s.eosHeld = false
              rw [hc.1, show s.phase = .wEosSave from hp]; rfl)]
            exact ⟨rfl, rfl, rfl, rfl, rfl, rfl⟩
        all_goals
          exact (hheld hg ht (by change s.eosHeld = true; rw [hc.1]; change s.phase = _ at hp; rw [hp]; rfl)).elim
      · exact ⟨rfl, rfl, rfl, rfl, rfl, rfl⟩
    · have hcu : ControlInv u := handle_controlInv (s := { s with responses := rest }) hc hu
      exact (hheld (runWire_goesOn hp hx) ht (by rw [hcu.1, hp]; rfl)).elim

/-- Settles O53: `finish` by whether the configuration is held, the response to EosRestore, and the end of a transfer in a run, whose results
the run invariant names. -/
theorem finishRestoresEos : Obligations.FinishRestoresEos := by
  refine ⟨fun e code s => ⟨finish_held, finish_not_held, rfl⟩, ?_, ?_⟩
  · intro s st rest hq hp hst hr
    rw [step_eosRestore hq hp hst hr, finishRestored_eq]
  · intro s t hrun hq hne h ht
    obtain ⟨hc, -, -, -, hread, hwrite⟩ := hrun
    obtain ⟨hd, hrd, hwt, hres, hout, hlen⟩ := completes_keepsResults hc hq hne h ht
    refine ⟨hd, hrd, hwt, hres, hout, hlen, fun hl => ?_, fun hl => ?_⟩
    · obtain ⟨-, -, -, -, hlen', hbytes, -⟩ := ((readInv_iff s).mp hread hne hl).1
      rw [hrd, hlen, hout]
      exact ⟨hlen', Option.isSome_iff_exists.mp hbytes⟩
    · rw [hres, hwt]
      exact hwrite.elems hl hne

end Sys2Proof.Machine
end

section
/-! PROOF. The data replies of XFER_RD (41_slicer_continuation.md R204 to R207): the rejected ones, and the accepted ones with what follows. -/

namespace Sys2Proof.Machine

open Sys2Proof

/-! What a data reply does -/

section
variable {r : List Byte} {s : State}

theorem onData_failed {st : XStatus} (r : List Byte) (s : State) (hst : st ≠ .ok) : onData r st s = .next (raise .transport s) :=
  if_pos hst

theorem onData_controller {code : Nat} (hlen : r.length ≤ 1405) (hc : classify .read r = .controllerError code) :
    onData r .ok s = .next (finish .controller code (received r s)) := by
  simp only [onData, ne_eq, not_true_eq_false, if_false, withRx_fits hlen, hc]
  rfl

theorem onData_malformedError (hlen : r.length ≤ 1405) (hc : classify .read r = .malformedError) :
    onData r .ok s = .next (raise .malformed (received r s)) := by
  simp only [onData, ne_eq, not_true_eq_false, if_false, withRx_fits hlen, hc]
  rfl

theorem onData_illFormed (hlen : r.length ≤ 1405) (hc : classify .read r = .noError)
    (hw : replyWellFormed r s.rd.expected.toNat = false) : onData r .ok s = .next (raise .malformed (received r s)) := by
  simp only [onData, ne_eq, not_true_eq_false, if_false, withRx_fits hlen, hc, hw, Bool.false_eq_true]
  rfl

theorem onData_accepted (hlen : r.length ≤ 1405) (hc : classify .read r = .noError)
    (hw : replyWellFormed r s.rd.expected.toNat = true)
    (hout : s.rd.bytesRead.toNat + (bytesFrom r 4 (4 + (s.rd.expected.toNat - 5))).length ≤ 14000) :
    onData r .ok s = .next (continueRead (appended r s)) := by
  simp only [onData, ne_eq, not_true_eq_false, if_false, withRx_fits hlen, hc, hw, if_true, appendReply, withOut_fits hout]
  rfl

end

/-- The structure of a data reply (41_slicer_continuation.md R205). -/
theorem replyWellFormed_iff (r : List Byte) (l : Nat) :
    replyWellFormed r l = true ↔ byteAt r 0 = 0xE3 ∧ byteAt r (l - 1) = 0xE6 ∧ rdle r 2 2 % 32768 = l - 5 := by
  simp only [replyWellFormed, replyLength, Bool.and_eq_true, beq_iff_eq, and_assoc]

/-- A reply with a wrong marker or length is not well formed (41_slicer_continuation.md R205). -/
theorem replyWellFormed_eq_false {r : List Byte} {l : Nat}
    (h : byteAt r 0 ≠ 0xE3 ∨ byteAt r (l - 1) ≠ 0xE6 ∨ rdle r 2 2 % 32768 ≠ l - 5) : replyWellFormed r l = false := by
  rw [Bool.eq_false_iff, Ne, replyWellFormed_iff]
  tauto

/-- In a run XFER_RD waits for a reply with the EOS configuration held, for at most a whole packet (40_frame_codec.md R155). -/
theorem RunInv.held {s : State} (h : RunInv s) (hp : heldPhase s.phase = true) : s.eosHeld = true := h.1.1.trans hp

theorem ReadInv.expected_le {s : State} (h : ReadInv s) (hl : latchOp s = 6) (hp : s.phase = .wRxData) : s.rd.expected.toNat ≤ 1405 := by
  obtain ⟨-, -, hexp, -⟩ := h.at hl hp (by decide)
  have := replySize_le (dataBytes s.latch.desc (latchKind s)) s.rd.slice.toNat
  rw [hexp]
  exact this

/-- Settles O49: each rejection is a `finish` of the reply received, which restores the EOS configuration first. -/
theorem rejectedReply : Obligations.RejectedReply := by
  intro s b st rest hrun hq hp hl hr s' fails ends
  have hheld : s.eosHeld = true := hrun.held (by rw [hp]; rfl)
  obtain ⟨-, -, -, -, hread, -⟩ := hrun
  have hmax := hread.expected_le hl hp
  have hfails : ∀ {x : XStatus}, x ≠ .ok → settle (onData b x s') = .next (restoring .transport 0 s') := fun hx => by
    rw [onData_failed b s' hx, raise_restoring (s := s') _ hheld, settle_restoring]
  have hends : ∀ e code, settle (.next (finish e code (received b s'))) = .next (restoring e code (received b s')) := fun e code => by
    rw [finish_restoring (s := received b s') e code hheld, settle_restoring]
  refine ⟨?_, ?_, ?_⟩
  · rintro rfl
    exact (step_data hq hp rfl hr).trans (hfails (by decide))
  · rintro rfl hlen
    exact (step_data (st := .timeout) hq hp (decide_eq_true hlen) hr).trans (hfails (by decide))
  · rintro rfl hlen
    have hstep : step s = settle (onData b .ok s') := step_data hq hp (decide_eq_true hlen) hr
    have hfits : b.length ≤ 1405 := hlen.le.trans hmax
    refine ⟨fun code hc => ?_, fun hc => ?_, fun hc hw => ?_⟩
    · rw [onData_controller hfits hc] at hstep
      exact hstep.trans (hends _ _)
    · rw [onData_malformedError hfits hc] at hstep
      exact hstep.trans (hends _ _)
    · rw [onData_illFormed hfits hc (replyWellFormed_eq_false (l := s'.rd.expected.toNat) (hlen ▸ hw))] at hstep
      exact hstep.trans (hends _ _)

/-! The parts of a well-formed reply -/

section
variable (opc : Byte) (cont : Bool) (body : List Byte)

@[simp] theorem replyFrame_length : (replyFrame opc cont body).length = body.length + 5 := by
  simp [replyFrame]
  omega

theorem replyFrame_start : byteAt (replyFrame opc cont body) 0 = 0xE3 := rfl

theorem replyFrame_end : byteAt (replyFrame opc cont body) (body.length + 4) = 0xE6 := by
  have hpre : ([Config.replyStart, opc] ++ leBytes 2 (body.length + if cont then 32768 else 0) ++ body).length = body.length + 4 := by
    simp
    omega
  rw [byteAt, replyFrame, List.getD_eq_getElem?_getD, ← hpre, List.getElem?_concat_length]
  rfl

/-- The body of a reply stands behind its four header bytes (30_encoding.md R107). -/
theorem replyFrame_body : bytesFrom (replyFrame opc cont body) 4 (4 + body.length) = body := by
  have hcut : replyFrame opc cont body =
      ([Config.replyStart, opc] ++ leBytes 2 (body.length + if cont then 32768 else 0)) ++ (body ++ [Config.replyEnd]) := by
    simp [replyFrame]
  have hpre : ([Config.replyStart, opc] ++ leBytes 2 (body.length + if cont then 32768 else 0)).length = 4 := by simp
  rw [bytesFrom, hcut, ← hpre, List.drop_left, Nat.add_sub_cancel_left, List.take_left]

variable {body} (hlen : body.length < 32768)
include hlen

/-- The length field of a reply: its low 15 bits are the length of the body (90_conflicts.md C6). -/
theorem replyFrame_bodyLength : rdle (replyFrame opc cont body) 2 2 % 32768 = body.length := by
  have hread := rdle_leBytes 2 (body.length + if cont then 32768 else 0) [Config.replyStart, opc] (body ++ [Config.replyEnd])
  rw [← List.append_assoc, show [Config.replyStart, opc].length = 2 from rfl] at hread
  rw [replyFrame, hread]
  split <;> omega

/-- The continuation flag of a reply: bit 15 of the length field (10_state.md R46). -/
theorem replyFrame_cont : contFlag (replyFrame opc cont body) = cont := by
  have hbyte : byteAt (replyFrame opc cont body) 3 = BitVec.ofNat 8 ((body.length + if cont then 32768 else 0) / 256) := rfl
  rw [contFlag, hbyte, BitVec.getLsbD_ofNat, Nat.testBit_eq_decide_div_mod_eq]
  cases cont
  · simp; omega
  · simp; omega

theorem replyFrame_wellFormed : replyWellFormed (replyFrame opc cont body) (body.length + 5) = true := by
  rw [replyWellFormed_iff]
  exact ⟨replyFrame_start opc cont body, replyFrame_end opc cont body, replyFrame_bodyLength opc cont hlen⟩

end

/-! An accepted reply -/

/-- The state after an accepted reply, before the sequencer decides how to go on (41_slicer_continuation.md R204): `r` is the reply, with the
continuation flag `cont` and the data `body`, and `rest` are the responses after it. -/
def afterReply (r : List Byte) (cont : Bool) (body : List Byte) (rest : List Response) (s : State) : State :=
  { s with
    responses := rest, rxbuf := Memory.store [] 0 r, rxlen := BitVec.ofNat 16 r.length
    rd := { s.rd with
      cont := cont, bytesRead := BitVec.ofNat 16 (s.rd.bytesRead.toNat + body.length)
      remain := BitVec.ofNat 16 (s.rd.remain.toNat - body.length) }
    outbuf := Memory.store s.outbuf s.rd.bytesRead.toNat body
    outlen := some (BitVec.ofNat 16 (s.rd.bytesRead.toNat + body.length)) }

/-- With all data read, a set continuation flag is only noted, and the command finishes OK (41_slicer_continuation.md R206). -/
theorem continueRead_done {s : State} (h : s.rd.remain = 0) (hheld : s.eosHeld = true) :
    continueRead s = restoring .ok 0 { s with diagContEnd := s.rd.cont || s.diagContEnd } := by
  rw [continueRead, if_pos h, noteContEnd_eq, finish_restoring]
  exact hheld

theorem continueRead_stopped {s : State} (h : s.rd.remain ≠ 0) (hc : s.rd.cont = false) : continueRead s = raise .malformed s := by
  rw [continueRead, if_neg h, if_pos hc]

theorem continueRead_next {s : State} (h : s.rd.remain ≠ 0) (hc : s.rd.cont = true) :
    continueRead s = { s with rd := { s.rd with slice := s.rd.slice + 1 }, phase := .exec } := by
  rw [continueRead, if_neg h, hc]
  rfl

/-- In EXEC of XFER_RD after slice 0 the slice read of RD_SLICE goes out (40_frame_codec.md R156, 41_slicer_continuation.md R204). -/
theorem runWire_sliceRead {s : State} (hp : s.phase = .exec) (hl : latchOp s = 6) (hv : validDesc s.latch.desc true = true)
    (h1 : 1 ≤ s.rd.slice) (h9 : s.rd.slice ≤ 9) (hn : s.rd.slice.toNat * 1400 < dataBytes s.latch.desc (latchKind s)) :
    runWire s = .next (sent
      (frame (sliceOpcode (latchKind s))
        ([0x25] ++ [digit s.rd.slice.toNat] ++ [0x25, 0x3F, 0x3F] ++ [dsb (latchKind s)] ++ ascii s.latch.desc))
      (sliceOpcode (latchKind s)) .tCmd
      { s with rd := { s.rd with expected := BitVec.ofNat 16 (replySize (dataBytes s.latch.desc (latchKind s)) s.rd.slice.toNat) } }) := by
  have h0 : s.rd.slice ≠ 0 := fun h => by rw [h] at h1; exact absurd h1 (by decide)
  have hnext : nextRead s = encodeReadSlice s.latch.desc (latchKind s) s.rd.slice.toNat := if_neg h0
  rw [encodeReadSlice_valid hv h1 h9 hn] at hnext
  rw [runWire_selected (selectWire_read hl hnext)]
  exact exec_sliceRead hp hl hv h1 h9 hn rfl

/-- A read that goes on sends the command of the next slice in the same step (41_slicer_continuation.md R206, 00_scope.md R12). -/
theorem settle_continueRead_next {s : State} (hl : latchOp s = 6) (hv : validDesc s.latch.desc true = true) (hrem : s.rd.remain ≠ 0)
    (hc : s.rd.cont = true) (h9 : s.rd.slice.toNat + 1 ≤ 9)
    (hn : (s.rd.slice.toNat + 1) * 1400 < dataBytes s.latch.desc (latchKind s)) :
    settle (.next (continueRead s)) = .next (sent
      (frame (sliceOpcode (latchKind s))
        ([0x25] ++ [digit (s.rd.slice.toNat + 1)] ++ [0x25, 0x3F, 0x3F] ++ [dsb (latchKind s)] ++ ascii s.latch.desc))
      (sliceOpcode (latchKind s)) .tCmd
      { s with rd := { s.rd with
          slice := s.rd.slice + 1
          expected := BitVec.ofNat 16 (replySize (dataBytes s.latch.desc (latchKind s)) (s.rd.slice.toNat + 1)) } }) := by
  have hslice : (s.rd.slice + 1).toNat = s.rd.slice.toNat + 1 := by
    rw [BitVec.toNat_add]
    exact Nat.mod_eq_of_lt (by change s.rd.slice.toNat + 1 < 16; omega)
  rw [continueRead_next hrem hc, settle_of_phase_exec rfl, ← hslice]
  rw [← hslice] at h9 hn
  have h1 : 1 ≤ (s.rd.slice + 1).toNat := by omega
  exact runWire_sliceRead (s := { s with rd := { s.rd with slice := s.rd.slice + 1 }, phase := .exec }) rfl hl hv h1 h9 hn

section
variable {s : State} {opc : Byte} {cont : Bool} {body : List Byte} {rest : List Response} (hq : Quiet s) (hread : ReadInv s)
  (hp : s.phase = .wRxData) (hl : latchOp s = 6) (hlen : body.length + 5 = s.rd.expected.toNat)

section
include hread hp hl hlen

/-- The data of the reply awaited: what is left of the array, up to 1400 bytes, at the place of slice RD_SLICE (40_frame_codec.md R155). -/
theorem reply_bounds :
    body.length = min s.rd.remain.toNat 1400 ∧ s.rd.bytesRead.toNat + s.rd.remain.toNat ≤ 14000 ∧
      s.rd.bytesRead.toNat = s.rd.slice.toNat * 1400 ∧
      s.rd.bytesRead.toNat + s.rd.remain.toNat = dataBytes s.latch.desc (latchKind s) := by
  obtain ⟨⟨-, hmax, -, hsum, -⟩, hat, hexp, -⟩ := hread.at hl hp (by decide)
  have hm := expected_data hat hexp
  refine ⟨by omega, by omega, hat.1, hsum⟩

theorem afterReply_bytesRead (r : List Byte) :
    (afterReply r cont body rest s).rd.bytesRead.toNat = s.rd.bytesRead.toNat + body.length := by
  obtain ⟨hbody, hmax, -⟩ := reply_bounds hread hp hl hlen
  exact toNat_ofNat_16 (by omega)

theorem afterReply_remain (r : List Byte) : (afterReply r cont body rest s).rd.remain.toNat = s.rd.remain.toNat - body.length := by
  obtain ⟨-, hmax, -⟩ := reply_bounds hread hp hl hlen
  exact toNat_ofNat_16 (by omega)

theorem appended_replyFrame : appended (replyFrame opc cont body) { s with responses := rest } =
    { afterReply (replyFrame opc cont body) cont body rest s with phase := .exec } := by
  obtain ⟨hbody, -⟩ := reply_bounds hread hp hl hlen
  have hm : s.rd.expected.toNat - 5 = body.length := by omega
  simp only [appended, received, afterReply, hm, replyFrame_body, replyFrame_cont opc cont (show body.length < 32768 by omega)]

include hq

/-- A step that takes a reply of the length awaited with no error in it appends its data, and decides how to go on. -/
theorem step_accepted (hc : classify .read (replyFrame opc cont body) = .noError)
    (hr : s.responses = .bytes (replyFrame opc cont body) .ok :: rest) :
    step s = settle (.next (continueRead { afterReply (replyFrame opc cont body) cont body rest s with phase := .exec })) := by
  obtain ⟨hbody, hmax, -⟩ := reply_bounds hread hp hl hlen
  have hm : s.rd.expected.toNat - 5 = body.length := by omega
  have hshape : handle.readShape s.rd.expected.toNat (replyFrame opc cont body) .ok = true :=
    decide_eq_true ((replyFrame_length opc cont body).trans hlen)
  have hw := replyFrame_wellFormed opc cont (body := body) (by omega)
  rw [step_data hq hp hshape hr, onData_accepted, appended_replyFrame hread hp hl hlen]
  · rw [replyFrame_length]; omega
  · exact hc
  · rw [hlen] at hw; exact hw
  · change s.rd.bytesRead.toNat + (bytesFrom (replyFrame opc cont body) 4 (4 + (s.rd.expected.toNat - 5))).length ≤ 14000
    rw [hm, replyFrame_body]
    omega

/-- An accepted reply with data left and the continuation flag leads to the command of the next slice in the same step
(41_slicer_continuation.md R206, R207). -/
theorem step_accepted_next (hc : classify .read (replyFrame opc true body) = .noError)
    (hr : s.responses = .bytes (replyFrame opc true body) .ok :: rest) (hleft : s.rd.remain.toNat - body.length ≠ 0) :
    s.rd.slice.toNat + 1 ≤ 9 ∧ step s = .next (sent
      (frame (sliceOpcode (latchKind s))
        ([0x25] ++ [digit (s.rd.slice.toNat + 1)] ++ [0x25, 0x3F, 0x3F] ++ [dsb (latchKind s)] ++ ascii s.latch.desc))
      (sliceOpcode (latchKind s)) .tCmd
      { afterReply (replyFrame opc true body) true body rest s with
        rd := { (afterReply (replyFrame opc true body) true body rest s).rd with
          slice := s.rd.slice + 1
          expected := BitVec.ofNat 16 (replySize (dataBytes s.latch.desc (latchKind s)) (s.rd.slice.toNat + 1)) } }) := by
  obtain ⟨hbody, hmax, hgot, hsum⟩ := reply_bounds hread hp hl hlen
  obtain ⟨⟨hv, -⟩, -⟩ := hread.at hl hp (by decide)
  have hnine : s.rd.slice.toNat + 1 ≤ 9 := by omega
  have hn : (s.rd.slice.toNat + 1) * 1400 < dataBytes s.latch.desc (latchKind s) := by omega
  have hrem : (afterReply (replyFrame opc true body) true body rest s).rd.remain ≠ 0 := fun h0 => by
    have := afterReply_remain (cont := true) (rest := rest) hread hp hl hlen (replyFrame opc true body)
    rw [h0] at this
    exact hleft this.symm
  exact ⟨hnine, (step_accepted hq hread hp hl hlen hc hr).trans (settle_continueRead_next
    (s := { afterReply (replyFrame opc true body) true body rest s with phase := .exec }) hl hv hrem rfl hnine hn)⟩

end

end

/-- Settles O50: the reply is received and appended, and RD_REMAIN and the continuation flag decide what follows. -/
theorem acceptedReply : Obligations.AcceptedReply := by
  intro s opc cont body old rest hrun hq hp hl hlen hold hc hr r left got ends opcode
  have hheld : s.eosHeld = true := hrun.held (by rw [hp]; rfl)
  obtain ⟨-, -, -, -, hread, -⟩ := hrun
  obtain ⟨hbody, hmax, hgot, hsum⟩ := reply_bounds hread hp hl hlen
  have hread' : got.rd.bytesRead.toNat = s.rd.bytesRead.toNat + body.length := afterReply_bytesRead hread hp hl hlen r
  have hremain : got.rd.remain.toNat = left := afterReply_remain hread hp hl hlen r
  have hstep : step s = settle (.next (continueRead { got with phase := .exec })) := step_accepted hq hread hp hl hlen hc hr
  have hnonzero : left ≠ 0 → got.rd.remain ≠ 0 := fun hleft h0 => hleft (by rw [← hremain, h0]; rfl)
  refine ⟨hread', hremain, toNat_ofNat_16 ?_, loadBytes_store [] 0 r, loadBytes_store_append hold, fun h0 => ?_, fun hleft hcont => ?_,
    fun hleft hcont => ?_⟩
  · rw [replyFrame_length]; omega
  · have hzero : got.rd.remain = 0 := BitVec.eq_of_toNat_eq (hremain.trans h0)
    rw [continueRead_done (s := { got with phase := .exec }) hzero hheld, settle_restoring] at hstep
    exact hstep
  · rw [continueRead_stopped (s := { got with phase := .exec }) (hnonzero hleft) hcont,
      raise_restoring (s := { got with phase := .exec }) _ hheld, settle_restoring] at hstep
    exact hstep
  · subst hcont
    obtain ⟨hnine, hnext⟩ := step_accepted_next hq hread hp hl hlen hc hr hleft
    have hsize : replySize (dataBytes s.latch.desc (latchKind s)) (s.rd.slice.toNat + 1) = if left > 1400 then 1405 else left + 5 := by
      have hdb : dataBytes s.latch.desc (latchKind s) - (s.rd.slice.toNat + 1) * 1400 = left := by omega
      rw [replySize, hdb]
    rw [sliceOpcode_eq, hsize] at hnext
    exact ⟨hnine, hnext⟩

end Sys2Proof.Machine
end

section
/-! PROOF. The acknowledgements of XFER_WR and the tail of a non-acknowledged reply (41_slicer_continuation.md R208 to R211). -/

namespace Sys2Proof.Machine

open Sys2Proof

/-! What an acknowledgement does -/

section
variable (s : State)

theorem onAck_error (b : List Byte) : onAck b .error s = raise .transport { s with phase := .exec } := rfl

theorem onAck_empty : onAck [] .timeout s = raise .transport { s with phase := .exec } := rfl

theorem onAck_noEcho : onAck [Config.ackByte] .timeout s = raise .transport { s with phase := .exec } := by
  simp [onAck, byteAt]

theorem onAck_other {x : Byte} {b : List Byte} {st : XStatus} (hst : st ≠ .error) (hx : x ≠ Config.ackByte) :
    onAck (x :: b) st s = nakTail (x :: b) { s with phase := .exec } := by
  simp [onAck, byteAt, hst, hx]

theorem onAck_acknowledged (y : Byte) : onAck [Config.ackByte, y] .ok s = chunkAcknowledged y { s with phase := .exec } := by
  simp [onAck, byteAt]

end

/-- Counting a chunk adds it to WT_SENT and changes no other WT register (41_slicer_continuation.md R208). -/
theorem wtRegs_countChunk (w : WriteRegs) : wtRegs (countChunk (wtCounts w)) = { w with sent := w.sent + w.chunk } := by
  simp [wtRegs, countChunk, wtCounts, BitVec.ofNat_add]

/-- The state after an acknowledged chunk was counted (41_slicer_continuation.md R208, R211): `y` is the echo, `rest` are the responses after
it. -/
def afterAck (y : Byte) (rest : List Response) (s : State) : State :=
  { s with
    responses := rest, diagEcho := decide (y ≠ s.lastOpc) || s.diagEcho
    wt := { s.wt with sent := s.wt.sent + s.wt.chunk }, res := { s.res with elems := some (s.wt.sent + s.wt.chunk) } }

theorem countAcknowledged_noteEcho (y : Byte) (rest : List Response) (s : State) :
    countAcknowledged (noteEcho y { s with responses := rest, phase := .exec }) = { afterAck y rest s with phase := .exec } := by
  rw [noteEcho_eq]
  simp only [countAcknowledged, wtRegs_countChunk]
  rfl

/-- In EXEC of XFER_WR the frame of the tracker's chunk is there to send, with the length and the opcode of its record
(41_slicer_continuation.md R208, 43_slice_wrap_tracker.md R281). -/
theorem nextWrite_ok {s : State} {opS opL : Byte} (hw : Writing s) (ho : writeOpcodes (latchKind s) = .ok (opS, opL)) :
    ∃ c, nextWrite s = .ok c ∧ c.frame.length = (chunkRecord (latchKind s) opS opL (wtCounts s.wt)).outBytes.toNat ∧
      byteAt c.frame 1 = (chunkRecord (latchKind s) opS opL (wtCounts s.wt)).opcode := by
  obtain ⟨hv, hd, -, htrack⟩ := hw
  obtain ⟨c, hc, -, -, -, hlen, hopc⟩ := encodeWrite_tracking hv htrack hd ho
  exact ⟨c, hc, hlen, hopc⟩

/-- An acknowledged chunk in a write: after the last one the command finishes OK with every element sent, after another the tracker goes on
(41_slicer_continuation.md R208, 43_slice_wrap_tracker.md R283). -/
theorem chunkAcknowledged_writing (y : Byte) (rest : List Response) {s : State} (hw : Writing s) :
    s.wt.sent.toNat + s.wt.chunk.toNat ≤ numElements s.latch.desc ∧
    (s.wt.remsl = 0 ∧ s.wt.sent.toNat + s.wt.chunk.toNat = numElements s.latch.desc ∧
      chunkAcknowledged y { s with responses := rest, phase := .exec } = finish .ok 0 { afterAck y rest s with phase := .exec } ∨
    s.wt.remsl ≠ 0 ∧ ∃ t', wtAdvance s.latch.desc (latchKind s) (countChunk (wtCounts s.wt)) = .ok t' ∧
      wtCounts (wtRegs t') = t' ∧ t'.sent = s.wt.sent.toNat + s.wt.chunk.toNat ∧
      t'.offset = s.wt.offset.toNat + s.wt.chunk.toNat ∧ Writing { afterAck y rest s with wt := wtRegs t' } ∧
      chunkAcknowledged y { s with responses := rest, phase := .exec } = { afterAck y rest s with wt := wtRegs t', phase := .exec }) := by
  obtain ⟨hv, hd, hop, htrack⟩ := hw
  have hsent : s.wt.sent.toNat = s.wt.offset.toNat := by
    obtain ⟨-, -, -, -, -, -, -, hsent, -⟩ := htrack
    exact hsent
  obtain ⟨-, hend, hlast, -⟩ := tracking_chunk hv htrack
  refine ⟨hsent ▸ hend, ?_⟩
  rcases chunkAcknowledged_cases (s := { s with responses := rest, phase := .exec }) y rfl hv htrack with
    ⟨h0, heq⟩ | ⟨h0, t', hadv, htrack', hoff, hfit, heq⟩
  · refine Or.inl ⟨h0, hsent ▸ hlast.mp (congrArg BitVec.toNat h0), ?_⟩
    rw [heq, countAcknowledged_noteEcho]
  · have hsent' : t'.sent = s.wt.sent.toNat + s.wt.chunk.toNat := by
      obtain ⟨-, -, -, -, -, -, -, hsent', -⟩ := htrack'
      rw [hsent', hoff, hsent]
    refine Or.inr ⟨h0, t', hadv, hfit, hsent', hoff, ⟨hv, hd, hop, ?_⟩, ?_⟩
    · change Tracking s.latch.desc (latchKind s) (wtCounts (wtRegs t'))
      rw [hfit]
      exact htrack'
    · rw [heq, countAcknowledged_noteEcho]

theorem afterAck_sent (y : Byte) (rest : List Response) {s : State} (hw : Writing s) :
    (afterAck y rest s).wt.sent.toNat = s.wt.sent.toNat + s.wt.chunk.toNat := by
  obtain ⟨hmax, -⟩ := chunkAcknowledged_writing y rest hw
  obtain ⟨-, -, -, hsize⟩ := validDesc_parts hw.1
  change (s.wt.sent + s.wt.chunk).toNat = _
  rw [BitVec.toNat_add]
  exact Nat.mod_eq_of_lt (by omega)

theorem afterAck_counts (y : Byte) (rest : List Response) {s : State} (hw : Writing s) :
    wtCounts (afterAck y rest s).wt = countChunk (wtCounts s.wt) := by
  obtain ⟨hv, -, -, htrack⟩ := hw
  rw [← tracking_count_fits hv htrack, wtRegs_countChunk]
  rfl

/-- After a chunk that is not the last the next frame goes out in the same step (41_slicer_continuation.md R208, 00_scope.md R12). -/
theorem settle_writing {s : State} {c : WriteCmd} (hl : latchOp s = 7) (hc : nextWrite s = .ok c) :
    settle (.next { s with phase := .exec }) = .next (sent c.frame (byteAt c.frame 1) .tArray s) := by
  rw [settle_of_phase_exec rfl]
  exact runWire_write (s := { s with phase := .exec }) rfl hl hc

/-- Settles O51: the shapes of an acknowledgement one by one; `chunkAcknowledged_writing` says what an acknowledged chunk does. -/
theorem acknowledgementCheck : Obligations.AcknowledgementCheck := by
  intro s b st rest hrun hq hp hl hr s' fails
  have hheld : s.eosHeld = true := hrun.held (by rw [hp]; rfl)
  obtain ⟨-, -, -, -, -, hwrite⟩ := hrun
  have hw : Writing s := hwrite.writing hl (by rw [hp]; decide) (by rw [hp]; decide)
  have hfails : settle (.next (raise .transport { s' with phase := .exec })) = .next (restoring .transport 0 s') := by
    rw [raise_restoring (s := { s' with phase := .exec }) _ hheld, settle_restoring]
    rfl
  have hack : ∀ {st : XStatus} {b : List Byte} {t : State}, handle.readShape Config.ackLen b st = true →
      s.responses = .bytes b st :: rest → onAck b st s' = t → step s = settle (.next t) := by
    rintro st b _ hshape hr rfl
    exact step_ack hq hp hshape hr
  refine ⟨?_, ?_, ?_, ?_, ?_, ?_⟩
  · rintro rfl
    exact (hack rfl hr (onAck_error s' b)).trans hfails
  · rintro rfl rfl
    exact (hack rfl hr (onAck_empty s')).trans hfails
  · rintro rfl rfl
    exact (hack rfl hr (onAck_noEcho s')).trans hfails
  · rintro x rfl rfl hx
    exact (hack rfl hr (onAck_other s' (by decide) hx)).trans (settle_of_phase_ne_exec nofun)
  · rintro x y rfl rfl hx
    exact (hack rfl hr (onAck_other s' (by decide) hx)).trans (settle_of_phase_ne_exec nofun)
  · rintro y rfl rfl counted
    have hstep := hack rfl hr (onAck_acknowledged s' y)
    have hcount : counted.wt.sent.toNat = s.wt.sent.toNat + s.wt.chunk.toNat := afterAck_sent y rest hw
    obtain ⟨-, ⟨h0, hall, heq⟩ | ⟨h0, t', hadv, hfit, hsent, hoff, hw', heq⟩⟩ := chunkAcknowledged_writing y rest hw
    · refine ⟨hcount, fun _ => ⟨hcount.trans hall, ?_⟩, fun hne => absurd h0 hne⟩
      rw [heq, finish_restoring (s := { afterAck y rest s with phase := .exec }) _ _ hheld, settle_restoring] at hstep
      exact hstep
    · obtain ⟨⟨opS, opL⟩, ho⟩ := hw'.2.2.1
      obtain ⟨c, hc, -, -⟩ := nextWrite_ok hw' ho
      have hcounts : wtCounts counted.wt = countChunk (wtCounts s.wt) := afterAck_counts y rest hw
      rw [heq] at hstep
      exact ⟨hcount, fun hz => absurd hz h0, fun _ => ⟨t', c, hcounts ▸ hadv, hfit, hsent.trans hcount.symm, hoff, hc,
        hstep.trans (settle_writing (s := { afterAck y rest s with wt := wtRegs t' }) hl hc)⟩⟩

/-! The tail of a non-acknowledged reply -/

section
variable {b : List Byte} {st : XStatus} {s : State}

theorem onTail_error : onTail b .error s = .next (raise .transport { s with phase := .exec }) := rfl

theorem onTail_controller {code : Nat} (hst : st ≠ .error) (hlen : (s.ackHead ++ b).length ≤ 1405)
    (hc : classify .nak (s.ackHead ++ b) = .controllerError code) : onTail b st s =
      .next (finish .controller code (noteLegacy (isLegacy .nak (s.ackHead ++ b)) (received (s.ackHead ++ b) s))) := by
  simp only [onTail, if_neg hst, withRx_fits hlen, hc]
  rfl

theorem onTail_malformed (hst : st ≠ .error) (hlen : (s.ackHead ++ b).length ≤ 1405)
    (hc : classify .nak (s.ackHead ++ b) = .malformedError) : onTail b st s =
      .next (raise .malformed (noteLegacy (isLegacy .nak (s.ackHead ++ b)) (received (s.ackHead ++ b) s))) := by
  simp only [onTail, if_neg hst, withRx_fits hlen, hc]
  rfl

end

theorem isLegacy_nak (r : List Byte) : isLegacy .nak r = decide (r.length = 11) := rfl

/-- A Shape A error frame has 10 bytes, so it is not the legacy shape (42_error_classifier.md R252, R253). -/
theorem controllerError_not_legacy {r : List Byte} {code : Nat} (h : classify .nak r = .controllerError code) :
    isLegacy .nak r = false := by
  simp only [classify] at h
  split at h
  · rename_i hlen
    rw [isLegacy_nak, hlen]
    rfl
  · cases h

/-- Settles O52: a tail read that failed, and a reply received, classified and ended by `finish`. -/
theorem nonAcknowledgedReply : Obligations.NonAcknowledgedReply := by
  intro s b st rest hrun hq hp hl hr r s' ends
  have hheld : s.eosHeld = true := hrun.held (by rw [hp]; rfl)
  obtain ⟨-, -, -, -, -, hwrite⟩ := hrun
  obtain ⟨-, hhead, -⟩ := hwrite (by rw [hp]; decide) hl
  obtain ⟨hone, htwo⟩ := hhead hp
  have hlen : r.length = s.ackHead.length + b.length := List.length_append
  constructor
  · rintro rfl
    refine (step_tail (st := .error) hq hp rfl hr).trans ?_
    rw [onTail_error, raise_restoring (s := { s' with phase := .exec }) _ hheld, settle_restoring]
    rfl
  · intro hcase
    have hfits : r.length ≤ 1405 := by omega
    have hne : st ≠ .error := by rintro rfl; simp at hcase
    have hshape : handle.readShape (Config.maxPacketSize - s.ackHead.length) b st = true := by
      rcases hcase with ⟨rfl, hlt⟩ | ⟨rfl, heq⟩
      · exact decide_eq_true (by change b.length < 1405 - s.ackHead.length; omega)
      · exact decide_eq_true (by change b.length = 1405 - s.ackHead.length; omega)
    have hstep := step_tail hq hp hshape hr
    have hends : ∀ e code, settle (.next (finish e code (noteLegacy (isLegacy .nak r) (received r s')))) =
        .next (restoring e code { received r s' with diagLegacy := isLegacy .nak r || s.diagLegacy }) := by
      intro e code
      rw [noteLegacy_eq, finish_restoring e code (by exact hheld), settle_restoring]
      rfl
    constructor
    · intro code hc
      rw [onTail_controller (s := s') hne hfits hc] at hstep
      have hdone := hstep.trans (hends .controller code)
      rw [controllerError_not_legacy hc] at hdone
      exact hdone
    · intro hc
      rw [onTail_malformed (s := s') hne hfits hc] at hstep
      exact hstep.trans (hends .malformed 0)

end Sys2Proof.Machine
end

section
/-! PROOF. Runs of a whole transfer (41_slicer_continuation.md R203, R212, R214): the steps of a run one after the other, the raw-mode entry
that both transfers begin with, and the completion that both end with. -/

namespace Sys2Proof.Machine

open Sys2Proof

/-! Steps one after the other -/

theorem run_step {s t : State} (k : Nat) (h : step s = .next t) : Host.Core.run core (k + 1) s = Host.Core.run core k t := by
  have hcore : core.step s = .next t := h
  simp only [Host.Core.run, hcore]

theorem run_add {s t : State} (a b : Nat) (h : Host.Core.run core a s = .next t) : Host.Core.run core (a + b) s = Host.Core.run core b t := by
  induction a generalizing s with
  | zero =>
    cases h
    rw [Nat.zero_add]
  | succ a ih =>
    rw [Nat.succ_add]
    cases hs : step s with
    | next u =>
      rw [run_step a hs] at h
      rw [run_step (a + b) hs]
      exact ih h
    | fault e => have hcore : core.step s = .fault e := hs; simp only [Host.Core.run, hcore] at h; cases h
    | refused e => have hcore : core.step s = .refused e := hs; simp only [Host.Core.run, hcore] at h; cases h

/-! What holds all through a transfer whose requests succeed -/

/-- A transfer in raw mode whose requests have all succeeded so far: the EOS configuration is held, no diagnostic bit is set, the ports ask for
nothing else, and the host still offers `offers`. -/
def Smooth (offers : List Offer) (s : State) : Prop :=
  Quiet s ∧ s.eosHeld = true ∧ s.diagEcho = false ∧ s.diagLegacy = false ∧ s.diagContEnd = false ∧ s.offered = offers

/-- A transfer that waits for its restore with status OK, and the responses `more` after it. -/
def Restoring (more : List Response) (s : State) : Prop :=
  s.phase = .wEosRestore ∧ s.finStatus = .ok ∧ s.responses = .done .ok :: more

/-- STATUSW after a completion with status OK and no diagnostic bit: DONE only (10_state.md R33). -/
theorem statusw_done {t : State} (hp : t.phase = .idle) (hs : t.status = .ok) (hd : t.done = true) (he : t.diagEcho = false)
    (hl : t.diagLegacy = false) (hc : t.diagContEnd = false) (hcode : t.errcode = 0) : statusw t = 0x00000008 :=
  (statusw_congr (t := complete .ok 0 State.reset) hs hd hp he hl hc hcode).trans (by decide)

/-- The last step of a transfer that went well: the restore succeeds, and the command completes OK (41_slicer_continuation.md R203). -/
theorem run_restored {offers : List Offer} {more : List Response} {s : State} (hs : Smooth offers s) (hr : Restoring more s) :
    ∃ t, step s = .next t ∧ t.phase = .idle ∧ statusw t = 0x00000008 ∧ Ready t ∧ t.responses = more ∧ t.offered = offers ∧
      KeepsResults s t ∧ t.issued = s.issued := by
  obtain ⟨hq, -, he, hl, hc, ho⟩ := hs
  obtain ⟨hp, hfin, hresp⟩ := hr
  refine ⟨_, (step_eosRestore hq hp (by decide) hresp).trans (congrArg _ (finishRestored_eq .ok _)), rfl, ?_, ⟨rfl, rfl⟩, rfl, ho,
    ⟨rfl, rfl, rfl, rfl, rfl, rfl⟩, rfl⟩
  refine statusw_done rfl ?_ rfl he hl hc ?_
  · simp [hfin]
  · simp [hfin]

/-- The state after the three responses to the raw-mode entry succeeded, with the first frame to send (41_slicer_continuation.md R212). -/
def entered (cfg : EosCfg) (rest : List Response) (s : State) : State :=
  { s with
    eosSaved := cfg, eosHeld := true, phase := .exec, issued := s.issued ++ [.eosClear] ++ [.flush], responses := rest }

/-- The raw-mode entry takes three steps, and the third sends the first frame. -/
theorem run_entered {s t : State} {cfg : EosCfg} {rest : List Response} (k : Nat) (hq : Quiet s) (hp : s.phase = .wEosSave)
    (hr : s.responses = .eos cfg .ok :: .done .ok :: .done .ok :: rest) (ht : runWire (entered cfg rest s) = .next t) :
    Host.Core.run core (k + 3) s = Host.Core.run core k t := by
  have h1 := step_eosSave hq hp (by decide) hr
  rw [onEosSave_ok, settle_issue _ _ (by decide)] at h1
  rw [run_step (k + 2) h1]
  have h2 := step_eosClear (rest := .done .ok :: rest)
    (s := issue .eosClear .wEosClear { s with responses := .done .ok :: .done .ok :: rest, eosSaved := cfg, eosHeld := true })
    (st := .ok) hq rfl (by decide) rfl
  rw [onEosClear_ok, settle_issue _ _ (by decide)] at h2
  rw [run_step (k + 1) h2]
  have h3 := step_flush (rest := rest)
    (s := issue .flush .wFlush { issue .eosClear .wEosClear
      { s with responses := .done .ok :: .done .ok :: rest, eosSaved := cfg, eosHeld := true } with responses := .done .ok :: rest })
    (st := .ok) hq rfl (by decide) rfl
  rw [onFlush_ok, settle_of_phase_exec rfl] at h3
  exact run_step k (h3.trans ht)

/-- The operands at the port of the command offered first. -/
theorem portOperands_cons {s : State} {o : Offer} {rest : List Offer} (h : s.offered = o :: rest) : portOperands s = o := by
  rw [portOperands, h, List.headD_cons]

end Sys2Proof.Machine
end

section
/-! PROOF. What the run of a read rests on: its progress is kept by every quiet step, and replies that carry plain data are no errors
(41_slicer_continuation.md R207, 42_error_classifier.md R257). -/

namespace Sys2Proof.Machine

open Sys2Proof

/-- A quiet step of a waiting block keeps the progress of a read, also outside a run from reset. -/
theorem step_readInv {s t : State} (hq : Quiet s) (hne : s.phase ≠ .idle) (h : ReadInv s) (ht : step s = .next t) : ReadInv t := by
  rw [step_quiet hq] at ht
  rcases sequence_cases ht with ⟨hp, -, -⟩ | ⟨o, _, hp, -⟩ | ⟨hp, hx⟩ | ⟨-, -, -, rfl⟩ | ⟨r, rest, u, -, -, -, hu, ht'⟩
  · exact absurd hp hne
  · exact absurd hp hne
  · exact runWire_readInv hp h hx
  · exact h
  · have hread : ReadInv u := handle_readInv (s := { s with responses := rest }) h hu
    rcases ht' with ⟨-, rfl⟩ | ⟨hp, hx⟩
    · exact hread
    · exact runWire_readInv hp hread hx

/-! Replies that do not look like an error -/

theorem replyFrame_byte (opc : Byte) (cont : Bool) {body : List Byte} {i : Nat} (hi : i < body.length) :
    byteAt (replyFrame opc cont body) (4 + i) = byteAt body i := by
  have hcut : replyFrame opc cont body =
      ([Config.replyStart, opc] ++ leBytes 2 (body.length + if cont then 32768 else 0)) ++ (body ++ [Config.replyEnd]) := by
    simp [replyFrame]
  rw [byteAt, hcut, List.getD_append_right _ _ _ _ (by simp), List.getD_append _ _ _ _ (by simpa using hi)]
  simp [byteAt]

theorem byteAt_slice {data : List Byte} {a i : Nat} (hi : i < 1400) : byteAt ((data.drop a).take 1400) i = byteAt data (a + i) := by
  simp [byteAt, List.getD_eq_getElem?_getD, hi]

/-- The reply with the 1400 bytes from `j * 1400` on is no error: with six bytes or more the two that the pattern asks for are the data's own,
and with five the one in the place of CR is the end marker (42_error_classifier.md R254, R257). -/
theorem classify_plain {data : List Byte} (hplain : PlainData data) (opc : Byte) (cont : Bool) (j : Nat) :
    classify .read (replyFrame opc cont ((data.drop (j * 1400)).take 1400)) = .noError := by
  have hlen : ((data.drop (j * 1400)).take 1400).length = min 1400 (data.length - j * 1400) := by simp
  have hfirst := byteAt_slice (data := data) (a := j * 1400) (i := 0) (by omega)
  have hsixth := byteAt_slice (data := data) (a := j * 1400) (i := 5) (by omega)
  generalize (data.drop (j * 1400)).take 1400 = body at hlen hfirst hsixth ⊢
  refine if_neg ?_
  rintro ⟨hten, hq, hcr⟩
  rw [replyFrame_length] at hten
  by_cases hfive : body.length = 5
  · have hend := replyFrame_end opc cont body
    rw [hfive, hcr] at hend
    exact absurd hend (by decide)
  · rw [replyFrame_byte opc cont (i := 0) (by omega), hfirst, Nat.add_zero] at hq
    rw [replyFrame_byte opc cont (i := 5) (by omega), hsixth] at hcr
    exact hplain j (by omega) ⟨hq, hcr⟩

end Sys2Proof.Machine
end

section
/-! PROOF. A read whose requests all succeed, run to its end (41_slicer_continuation.md R207, R214): one exchange after the other. -/

namespace Sys2Proof.Machine

open Sys2Proof

/-! The data, slice by slice -/

/-- The data of slice `j` of a read (40_frame_codec.md R155). -/
def sliceData (data : List Byte) (j : Nat) : List Byte := (data.drop (j * 1400)).take 1400

theorem sliceData_length (data : List Byte) (j : Nat) : (sliceData data j).length = min 1400 (data.length - j * 1400) := by
  simp [sliceData]

/-- The slices before `j` and slice `j` are the first bytes of the data. -/
theorem take_append_sliceData (data : List Byte) (j : Nat) :
    data.take (j * 1400) ++ sliceData data j = data.take (j * 1400 + (sliceData data j).length) := by
  rw [List.take_add, sliceData_length, ← List.length_drop, sliceData]
  exact congrArg _ List.take_eq_take_min

/-- The exchanges of a read from slice `j` on. -/
theorem readExchanges_slice (opc : Byte) (n : Nat) (data : List Byte) (j : Nat) :
    readExchanges opc (n + 1) (data.drop (j * 1400)) =
      .done .ok :: .bytes (replyFrame opc (decide (1400 < data.length - j * 1400)) (sliceData data j)) .ok ::
        readExchanges opc n (data.drop ((j + 1) * 1400)) := by
  rw [readExchanges, List.length_drop, List.drop_drop, Nat.succ_mul]
  rfl

/-! One exchange -/

/-- XFER_RD of `data` in phase `p`, at the exchange of slice RD_SLICE: the data of the slices before it stand in OUTBUF. -/
def ReadingAt (offers : List Offer) (data : List Byte) (p : Phase) (s : State) : Prop :=
  Smooth offers s ∧ latchOp s = 6 ∧ ReadInv s ∧ s.phase = p ∧ dataBytes s.latch.desc (latchKind s) = data.length ∧
  Memory.loadBytes s.outbuf 0 (s.rd.slice.toNat * 1400) = some (data.take (s.rd.slice.toNat * 1400))

/-- XFER_RD has read all of `data`: they stand in OUTBUF, and the requests are those of R214 up to the restore. -/
def Delivered (data : List Byte) (s : State) : Prop :=
  s.outlen = some (BitVec.ofNat 16 data.length) ∧ Memory.loadBytes s.outbuf 0 data.length = some data ∧
  s.rd.slice.toNat + 1 = exchangeCount data.length ∧ s.issued.length = 4 + 2 * exchangeCount data.length

section
variable {offers : List Offer} {data : List Byte} {s : State}

/-- The frame was written: XFER_RD waits for the reply. -/
theorem ReadingAt.written {rest : List Response} (h : ReadingAt offers data .wTx s) (hr : s.responses = .done .ok :: rest) :
    ∃ u, step s = .next u ∧ ReadingAt offers data .wRxData u ∧ u.responses = rest ∧ u.rd = s.rd := by
  obtain ⟨hsm, hl, hread, hp, hdb, hout⟩ := h
  have hstep := step_written hsm.1 hp hr
  rw [onWritten_read (s := { s with responses := rest }) hl, settle_issue _ _ (by decide)] at hstep
  exact ⟨_, hstep, ⟨hsm, hl, step_readInv hsm.1 (by rw [hp]; decide) hread hstep, rfl, hdb, hout⟩, rfl, rfl⟩

section
variable (h : ReadingAt offers data .wRxData s)
include h

/-- Where a read stands that waits for a reply: which data are left, how many requests went out, and that the reply has the slice's length. -/
theorem ReadingAt.bounds : s.rd.bytesRead.toNat = s.rd.slice.toNat * 1400 ∧ s.rd.slice.toNat * 1400 < data.length ∧
    s.rd.bytesRead.toNat + s.rd.remain.toNat = data.length ∧ (sliceData data s.rd.slice.toNat).length + 5 = s.rd.expected.toNat ∧
    s.issued.length = 5 + 2 * s.rd.slice.toNat := by
  obtain ⟨-, hl, hread, hp, hdb, -⟩ := h
  obtain ⟨⟨-, -, -, hsum, -⟩, hat, hexp, hi⟩ := hread.at hl hp (by decide)
  have hm := expected_data hat hexp
  obtain ⟨hgot, hlt⟩ := hat
  rw [hdb] at hsum hm hlt
  refine ⟨hgot, by omega, hsum, ?_, hi⟩
  rw [sliceData_length, hm]
  omega

/-- The reply's data extend those in OUTBUF (41_slicer_continuation.md R205). -/
theorem ReadingAt.stored : Memory.loadBytes (Memory.store s.outbuf s.rd.bytesRead.toNat (sliceData data s.rd.slice.toNat)) 0
    (s.rd.slice.toNat * 1400 + (sliceData data s.rd.slice.toNat).length) =
      some (data.take (s.rd.slice.toNat * 1400 + (sliceData data s.rd.slice.toNat).length)) := by
  obtain ⟨hgot, -⟩ := h.bounds
  obtain ⟨-, -, -, -, -, hout⟩ := h
  rw [hgot, ← take_append_sliceData]
  exact loadBytes_store_append hout

variable {opc : Byte} (hplain : PlainData data)
include hplain

/-- The last reply completes the array, and the command ends with OK (41_slicer_continuation.md R206). -/
theorem ReadingAt.last {more : List Response} (hlast : data.length - s.rd.slice.toNat * 1400 ≤ 1400)
    (hr : s.responses = .bytes (replyFrame opc false (sliceData data s.rd.slice.toNat)) .ok :: .done .ok :: more) :
    ∃ u, step s = .next u ∧ Smooth offers u ∧ Restoring more u ∧ Delivered data u := by
  obtain ⟨hgot, hlt, hsum, hlen, hi⟩ := h.bounds
  have hstored := h.stored
  obtain ⟨⟨hq, hheld, he, hleg, hce, ho⟩, hl, hread, hp, -⟩ := h
  have hbody := sliceData_length data s.rd.slice.toNat
  have hall : s.rd.slice.toNat * 1400 + (sliceData data s.rd.slice.toNat).length = data.length := by omega
  rw [hall, List.take_length] at hstored
  have hstep := step_accepted hq hread hp hl hlen (classify_plain hplain opc false _) hr
  generalize sliceData data s.rd.slice.toNat = body at hstep hbody hall hstored hlen
  have hzero : (afterReply (replyFrame opc false body) false body (.done .ok :: more) s).rd.remain = 0 :=
    BitVec.eq_of_toNat_eq ((afterReply_remain hread hp hl hlen _).trans (by change _ = 0; omega))
  rw [continueRead_done (s := { afterReply (replyFrame opc false body) false body (.done .ok :: more) s with phase := .exec }) hzero hheld,
    settle_restoring] at hstep
  refine ⟨_, hstep, ⟨hq, hheld, he, hleg, hce, ho⟩, ⟨rfl, rfl, rfl⟩, ?_, hstored, ?_, ?_⟩
  · change some (BitVec.ofNat 16 (s.rd.bytesRead.toNat + body.length)) = _
    rw [hgot, hall]
  · change s.rd.slice.toNat + 1 = _
    rw [exchangeCount]
    omega
  · change (s.issued ++ [_]).length = _
    rw [issued_concat_length, exchangeCount]
    omega

/-- Another reply leads to the frame of the next slice (41_slicer_continuation.md R206, R207). -/
theorem ReadingAt.next {rest : List Response} (hmore : 1400 < data.length - s.rd.slice.toNat * 1400)
    (hr : s.responses = .bytes (replyFrame opc true (sliceData data s.rd.slice.toNat)) .ok :: rest) :
    ∃ u, step s = .next u ∧ ReadingAt offers data .wTx u ∧ u.responses = rest ∧ u.rd.slice.toNat = s.rd.slice.toNat + 1 := by
  obtain ⟨hgot, hlt, hsum, hlen, -⟩ := h.bounds
  have hstored := h.stored
  obtain ⟨hsm, hl, hread, hp, hdb, -⟩ := h
  have hbody := sliceData_length data s.rd.slice.toNat
  obtain ⟨hnine, hstep⟩ := step_accepted_next hsm.1 hread hp hl hlen (classify_plain hplain opc true _) hr (by omega)
  have hslice : (s.rd.slice + 1).toNat = s.rd.slice.toNat + 1 := by
    rw [BitVec.toNat_add]
    exact Nat.mod_eq_of_lt (by change s.rd.slice.toNat + 1 < 16; omega)
  refine ⟨_, hstep, ⟨hsm, hl, step_readInv hsm.1 (by rw [hp]; decide) hread hstep, rfl, hdb, ?_⟩, rfl, hslice⟩
  have hfull : (s.rd.slice + 1).toNat * 1400 = s.rd.slice.toNat * 1400 + (sliceData data s.rd.slice.toNat).length := by omega
  change Memory.loadBytes (Memory.store s.outbuf s.rd.bytesRead.toNat (sliceData data s.rd.slice.toNat)) 0
    ((s.rd.slice + 1).toNat * 1400) = some (data.take ((s.rd.slice + 1).toNat * 1400))
  rw [hfull]
  exact hstored

end

/-! All exchanges -/

/-- From the frame of slice RD_SLICE on, `n + 1` exchanges deliver the rest of the data. -/
theorem ReadingAt.run_exchanges {opc : Byte} {more : List Response} (hplain : PlainData data) (n : Nat)
    (h : ReadingAt offers data .wTx s) (hn : s.rd.slice.toNat + (n + 1) = exchangeCount data.length)
    (hr : s.responses = readExchanges opc (n + 1) (data.drop (s.rd.slice.toNat * 1400)) ++ .done .ok :: more) :
    ∃ u, Host.Core.run core (2 * (n + 1)) s = .next u ∧ Smooth offers u ∧ Restoring more u ∧ Delivered data u := by
  induction n generalizing s with
  | zero =>
    have hlast : data.length - s.rd.slice.toNat * 1400 ≤ 1400 := by
      rw [exchangeCount] at hn
      omega
    rw [readExchanges_slice, decide_eq_false hlast.not_gt] at hr
    obtain ⟨v, hstep, hv, hvr, hrd⟩ := h.written hr
    rw [← hrd] at hlast hvr
    obtain ⟨u, hstep', hu⟩ := hv.last hplain hlast hvr
    exact ⟨u, (run_step 1 hstep).trans (run_step 0 hstep'), hu⟩
  | succ n ih =>
    have hmore : 1400 < data.length - s.rd.slice.toNat * 1400 := by
      rw [exchangeCount] at hn
      omega
    rw [readExchanges_slice, decide_eq_true hmore] at hr
    obtain ⟨v, hstep, hv, hvr, hrd⟩ := h.written hr
    rw [← hrd] at hmore hvr hn
    obtain ⟨w, hstep', hw, hwr, hslice⟩ := hv.next hplain hmore hvr
    rw [← hslice] at hwr
    obtain ⟨u, hrun, hu⟩ := ih hw (by omega) hwr
    exact ⟨u, (run_step _ hstep).trans ((run_step _ hstep').trans hrun), hu⟩

end

/-! The start -/

/-- The raw-mode entry keeps the progress of a read. -/
theorem entered_readInv {s : State} (cfg : EosCfg) (rest : List Response) (h : ReadInv s) (hl : latchOp s = 6) (hp : s.phase = .wEosSave) :
    ReadInv (entered cfg rest s) := by
  obtain ⟨hc, hslice, hgot, hi⟩ := h.at hl hp (by decide)
  refine ReadInv.of_at hc ⟨⟨?_, ?_⟩, ?_⟩
  · change s.rd.bytesRead.toNat = s.rd.slice.toNat * 1400
    rw [hgot, hslice]
  · change s.rd.bytesRead.toNat < _
    rw [hgot]
    exact dataBytes_pos _ _
  · change (s.issued ++ [_] ++ [_]).length = 3 + 2 * s.rd.slice.toNat
    simp [hi, hslice]

/-- The state after XFER_RD started with the first frame of `c` (41_slicer_continuation.md R204). -/
def startedRead (c : ReadCmd) (f : Fields) (s : State) : State :=
  enterRaw { startRead c (accept (commandWord 6 f) s) with
    txbuf := Memory.store [] 0 c.frame, txlen := BitVec.ofNat 16 c.frame.length }

/-- XFER_RD runs through its start and the raw-mode entry to its first frame (41_slicer_continuation.md R204, R212). -/
theorem run_startRead {s : State} {o : Offer} {f : Fields} {cfg : EosCfg} {data : List Byte} {offers : List Offer} {rest : List Response}
    (hs : Ready s) (hq : Quiet s) (ho : s.offered = o :: offers) (hwf : o.wf = true) (hd : decodeCommand o.cmdw = .xferRd f)
    (hv : validDesc o.desc true = true) (hdb : dataBytes o.desc f.kind = data.length) (hmax : data.length ≤ 14000)
    (hr : s.responses = .eos cfg .ok :: .done .ok :: .done .ok :: rest) :
    ∃ u, (∀ k, Host.Core.run core (k + 4) s = Host.Core.run core k u) ∧ ReadingAt offers data .wTx u ∧ u.responses = rest ∧
      u.rd.slice.toNat = 0 := by
  have hport : portOperands s = o := portOperands_cons ho
  obtain ⟨c, hc, hcdb⟩ : ∃ c, encodeRead o.desc f.kind = .ok c ∧ c.dataBytes ≤ 14000 :=
    ⟨_, encodeRead_valid f.kind hv, hdb.le.trans hmax⟩
  have hstart : step s = .next (startedRead c f s) := by
    rw [step_quiet hq, sequence_idle hs.1 ho hwf, hd]
    exact exec_xferRd_ok hs (hport ▸ hc) hcdb
  have hread : ReadInv (startedRead c f s) := startRead_readInv (hport.symm ▸ hc) hcdb
  have hl : latchOp (startedRead c f s) = 6 := latchOp_accept 6 f s
  have hnext : nextRead (startedRead c f s) = .ok c := by
    change encodeRead (portOperands s).desc (latchKind (accept (commandWord 6 f) s)) = .ok c
    rw [hport, latchKind_accept, hc]
  have hen := entered_readInv cfg rest hread hl rfl
  have hwire := runWire_read (s := entered cfg rest (startedRead c f s)) rfl hl hnext
  refine ⟨_, fun k => (run_step (k + 3) hstart).trans (run_entered k ⟨hq.1, hq.2⟩ rfl hr hwire),
    ⟨⟨⟨hq.1, hq.2⟩, rfl, rfl, rfl, rfl, ?_⟩, hl, runWire_readInv rfl hen hwire, rfl, ?_, ?_⟩, rfl, rfl⟩
  · change s.offered.tail = offers
    rw [ho, List.tail_cons]
  · change dataBytes (portOperands s).desc (latchKind (accept (commandWord 6 f) s)) = data.length
    rw [hport, latchKind_accept, hdb]
  · change Memory.loadBytes [] 0 ((0 : BitVec 4).toNat * 1400) = some (data.take ((0 : BitVec 4).toNat * 1400))
    rw [show (0 : BitVec 4).toNat * 1400 = 0 from rfl]
    rfl

/-- Settles O54: the start, one exchange a slice, and the restore. -/
theorem readTransferDelivers : Obligations.ReadTransferDelivers := by
  intro s o f cfg opc data offers more hs hq ho hwf hd hv hdb hmax hplain hr
  obtain ⟨u, hrun, hu, hur, hslice⟩ := run_startRead hs hq ho hwf hd hv hdb hmax hr
  have hpos : 0 < data.length := hdb ▸ dataBytes_pos o.desc f.kind
  obtain ⟨n, hn⟩ : ∃ n, exchangeCount data.length = n + 1 := Nat.exists_eq_succ_of_ne_zero (by rw [exchangeCount]; omega)
  rw [hn] at hur
  obtain ⟨v, hrun', hv', hrest, hout, hload, hcount, hissued⟩ := hu.run_exchanges (opc := opc) (more := more) hplain n (by omega)
    (by rw [hur, hslice]; rfl)
  obtain ⟨t, hstep, hp, hst, hready, hresp, hoff, ⟨-, hrd, -, -, hob, hol⟩, hi⟩ := run_restored hv' hrest
  refine ⟨t, ?_, hp, hst, hol.trans hout, hob ▸ hload, hrd ▸ hcount, hi ▸ hissued, hresp, hoff, hready⟩
  rw [hn, show 5 + 2 * (n + 1) = 2 * (n + 1) + 1 + 4 by omega, hrun, run_add _ 1 hrun']
  exact run_step 0 hstep

end Sys2Proof.Machine
end

section
/-! PROOF. A write all of whose chunks are acknowledged, run to its end (41_slicer_continuation.md R208, R214, 43_slice_wrap_tracker.md R281,
R285): one exchange for each record of PLAN_WR's plan. -/

namespace Sys2Proof.Machine

open Sys2Proof

/-! The frames written -/

theorem writtenFrames_append (xs ys : List Request) : writtenFrames (xs ++ ys) = writtenFrames xs ++ writtenFrames ys := by
  induction xs with
  | nil => rfl
  | cons r xs ih => cases r <;> simp [writtenFrames, ih]

/-- The frames written among some requests have the lengths and the opcodes of the records `recs` (43_slice_wrap_tracker.md R281). -/
def FramesOf (reqs : List Request) (recs : List ChunkRecord) : Prop :=
  (writtenFrames reqs).map List.length = recs.map (fun r => r.outBytes.toNat) ∧
  (writtenFrames reqs).map (fun b => byteAt b 1) = recs.map ChunkRecord.opcode

section
variable {reqs : List Request} {recs : List ChunkRecord} (h : FramesOf reqs recs)
include h

/-- A request that writes nothing adds no frame. -/
theorem FramesOf.concat {r : Request} (hr : writtenFrames [r] = []) : FramesOf (reqs ++ [r]) recs := by
  rw [FramesOf, writtenFrames_append, hr, List.append_nil]
  exact h

theorem FramesOf.write {b : List Byte} (t : Timeout) {r : ChunkRecord} (hlen : b.length = r.outBytes.toNat) (hopc : byteAt b 1 = r.opcode) :
    FramesOf (reqs ++ [.write b t]) (recs ++ [r]) := by
  obtain ⟨hl, ho⟩ := h
  rw [FramesOf, writtenFrames_append, List.map_append, List.map_append, List.map_append, List.map_append, hl, ho]
  simp [writtenFrames, hlen, hopc]

end

/-! The plan -/

theorem planLoop_last {d : Descriptor} {k : Kind} (opS opL : Byte) (fuel : Nat) {t : WtCounts} (h0 : t.remsl = 0) :
    planLoop d k opS opL (fuel + 1) t = .ok (countChunk t, [chunkRecord k opS opL t]) := if_pos h0

theorem planLoop_more {d : Descriptor} {k : Kind} {opS opL : Byte} {fuel : Nat} {t t1 : WtCounts} {plan : List ChunkRecord}
    (h0 : t.remsl ≠ 0) (h : planLoop d k opS opL (fuel + 1) t = .ok (t1, plan)) :
    ∃ t' rest, wtAdvance d k (countChunk t) = .ok t' ∧ planLoop d k opS opL fuel t' = .ok (t1, rest) ∧
      plan = chunkRecord k opS opL t :: rest := by
  simp only [planLoop, if_neg h0] at h
  split at h
  · cases h
  · split at h
    · cases h
    · cases h
      exact ⟨_, _, ‹_›, ‹_›, rfl⟩

/-! One exchange -/

section
variable (offers : List Offer) (d : Descriptor) (k : Kind) (opS opL : Byte)

/-- XFER_WR of a valid write of `d` goes well so far, its tracker at a chunk of the plan. -/
def WritesOn (s : State) : Prop :=
  Smooth offers s ∧ latchOp s = 7 ∧ Writing s ∧ s.latch.desc = d ∧ latchKind s = k ∧ writeOpcodes k = .ok (opS, opL)

/-- XFER_WR has sent the frame of the tracker's chunk, after those of the records `before`. -/
def WritingAt (before : List ChunkRecord) (s : State) : Prop :=
  WritesOn offers d k opS opL s ∧ s.phase = .wTx ∧ s.lastOpc = (chunkRecord k opS opL (wtCounts s.wt)).opcode ∧
  FramesOf s.issued (before ++ [chunkRecord k opS opL (wtCounts s.wt)]) ∧ s.issued.length = 4 + 2 * before.length

end

/-- XFER_WR has sent every element of `d`: its registers are those of the plan's end, and its frames those of the plan. -/
def AllSent (d : Descriptor) (t1 : WtCounts) (plan : List ChunkRecord) (s : State) : Prop :=
  s.res.elems = some (BitVec.ofNat 32 (numElements d)) ∧ s.wt = wtRegs t1 ∧ FramesOf s.issued plan ∧ s.issued.length = 4 + 2 * plan.length

/-- The state in which XFER_WR has asked for the acknowledgement of its frame. -/
def ackAsked (s : State) : State := issue (.read 2 .tAck) .wRxAck s

section
variable {offers : List Offer} {d : Descriptor} {k : Kind} {opS opL : Byte} {before : List ChunkRecord} {s : State}

/-- The frame of the tracker's chunk goes out with the length and the opcode of its record. -/
theorem WritesOn.sends (h : WritesOn offers d k opS opL s) (hf : FramesOf s.issued before) (hn : s.issued.length = 3 + 2 * before.length) :
    ∃ c, nextWrite s = .ok c ∧ WritingAt offers d k opS opL before (sent c.frame (byteAt c.frame 1) .tArray s) := by
  obtain ⟨hsm, hl, hw, hd, rfl, ho⟩ := h
  obtain ⟨c, hc, hlen, hopc⟩ := nextWrite_ok hw ho
  refine ⟨c, hc, ⟨hsm, hl, hw, hd, rfl, ho⟩, rfl, hopc, hf.write .tArray hlen hopc, ?_⟩
  change (s.issued ++ [_]).length = _
  rw [issued_concat_length]
  omega

section
variable {rest : List Response} (h : WritingAt offers d k opS opL before s)
  (hr : s.responses = .done .ok :: .bytes [Config.ackByte, (chunkRecord k opS opL (wtCounts s.wt)).opcode] .ok :: rest)
include h

/-- Counting an acknowledged chunk sets no diagnostic bit, because the echo is the opcode sent (41_slicer_continuation.md R211). -/
theorem WritingAt.smooth_afterAck (rest : List Response) : Smooth offers (afterAck s.lastOpc rest (ackAsked s)) := by
  obtain ⟨⟨⟨hq, hheld, he, hl, hc, ho⟩, -⟩, -⟩ := h
  refine ⟨hq, hheld, ?_, hl, hc, ho⟩
  change (decide (s.lastOpc ≠ s.lastOpc) || s.diagEcho) = false
  simp [he]

include hr

/-- The exchange of a chunk takes two steps: the frame was written, and it is acknowledged with its opcode. -/
theorem WritingAt.run_acknowledged {t : State} (n : Nat)
    (ht : settle (.next (chunkAcknowledged s.lastOpc { ackAsked s with responses := rest, phase := .exec })) = .next t) :
    Host.Core.run core (n + 2) s = Host.Core.run core n t := by
  obtain ⟨⟨⟨hq, -⟩, hl, -⟩, hp, hopc, -⟩ := h
  rw [← hopc] at hr
  have h1 := step_written hq hp hr
  rw [onWritten_write (s := { s with responses := .bytes [Config.ackByte, s.lastOpc] .ok :: rest }) hl,
    settle_issue _ _ (by decide)] at h1
  have h2 := step_ack (s := issue (.read 2 .tAck) .wRxAck { s with responses := .bytes [Config.ackByte, s.lastOpc] .ok :: rest })
    (b := [Config.ackByte, s.lastOpc]) (st := .ok) hq rfl rfl rfl
  rw [onAck_acknowledged] at h2
  exact (run_step (n + 1) h1).trans (run_step n (h2.trans ht))

/-- The last chunk is acknowledged, and the command ends with OK (41_slicer_continuation.md R208). -/
theorem WritingAt.last {more : List Response} (hrest : rest = .done .ok :: more) (h0 : s.wt.remsl = 0) :
    ∃ u, Host.Core.run core 2 s = .next u ∧ Smooth offers u ∧ Restoring more u ∧
      AllSent d (countChunk (wtCounts s.wt)) (before ++ [chunkRecord k opS opL (wtCounts s.wt)]) u := by
  subst hrest
  have hsmooth := h.smooth_afterAck (.done .ok :: more)
  have hrun := fun t => h.run_acknowledged (t := t) hr 0
  obtain ⟨⟨⟨hq, hheld, -⟩, -, hw, hd, -⟩, -, -, hframes, hn⟩ := h
  have hsent := afterAck_sent s.lastOpc (.done .ok :: more) (s := ackAsked s) hw
  obtain ⟨-, ⟨-, hall, heq⟩ | ⟨hne, -⟩⟩ := chunkAcknowledged_writing s.lastOpc (.done .ok :: more) (s := ackAsked s) hw
  · rw [heq, finish_restoring (s := { afterAck s.lastOpc (.done .ok :: more) (ackAsked s) with phase := .exec }) _ _ hheld,
      settle_restoring] at hrun
    refine ⟨_, hrun _ rfl, hsmooth, ⟨rfl, rfl, rfl⟩, ?_, (wtRegs_countChunk s.wt).symm, (hframes.concat rfl).concat rfl, ?_⟩
    · have hcount : numElements d = (afterAck s.lastOpc (.done .ok :: more) (ackAsked s)).wt.sent.toNat := by
        rw [hsent, ← hd]
        exact hall.symm
      rw [hcount, BitVec.ofNat_toNat, BitVec.setWidth_eq]
      rfl
    · change (s.issued ++ [_] ++ [_]).length = _
      simp [hn]
      omega
  · exact absurd h0 hne

/-- Another chunk is acknowledged, and the frame of the next one goes out (41_slicer_continuation.md R208, 43_slice_wrap_tracker.md R283). -/
theorem WritingAt.next (h0 : s.wt.remsl ≠ 0) :
    ∃ u, (∀ n, Host.Core.run core (n + 2) s = Host.Core.run core n u) ∧ u.responses = rest ∧
      wtAdvance d k (countChunk (wtCounts s.wt)) = .ok (wtCounts u.wt) ∧
      WritingAt offers d k opS opL (before ++ [chunkRecord k opS opL (wtCounts s.wt)]) u := by
  have hsmooth := h.smooth_afterAck rest
  have hrun := fun t n => h.run_acknowledged (t := t) hr n
  obtain ⟨⟨-, hl, hw, rfl, rfl, ho⟩, -, -, hframes, hn⟩ := h
  obtain ⟨-, ⟨hz, -⟩ | ⟨-, t', hadv, hfit, -, -, hw', heq⟩⟩ := chunkAcknowledged_writing s.lastOpc rest (s := ackAsked s) hw
  · exact absurd hz h0
  · have hon : WritesOn offers s.latch.desc (latchKind s) opS opL { afterAck s.lastOpc rest (ackAsked s) with wt := wtRegs t' } :=
      ⟨hsmooth, hl, hw', rfl, rfl, ho⟩
    obtain ⟨c, hc, hat⟩ := hon.sends (hframes.concat rfl) (by
      change (s.issued ++ [_]).length = _
      simp [hn]
      omega)
    rw [heq] at hrun
    refine ⟨_, fun n => hrun _ n (settle_writing (s := { afterAck s.lastOpc rest (ackAsked s) with wt := wtRegs t' }) hl hc), rfl, ?_, hat⟩
    change _ = Except.ok (wtCounts (wtRegs t'))
    rw [hfit]
    exact hadv

end

/-! All exchanges -/

/-- From the frame of the tracker's chunk on, the exchanges of the rest of the plan send the rest of the elements. -/
theorem WritingAt.run_plan {t1 : WtCounts} {plan : List ChunkRecord} {more : List Response} (fuel : Nat)
    (h : WritingAt offers d k opS opL before s) (hplan : planLoop d k opS opL fuel (wtCounts s.wt) = .ok (t1, plan))
    (hr : s.responses = writeExchanges plan ++ .done .ok :: more) :
    ∃ u, Host.Core.run core (2 * plan.length) s = .next u ∧ Smooth offers u ∧ Restoring more u ∧ AllSent d t1 (before ++ plan) u := by
  induction fuel generalizing s before plan with
  | zero => cases hplan
  | succ fuel ih =>
    by_cases h0 : s.wt.remsl = 0
    · rw [planLoop_last opS opL fuel (show (wtCounts s.wt).remsl = 0 from congrArg BitVec.toNat h0)] at hplan
      cases hplan
      exact h.last hr rfl h0
    · have hne : (wtCounts s.wt).remsl ≠ 0 := fun hz => h0 (BitVec.eq_of_toNat_eq hz)
      obtain ⟨t', rest, hadv, hrest, rfl⟩ := planLoop_more hne hplan
      obtain ⟨u, hrun, hur, hadv', hu⟩ := h.next hr h0
      obtain rfl : t' = wtCounts u.wt := Except.ok.inj (hadv.symm.trans hadv')
      obtain ⟨v, hrun', hv⟩ := ih hu hrest hur
      rw [List.append_assoc] at hv
      exact ⟨v, (hrun _).trans hrun', hv⟩

end

/-! The start -/

/-- The state after XFER_WR started with the tracker at `x` (41_slicer_continuation.md R208). -/
def startedWrite (x : WtCounts) (f : Fields) (s : State) : State :=
  enterRaw { accept (commandWord 7 f) s with wt := wtRegs x, res := { Results.none with elems := some 0 } }

/-- XFER_WR runs through its start and the raw-mode entry to its first frame (41_slicer_continuation.md R208, R212). -/
theorem run_startWrite {s : State} {o : Offer} {f : Fields} {cfg : EosCfg} {opS opL : Byte} {t0 : WtCounts} {offers : List Offer}
    {rest : List Response} (hs : Ready s) (hq : Quiet s) (ho : s.offered = o :: offers) (hwf : o.wf = true)
    (hd : decodeCommand o.cmdw = .xferWr f) (hv : validDesc o.desc false = true) (hdata : o.data.length = numElements o.desc)
    (hop : writeOpcodes f.kind = .ok (opS, opL)) (ht0 : wtInit o.desc f.kind (wtCounts s.wt) = .ok t0)
    (hr : s.responses = .eos cfg .ok :: .done .ok :: .done .ok :: rest) :
    ∃ u, (∀ n, Host.Core.run core (n + 4) s = Host.Core.run core n u) ∧ u.responses = rest ∧ wtCounts u.wt = t0 ∧
      WritingAt offers o.desc f.kind opS opL [] u := by
  obtain rfl : portOperands s = o := portOperands_cons ho
  have hstart : step s = .next (startedWrite t0 f s) := by
    rw [step_quiet hq, sequence_idle hs.1 ho hwf, hd]
    exact exec_xferWr_ok hs hv hdata hop ht0
  have hl : latchOp (startedWrite t0 f s) = 7 := latchOp_accept 7 f s
  have hw : Writing (startedWrite t0 f s) := (startWrite_writeInv hv hdata hop ht0).writing hl nofun nofun
  have hsmooth : Smooth offers (entered cfg rest (startedWrite t0 f s)) := by
    refine ⟨⟨hq.1, hq.2⟩, rfl, rfl, rfl, rfl, ?_⟩
    change s.offered.tail = offers
    rw [ho, List.tail_cons]
  have hon : WritesOn offers (portOperands s).desc f.kind opS opL (entered cfg rest (startedWrite t0 f s)) :=
    ⟨hsmooth, hl, hw, rfl, latchKind_accept 7 f s, hop⟩
  obtain ⟨c, hc, hat⟩ := hon.sends (before := []) ⟨rfl, rfl⟩ rfl
  have hwire := runWire_write (s := entered cfg rest (startedWrite t0 f s)) rfl hl hc
  exact ⟨_, fun n => (run_step (n + 3) hstart).trans (run_entered n ⟨hq.1, hq.2⟩ rfl hr hwire), rfl,
    tracking_fits hv (wtInit_tracking ht0).1, hat⟩

/-- Settles O55: the start, one exchange a record of the plan, and the restore. -/
theorem writeTransferCompletes : Obligations.WriteTransferCompletes := by
  intro s o f cfg opS opL t0 t1 plan offers more hs hq ho hwf hd hv hdata hop ht0 hplan hr
  obtain ⟨u, hrun, hur, hut, hu⟩ := run_startWrite hs hq ho hwf hd hv hdata hop ht0 hr
  rw [← hut] at hplan
  obtain ⟨v, hrun', hv', hrest, helems, hwt, ⟨hlens, hopcs⟩, hissued⟩ := hu.run_plan _ hplan hur
  obtain ⟨t, hstep, hp, hst, hready, hresp, -, ⟨-, -, hwt', hres, -, -⟩, hi⟩ := run_restored hv' hrest
  refine ⟨t, ?_, hp, hst, hres ▸ helems, hwt'.trans hwt, hi ▸ hlens, hi ▸ hopcs, hi ▸ hissued, hresp, hready⟩
  rw [show 5 + 2 * plan.length = 2 * plan.length + 1 + 4 by omega, hrun, run_add _ 1 hrun']
  exact run_step 0 hstep

end Sys2Proof.Machine
end

section
/-! PROOF. What the classifier calls an error on each path (42_error_classifier.md R251 to R255), and the result of DEC_ERR (R250). -/

namespace Sys2Proof.Machine

open Sys2Proof

/-! Bytes and digits -/

/-- The first bytes of a buffer, read one by one. -/
theorem take_eq_map_byteAt {b : List Byte} {n : Nat} (h : n ≤ b.length) : b.take n = (List.range n).map (byteAt b) := by
  refine List.ext_getElem (by simp [h]) fun i hi _ => ?_
  have hb : i < b.length := Nat.lt_of_lt_of_le hi (List.length_take_le' n b)
  simp [byteAt, hb]

theorem digit_dval {x : Byte} (h : isDigit x = true) : digit (dval x) = x := by
  simp only [isDigit, Bool.and_eq_true, decide_eq_true_eq] at h
  rw [digit, dval, Nat.add_sub_of_le h.1, BitVec.ofNat_toNat, BitVec.setWidth_eq]

/-- Four digit bytes and their value (42_error_classifier.md R255), in terms of the digits they write. -/
theorem digits4_code4_iff {b : List Byte} {i code : Nat} :
    (digits4 b i = true ∧ code4 b i = code) ↔ ∃ d3 d2 d1 d0 : Nat, (d3 ≤ 9 ∧ d2 ≤ 9 ∧ d1 ≤ 9 ∧ d0 ≤ 9) ∧
      (byteAt b i = digit d3 ∧ byteAt b (i + 1) = digit d2 ∧ byteAt b (i + 2) = digit d1 ∧ byteAt b (i + 3) = digit d0) ∧
      code = 1000 * d3 + 100 * d2 + 10 * d1 + d0 := by
  simp only [digits4, code4, Bool.and_eq_true]
  constructor
  · rintro ⟨⟨⟨⟨h3, h2⟩, h1⟩, h0⟩, rfl⟩
    exact ⟨_, _, _, _, ⟨dval_le h3, dval_le h2, dval_le h1, dval_le h0⟩,
      ⟨(digit_dval h3).symm, (digit_dval h2).symm, (digit_dval h1).symm, (digit_dval h0).symm⟩, rfl⟩
  · rintro ⟨d3, d2, d1, d0, ⟨h3, h2, h1, h0⟩, ⟨e3, e2, e1, e0⟩, rfl⟩
    have hd : ∀ {d : Nat}, d ≤ 9 → isDigit (digit d) = true ∧ dval (digit d) = d := fun h =>
      ⟨isDigit_digit (Nat.lt_succ_of_le h), dval_digit (Nat.lt_succ_of_le h)⟩
    simp only [e3, e2, e1, e0, hd h3, hd h2, hd h1, hd h0, and_self]

/-! What `classify` answers -/

section
variable {b : List Byte}

/-- The READ path looks for the inline pattern and then at its four digits (42_error_classifier.md R254). -/
theorem classify_read_controllerError_iff {code : Nat} : classify .read b = .controllerError code ↔
    (10 ≤ b.length ∧ byteAt b 4 = 0x3F ∧ byteAt b 9 = 0x0D) ∧ digits4 b 5 = true ∧ code4 b 5 = code := by
  simp only [classify]
  split
  · rename_i hpat
    split
    · rename_i hdig
      exact ⟨fun h => ⟨hpat, hdig, Class.controllerError.inj h⟩, fun ⟨_, _, h⟩ => congrArg _ h⟩
    · rename_i hdig
      exact ⟨nofun, fun ⟨_, h, _⟩ => absurd h hdig⟩
  · rename_i hpat
    exact ⟨nofun, fun ⟨h, _⟩ => absurd h hpat⟩

theorem classify_read_noError_iff : classify .read b = .noError ↔ ¬ (10 ≤ b.length ∧ byteAt b 4 = 0x3F ∧ byteAt b 9 = 0x0D) := by
  simp only [classify]
  split
  · rename_i hpat
    refine ⟨fun h => ?_, fun h => absurd hpat h⟩
    split at h <;> cases h
  · rename_i hpat
    exact ⟨fun _ => hpat, fun _ => rfl⟩

/-- Shape A (42_error_classifier.md R252), byte by byte. -/
theorem shapeA_iff : shapeA b = true ↔
    (byteAt b 0 = 0xE3 ∧ byteAt b 2 = 0x36 ∧ byteAt b 3 = 0x3F ∧ byteAt b 8 = 0x0D ∧ byteAt b 9 = 0xE6) ∧ digits4 b 4 = true := by
  simp only [shapeA, Bool.and_eq_true, beq_iff_eq, and_assoc]

/-- The NAK path asks for the length and the form of Shape A (42_error_classifier.md R252). -/
theorem classify_nak_controllerError_iff {code : Nat} : classify .nak b = .controllerError code ↔
    b.length = 10 ∧ shapeA b = true ∧ code4 b 4 = code := by
  simp only [classify]
  split
  · rename_i hlen
    split
    · rename_i hshape
      exact ⟨fun h => ⟨hlen, hshape, Class.controllerError.inj h⟩, fun ⟨_, _, h⟩ => congrArg _ h⟩
    · rename_i hshape
      exact ⟨nofun, fun ⟨_, h, _⟩ => absurd h hshape⟩
  · rename_i hlen
    exact ⟨nofun, fun ⟨h, _⟩ => absurd h hlen⟩

theorem classify_nak_ne_noError : classify .nak b ≠ .noError := by
  simp only [classify]
  split
  · split <;> nofun
  · nofun

end

theorem isLegacy_eq (p : Path) (b : List Byte) : isLegacy p b = decide (p = .nak ∧ b.length = 11) := by
  cases p with
  | read => simp [isLegacy]
  | nak => simp [isLegacy_nak]

/-! The obligations -/

/-- Settles O33: the result of a ready block is that of `exec_decErr_ready`, with the values of the three classes written out. -/
theorem decErrResult : Obligations.DecErrResult := by
  intro f s hs b t
  refine ⟨(exec_decErr_ready f hs).trans ?_, rfl⟩
  rw [isLegacy_eq]
  subst t
  cases classify f.path b with
  | noError => rfl
  | controllerError c => rfl
  | malformedError => rfl

/-- Settles O34: a buffer of ten bytes is the list of its bytes, and Shape A fixes all of them but the opcode and the digits. -/
theorem classifyNak : Obligations.ClassifyNak := by
  refine fun b => ⟨fun code => classify_nak_controllerError_iff.trans ⟨?_, ?_⟩, classify_nak_ne_noError⟩
  · rintro ⟨hlen, hshape, hcode⟩
    obtain ⟨⟨h0, h2, h3, h8, h9⟩, hdig⟩ := shapeA_iff.mp hshape
    obtain ⟨d3, d2, d1, d0, ⟨l3, l2, l1, l0⟩, ⟨e3, e2, e1, e0⟩, hval⟩ := digits4_code4_iff.mp ⟨hdig, hcode⟩
    refine ⟨byteAt b 1, d3, d2, d1, d0, l3, l2, l1, l0, ?_, hval⟩
    calc b = (List.range 10).map (byteAt b) := by rw [← take_eq_map_byteAt hlen.ge, List.take_of_length_le hlen.le]
      _ = _ := by rw [← h0, ← h2, ← h3, ← h8, ← h9, ← e3, ← e2, ← e1, ← e0]; rfl
  · rintro ⟨op, d3, d2, d1, d0, l3, l2, l1, l0, rfl, hval⟩
    rw [shapeA_iff, and_assoc]
    exact ⟨rfl, ⟨rfl, rfl, rfl, rfl, rfl⟩,
      digits4_code4_iff.mpr ⟨d3, d2, d1, d0, ⟨l3, l2, l1, l0⟩, ⟨rfl, rfl, rfl, rfl⟩, hval⟩⟩

/-- Settles O35: a buffer is its first ten bytes and the rest, and the inline pattern fixes bytes 4 to 9 but for the digits. -/
theorem classifyRead : Obligations.ClassifyRead := by
  refine fun b => ⟨fun code => classify_read_controllerError_iff.trans ⟨?_, ?_⟩, classify_read_noError_iff⟩
  · rintro ⟨⟨hlen, h4, h9⟩, hval⟩
    obtain ⟨d3, d2, d1, d0, ⟨l3, l2, l1, l0⟩, ⟨e3, e2, e1, e0⟩, hcode⟩ := digits4_code4_iff.mp hval
    refine ⟨byteAt b 0, byteAt b 1, byteAt b 2, byteAt b 3, d3, d2, d1, d0, b.drop 10, l3, l2, l1, l0, ?_, hcode⟩
    calc b = (List.range 10).map (byteAt b) ++ b.drop 10 := by rw [← take_eq_map_byteAt hlen, List.take_append_drop]
      _ = _ := by rw [← h4, ← h9, ← e3, ← e2, ← e1, ← e0]; rfl
  · rintro ⟨h0, h1, h2, h3, d3, d2, d1, d0, rest, l3, l2, l1, l0, rfl, hval⟩
    refine ⟨⟨?_, rfl, rfl⟩, digits4_code4_iff.mpr ⟨d3, d2, d1, d0, ⟨l3, l2, l1, l0⟩, ⟨rfl, rfl, rfl, rfl⟩, hval⟩⟩
    rw [List.length_append]
    exact Nat.le_add_right 10 _

end Sys2Proof.Machine
end

section
/-! PROOF. The tracker and PLAN_WR (43_slice_wrap_tracker.md): how the tracker goes on, the outcomes of PLAN_WR run by a ready block, the plan it
leaves, and the writes with a second dimension that spans. -/

namespace Sys2Proof.Machine

open Sys2Proof

/-! The tracker -/

section
variable {d : Descriptor} {k : Kind} {t : WtCounts}

/-- Below slice 9 the tracker takes the next slice of the segment (43_slice_wrap_tracker.md R283). -/
theorem wtAdvance_below (h : t.slice < 9) : wtAdvance d k t = .ok (setChunk { t with slice := t.slice + 1 }) := if_pos h

/-- After slice 9 the tracker starts a segment at the elements sent (43_slice_wrap_tracker.md R283). -/
theorem wtAdvance_wrap (h : t.slice = 9) : wtAdvance d k t = startSegment d k t.sent t :=
  if_neg (by rw [h]; decide)

/-- A segment starts at slice 0 of the geometry of its own descriptor (43_slice_wrap_tracker.md R282). -/
theorem startSegment_ok {base : Nat} {g : Geometry} (hg : geom (shift d base) k = .ok g) :
    startSegment d k base t = .ok (setChunk { t with
      segBase := base, segDesc := shift d base, m := if g.single then 0 else g.m, p := g.p, slice := 0 }) := by
  rw [startSegment, hg]

/-- `WT_REMSL` counts the slices of the segment after the tracker's (43_slice_wrap_tracker.md R282). -/
theorem tracking_remsl (hv : validDesc d false = true) (h : Tracking d k t) : t.slice < t.p ∧ t.remsl = t.p - 1 - t.slice := by
  obtain ⟨-, hslice, -, -, hrem⟩ := chunkRecord_fits 0 0 hv h
  obtain ⟨-, g', hg', -, -, hrec, -⟩ := chunkRecord_planRecord 0 0 hv h
  obtain ⟨-, -, -, -, ⟨g, hg, -, hp, hlt⟩, -⟩ := h
  obtain rfl : g' = g := Except.ok.inj (hg'.symm.trans hg)
  rw [hslice, hrem] at hrec
  exact ⟨hp ▸ hlt, hp ▸ hrec⟩

end

/-- Settles O39: the two branches of `wtAdvance`, the second with the segment that `startSegment` answers. -/
theorem trackerAdvances : Obligations.TrackerAdvances := by
  intro d k t
  refine ⟨wtAdvance_below, fun h9 g hg => ⟨_, (wtAdvance_wrap h9).trans (startSegment_ok hg), ?_⟩⟩
  simp

/-! The plan -/

/-- The counts of a plan sum to the elements it covers (43_slice_wrap_tracker.md R285, item 3). -/
theorem PlanFrom.counts_sum {n off : Nat} {plan : List ChunkRecord} (h : PlanFrom n off plan) :
    off + (plan.map fun r => r.count.toNat).sum = n := by
  induction plan generalizing off with
  | nil => exact h.elim
  | cons c rest ih =>
    obtain ⟨-, -, -, -, hrest⟩ := h
    cases rest with
    | nil =>
      obtain ⟨-, hend⟩ := hrest
      simpa using hend
    | cons c' rest =>
      obtain ⟨-, -, hplan⟩ := hrest
      have hsum := ih hplan
      rw [List.map_cons, List.sum_cons]
      omega

/-- When the plan check passes the loop of PLAN_WR runs from `wtInit` to a plan of the whole array (43_slice_wrap_tracker.md R281, R285). -/
theorem planLoop_of_planCheck {d : Descriptor} {k : Kind} (opS opL : Byte) (t : WtCounts) (hv : validDesc d false = true)
    (hc : planCheck d k = .ok ()) :
    ∃ t0 t1 rest, wtInit d k t = .ok t0 ∧ Tracking d k t0 ∧ t0.slice = 0 ∧ t0.segBase = 0 ∧
      planLoop d k opS opL (numElements d) t0 = .ok (t1, chunkRecord k opS opL t0 :: rest) ∧
      PlanFrom (numElements d) 0 (chunkRecord k opS opL t0 :: rest) ∧ t1.sent = numElements d ∧ rest.length < numElements d := by
  obtain ⟨t0, h0⟩ := wtInit_ok t hc
  obtain ⟨htrack, hoff, hslice, hbase, -⟩ := wtInit_tracking h0
  obtain ⟨t1, rest, hloop, hplan, hsent, hlen⟩ := planLoop_planFrom (opS := opS) (opL := opL) hv (numElements d) htrack (by omega)
  exact ⟨t0, t1, rest, h0, htrack, hslice, hbase, hloop, hoff ▸ hplan, hsent, hlen⟩

/-- In a segment of at most 10 packets the plan has one record for each of the slices left: the tracker never wraps
(43_slice_wrap_tracker.md R283). -/
theorem planLoop_length {d : Descriptor} {k : Kind} {opS opL : Byte} (hv : validDesc d false = true) (fuel : Nat) {t t1 : WtCounts}
    {plan : List ChunkRecord} (h : Tracking d k t) (hp : t.p ≤ 10) (hl : planLoop d k opS opL fuel t = .ok (t1, plan)) :
    plan.length = t.p - t.slice := by
  induction fuel generalizing t plan with
  | zero => cases hl
  | succ fuel ih =>
    obtain ⟨hslice, hrem⟩ := tracking_remsl hv h
    by_cases h0 : t.remsl = 0
    · rw [planLoop_last opS opL fuel h0] at hl
      cases hl
      rw [List.length_singleton]
      omega
    · obtain ⟨t', rest, hadv, hrest, rfl⟩ := planLoop_more h0 hl
      obtain ⟨t'', hadv', htrack, -⟩ := tracking_advance hv h h0
      obtain rfl : t'' = t' := Except.ok.inj (hadv'.symm.trans hadv)
      rw [wtAdvance_below (t := countChunk t) (show t.slice < 9 by omega)] at hadv
      obtain rfl := Except.ok.inj hadv
      have hlen := ih htrack (by simpa [countChunk] using hp) hrest
      simp only [setChunk_p, setChunk_slice, countChunk] at hlen
      rw [List.length_cons, hlen]
      omega

/-! The plan check from base 0 -/

section
variable {d : Descriptor} {k : Kind} {g : Geometry} (hg : geom d k = .ok g)
include hg

/-- The plan check begins with the geometry of the whole array (43_slice_wrap_tracker.md R282). -/
theorem planCheck_first : planCheck d k =
    if g.single ∨ g.p ≤ 10 then .ok ()
    else if d2spans d then .error .protocolLimit
    else planCheckFrom d k (numElements d - 1) (10 * g.m) := by
  obtain ⟨fuel, hfuel⟩ : ∃ fuel, numElements d = fuel + 1 := ⟨_, (Nat.sub_add_cancel (numElements_pos d)).symm⟩
  simp only [planCheck, hfuel, planCheckFrom, shift_zero, hg, Nat.zero_add]
  rfl

/-- An array of at most 10 packets is one segment, and it can be planned (43_slice_wrap_tracker.md R284). -/
theorem planCheck_fits (hp : g.p ≤ 10) : planCheck d k = .ok () := by
  rw [planCheck_first hg, if_pos (Or.inr hp)]

/-- An array of more packets whose second dimension spans cannot be planned (43_slice_wrap_tracker.md R284). -/
theorem planCheck_spans (hs : d2spans d = true) (hp : 10 < g.p) : planCheck d k = .error .protocolLimit := by
  have hsingle : g.single ≠ true := by
    rcases geom_ok hg with ⟨-, -, hp1, -⟩ | ⟨hsingle, -⟩
    · omega
    · rw [hsingle]; decide
  have hwrap : ¬ (g.single = true ∨ g.p ≤ 10) := not_or.mpr ⟨hsingle, hp.not_ge⟩
  rw [planCheck_first hg, if_neg hwrap, if_pos hs]

end

/-! PLAN_WR run by a ready block -/

section
variable {f : Fields} {s : State} (hs : Ready s)
include hs

theorem exec_planWr_invalid (hv : validDesc (portOperands s).desc false = false) :
    exec (.planWr f) s = .next (complete .argument 0 (accept (commandWord 5 f) s)) := by
  simp only [exec, execPlanWr, hostCommand_idle hs.1, accept_latch, hv, Bool.false_eq_true, not_false_eq_true, if_true,
    raise_accepted hs]

section
variable {opS opL : Byte} (hv : validDesc (portOperands s).desc false = true) (ho : writeOpcodes f.kind = .ok (opS, opL))
include hv ho

theorem exec_planWr_planCheck_error {e : Status} (h : planCheck (portOperands s).desc f.kind = .error e) :
    exec (.planWr f) s = .next (complete e 0 (accept (commandWord 5 f) s)) := by
  simp only [exec, execPlanWr, hostCommand_idle hs.1, accept_latch, accept_wt, hv, not_true_eq_false, if_false, ho,
    wtInit_error _ h, raise_accepted hs]

theorem exec_planWr_ok {t0 t1 : WtCounts} {plan : List ChunkRecord}
    (h0 : wtInit (portOperands s).desc f.kind (wtCounts s.wt) = .ok t0)
    (hl : planLoop (portOperands s).desc f.kind opS opL (numElements (portOperands s).desc) t0 = .ok (t1, plan)) :
    exec (.planWr f) s = .next (complete .ok 0 { accept (commandWord 5 f) s with
      wt := wtRegs t1, res := { Results.none with plan := some plan } }) := by
  simp only [exec, execPlanWr, hostCommand_idle hs.1, accept_latch, accept_wt, accept_res, hv, not_true_eq_false, if_false, ho, h0, hl]
  exact congrArg _ (finish_not_held hs.2)

end

/-- PLAN_WR completes at once: with an error of its checks, having written neither the WT registers nor RES_PLAN, or with OK and a plan
(43_slice_wrap_tracker.md R281). -/
theorem planWr_completes (f : Fields) :
    (∃ e, exec (.planWr f) s = .next (complete e 0 (accept (commandWord 5 f) s))) ∨
    ∃ w x p, validDesc (portOperands s).desc false = true ∧ writeOpcodes f.kind = .ok w ∧
      planCheck (portOperands s).desc f.kind = .ok () ∧
      exec (.planWr f) s = .next (complete .ok 0 { accept (commandWord 5 f) s with wt := x, res := { Results.none with plan := p } }) := by
  cases hv : validDesc (portOperands s).desc false with
  | false => exact Or.inl ⟨_, exec_planWr_invalid hs hv⟩
  | true =>
    cases ho : writeOpcodes f.kind with
    | error e => exact Or.inl ⟨e, exec_planWr_no_opcodes hs hv ho⟩
    | ok w =>
      cases hc : planCheck (portOperands s).desc f.kind with
      | error e => exact Or.inl ⟨e, exec_planWr_planCheck_error hs hv ho hc⟩
      | ok u =>
        obtain ⟨t0, t1, rest, h0, -, -, -, hl, -⟩ := planLoop_of_planCheck w.1 w.2 (wtCounts s.wt) hv hc
        exact Or.inr ⟨w, _, _, rfl, rfl, rfl, exec_planWr_ok hs hv ho h0 hl⟩

end

/-- Settles O36: the loop's plan by `planLoop_of_planCheck`, its records by `planLoop_records`. -/
theorem planWrResult : Obligations.PlanWrResult := by
  intro f s opS opL hs d hv ho hc
  obtain ⟨t0, t1, rest, h0, htrack, hslice, hbase, hl, hplan, hsent, hlen⟩ := planLoop_of_planCheck opS opL (wtCounts s.wt) hv hc
  obtain ⟨hfbase, hfslice, -⟩ := chunkRecord_fits opS opL hv htrack
  obtain ⟨-, -, -, hseg, -⟩ := id htrack
  obtain ⟨-, -, -, hmax⟩ := validDesc_parts hv
  refine ⟨_, t0, t1, chunkRecord f.kind opS opL t0, rest, exec_planWr_ok hs hv ho h0 hl, h0, hl, rfl, planLoop_records hv _ htrack hl,
    rfl, rfl, rfl, rfl, rfl, hplan, ?_, ?_, ?_, hlen, ?_, ?_⟩
  · exact BitVec.eq_of_toNat_eq (hfslice.trans hslice)
  · exact BitVec.eq_of_toNat_eq (hfbase.trans hbase)
  · change t0.segDesc = d
    rw [hseg, hbase, shift_zero]
  · have hsum := hplan.counts_sum
    rwa [Nat.zero_add] at hsum
  · change (BitVec.ofNat 32 t1.sent).toNat = _
    rw [hsent, BitVec.toNat_ofNat]
    exact Nat.mod_eq_of_lt (Nat.lt_of_le_of_lt hmax (by decide))

/-- Settles O37: each check fails after the ones before it passed, and the opcodes and the plan check have one error each. -/
theorem planWrErrors : Obligations.PlanWrErrors := by
  intro f s hs d fails
  refine ⟨exec_planWr_invalid hs, ?_, ?_⟩
  · intro hv e ho
    cases writeOpcodes_error ho
    exact exec_planWr_no_opcodes hs hv ho
  · intro hv w e ho hc
    cases planCheckFrom_error hc
    exact exec_planWr_planCheck_error hs hv ho hc

/-- Settles O38: the plan check of the first segment, and a plan of one record for each of its packets. -/
theorem twoDimensionalWrap : Obligations.TwoDimensionalWrap := by
  intro f s w g hs d hv hspans ho hg
  constructor
  · intro hp
    have hc := planCheck_spans hg hspans hp
    exact ⟨exec_planWr_planCheck_error hs hv ho hc, fun hd => exec_xferWr_error hs hv hd ho (wtInit_error _ hc)⟩
  · intro hp
    have hc := planCheck_fits hg hp
    obtain ⟨t0, t1, rest, h0, htrack, hslice, hbase, hl, -⟩ := planLoop_of_planCheck w.1 w.2 (wtCounts s.wt) hv hc
    refine ⟨hc, _, _, exec_planWr_ok hs hv ho h0 hl, rfl, rfl, ?_⟩
    have hpackets : t0.p = g.p := by
      obtain ⟨-, -, -, hseg, ⟨g0, hg0, -, hp0, -⟩, -⟩ := htrack
      rw [hseg, hbase, shift_zero, hg] at hg0
      rw [hp0, Except.ok.inj hg0]
    rw [planLoop_length hv _ htrack (hpackets ▸ hp) hl, hslice, hpackets, Nat.sub_zero]

/-- Settles O57: completion after acceptance, with the registers PLAN_WR writes named. -/
theorem planWrFrame : Obligations.PlanWrFrame := by
  intro f s t hs h
  rcases planWr_completes hs f with ⟨e, hx⟩ | ⟨w, x, p, hv, ho, hc, hx⟩
  · obtain rfl : complete e 0 (accept (commandWord 5 f) s) = t := Host.Outcome.next.inj (hx.symm.trans h)
    refine ⟨?_, fun _ => ⟨rfl, rfl⟩, fun _ => ⟨rfl, rfl⟩⟩
    simp only [complete, accept, hs.1, BitVec.ofNat_eq_ofNat, ite_self]
  · rw [hx] at h
    cases h
    refine ⟨?_, fun _ => ⟨rfl, rfl⟩, ?_⟩
    · simp only [complete, accept, hs.1]
      rfl
    · rintro (hv' | ⟨e, ho'⟩ | ⟨e, hc'⟩)
      · rw [hv] at hv'; cases hv'
      · rw [ho] at ho'; cases ho'
      · rw [hc] at hc'; cases hc'

end Sys2Proof.Machine
end

section
/-! PROOF. The frames of XFER_WR are those of PLAN_WR's records (43_slice_wrap_tracker.md R281, 41_slicer_continuation.md R208). -/

namespace Sys2Proof.Machine

open Sys2Proof

/-- A step of a write that leads to a frame sends that of the tracker's chunk, with the length and the opcode of its record. -/
theorem step_sends_record {s u : State} {opS opL : Byte} (hw : Writing u) (hl : latchOp u = 7)
    (ho : writeOpcodes (latchKind u) = .ok (opS, opL)) (hstep : step s = settle (.next { u with phase := .exec })) :
    ∃ t b, step s = .next t ∧ t.issued = u.issued ++ [.write b .tArray] ∧ t.phase = .wTx ∧ t.wt = u.wt ∧
      b.length = (chunkRecord (latchKind u) opS opL (wtCounts u.wt)).outBytes.toNat ∧
      t.lastOpc = (chunkRecord (latchKind u) opS opL (wtCounts u.wt)).opcode ∧ byteAt b 1 = t.lastOpc := by
  obtain ⟨c, hc, hlen, hopc⟩ := nextWrite_ok hw ho
  exact ⟨_, c.frame, hstep.trans (settle_writing hl hc), rfl, rfl, rfl, hlen, hopc, rfl⟩

/-- Settles O48: `step_sends_record` in the three steps that lead to a frame. -/
theorem transferSendsThePlan : Obligations.TransferSendsThePlan := by
  intro s opS opL rest hrun hq hl ho sends
  obtain ⟨-, -, -, -, -, hwrite⟩ := hrun
  have hwriting : ∀ {p : Phase}, s.phase = p → p ≠ .idle → p ≠ .wEosRestore → Writing s := by
    rintro _ rfl
    exact hwrite.writing hl
  refine ⟨?_, ?_, ?_⟩
  · intro hp hr
    have hw := hwriting hp nofun nofun
    have hstep := step_flush hq hp (by decide) hr
    rw [onFlush_ok] at hstep
    exact step_sends_record (u := { s with responses := rest }) hw hl ho hstep
  · intro y hp hr hne
    have hw := hwriting hp nofun nofun
    have hstep := step_ack hq hp rfl hr
    rw [onAck_acknowledged] at hstep
    obtain ⟨-, ⟨h0, -⟩ | ⟨-, t', hadv, hfit, -, -, hw', heq⟩⟩ := chunkAcknowledged_writing y rest hw
    · exact absurd h0 hne
    · rw [heq] at hstep
      exact ⟨t', hadv, hfit, step_sends_record (u := { afterAck y rest s with wt := wtRegs t' }) hw' hl ho hstep⟩
  · intro hp
    have hw := hwriting hp nofun nofun
    have hstep : step s = settle (.next { s with phase := .exec }) := by
      rw [step_quiet hq, sequence_exec hp, settle_of_phase_exec rfl, ← hp]
    exact step_sends_record hw hl ho hstep

end Sys2Proof.Machine
end

section
/-! PROOF. The reset state, and a step with RST asserted (70_reset_and_hazards.md R340, R341). -/

namespace Sys2Proof.Machine

open Sys2Proof

/-- A request is outstanding in every phase but IDLE and EXEC (10_state.md R31). -/
theorem waiting_iff (p : Phase) : waiting p = true ↔ p ≠ .idle ∧ p ≠ .exec := by
  cases p <;> simp [waiting]

/-- RST goes before everything else in a step (70_reset_and_hazards.md R340). -/
theorem step_rst {s : State} (h : s.rst = true) : step s = .next (resetBlock s) := by
  rw [step, blockStep, if_pos h]

theorem statusw_reset : statusw State.reset = 0 := by decide

/-- The response discarded is the one to a request outstanding (70_reset_and_hazards.md R340). -/
theorem discardStale_eq (s : State) :
    discardStale s = if s.phase = .idle ∨ s.phase = .exec then s.responses else s.responses.tail := by
  unfold discardStale
  by_cases h : s.phase = .idle ∨ s.phase = .exec
  · have hw : ¬ waiting s.phase = true := fun hw => not_or.mpr ((waiting_iff _).mp hw) h
    rw [if_pos h, if_neg hw]
  · rw [if_neg h, if_pos ((waiting_iff _).mpr (not_or.mp h))]

/-- Settles O1: the registers by computation, and the step because nothing is offered (`waits`). -/
theorem resetWaitsInIdle : Obligations.ResetWaitsInIdle := by
  obtain ⟨hidle, -⟩ := waits State.reset ⟨rfl, rfl⟩
  exact ⟨statusw_reset, rfl, rfl, rfl, rfl, hidle rfl rfl⟩

/-- Settles O2: the step is `resetBlock`, whose registers are those of the reset state. -/
theorem resetDropsTheCommand : Obligations.ResetDropsTheCommand := by
  intro s hr
  have hstatus : statusw (resetBlock s) = 0 := (statusw_congr rfl rfl rfl rfl rfl rfl rfl).trans statusw_reset
  exact ⟨resetBlock s, step_rst hr, rfl, hstatus, rfl, rfl, rfl, rfl, rfl, discardStale_eq s, rfl, rfl⟩

end Sys2Proof.Machine
end

section
/-! PROOF. What a response does to the host port, and that a response of the right shape is always taken (41_slicer_continuation.md R200,
70_reset_and_hazards.md R355). -/

namespace Sys2Proof.Machine

open Sys2Proof

/-! RST and the host read stay as they are -/

theorem finish_quiet (e : Status) (code : Nat) {s : State} (h : Quiet s) : Quiet (finish e code s) :=
  ⟨(finish_rst e code s).trans h.1, (finish_hostRead e code s).trans h.2⟩

theorem raise_quiet (e : Status) {s : State} (h : Quiet s) : Quiet (raise e s) := finish_quiet e 0 h

theorem runWire_quiet {s t : State} (hp : s.phase = .exec) (h : Quiet s) (hr : runWire s = .next t) : Quiet t := by
  rcases runWire_cases hp hr with ⟨c, -, -, rfl⟩ | ⟨c, -, -, rfl⟩ | ⟨e, -, rfl⟩
  · exact h
  · exact h
  · exact raise_quiet e h

theorem continueRead_quiet {s : State} (h : Quiet s) : Quiet (continueRead s) := by
  unfold continueRead
  split
  · rw [noteContEnd_eq]
    exact finish_quiet _ _ (s := { s with diagContEnd := s.rd.cont || s.diagContEnd }) h
  · split
    · exact raise_quiet _ h
    · exact h

theorem onData_quiet {b : List Byte} {st : XStatus} {s t : State} (h : Quiet s) (ht : onData b st s = .next t) : Quiet t := by
  rcases onData_cases ht with ⟨-, rfl⟩ | ⟨-, -, ⟨code, -, rfl⟩ | ⟨-, rfl⟩ | ⟨-, -, -, rfl⟩⟩
  · exact raise_quiet _ h
  · exact finish_quiet _ _ (s := received b s) h
  · exact raise_quiet _ (s := received b s) h
  · exact continueRead_quiet (s := appended b s) h

theorem chunkAcknowledged_quiet (echo : Byte) {s : State} (h : Quiet s) : Quiet (chunkAcknowledged echo s) := by
  have hack : Quiet (countAcknowledged (noteEcho echo s)) := by
    rw [noteEcho_eq]
    exact h
  unfold chunkAcknowledged
  dsimp only
  split
  · exact finish_quiet _ _ hack
  · split
    · exact raise_quiet _ hack
    · exact hack

theorem onAck_quiet (b : List Byte) (st : XStatus) {s : State} (h : Quiet s) : Quiet (onAck b st s) := by
  have hfails : Quiet (raise .transport { s with phase := .exec }) := raise_quiet _ (s := { s with phase := .exec }) h
  unfold onAck
  dsimp only
  split
  · exact hfails
  · split
    · exact hfails
    · split
      · exact h
      · split
        · exact hfails
        · exact chunkAcknowledged_quiet _ (s := { s with phase := .exec }) h

theorem onTail_quiet {b : List Byte} {st : XStatus} {s t : State} (h : Quiet s) (ht : onTail b st s = .next t) : Quiet t := by
  rcases onTail_cases ht with ⟨-, rfl⟩ | ⟨-, -, e, code, rfl, -⟩
  · exact raise_quiet _ (s := { s with phase := .exec }) h
  · refine finish_quiet e code ?_
    rw [noteLegacy_eq]
    exact h

/-- No response touches RST or the host read. -/
theorem handle_quiet {r : Response} {s t : State} (h : Quiet s) (ht : handle r s = .next t) : Quiet t := by
  rcases handle_cases ht with ⟨cfg, st, -, -, -, rfl⟩ | ⟨st, -, -, -, rfl⟩ | ⟨st, -, -, -, rfl⟩ | ⟨st, -, -, rfl⟩ |
    ⟨b, st, -, -, -, ht⟩ | ⟨b, st, -, -, -, rfl⟩ | ⟨b, st, -, -, -, ht⟩ | ⟨st, -, -, -, rfl⟩
  · unfold onEosSave
    split
    · exact raise_quiet _ h
    · exact h
  · unfold onEosClear
    split
    · exact raise_quiet _ h
    · exact h
  · unfold onFlush
    split
    · exact raise_quiet _ h
    · exact h
  · unfold onWritten
    split
    · exact raise_quiet _ h
    · split
      · exact h
      · exact h
  · exact onData_quiet h ht
  · exact onAck_quiet b st h
  · exact onTail_quiet h ht
  · exact h

/-! A response of the right shape -/

theorem answers_read {n : Nat} {tm : Timeout} {r : Response} (h : answers (.read n tm) r = true) :
    ∃ b st, r = .bytes b st ∧ handle.readShape n b st = true := by
  cases r with
  | done st => cases h
  | eos cfg st => cases h
  | bytes b st => exact ⟨b, st, rfl, by cases st <;> exact h⟩

theorem answers_write {b : List Byte} {tm : Timeout} {r : Response} (h : answers (.write b tm) r = true) : ∃ st, r = .done st := by
  cases r with
  | done st => exact ⟨st, rfl⟩
  | eos cfg st => cases h
  | bytes b st => cases h

theorem answers_eosSave {r : Response} (h : answers .eosSave r = true) : ∃ cfg st, r = .eos cfg st ∧ st ≠ .timeout := by
  cases r with
  | done st => cases h
  | eos cfg st => exact ⟨cfg, st, rfl, of_decide_eq_true h⟩
  | bytes b st => cases h

/-- The requests answered by a status alone that is no TIMEOUT (41_slicer_continuation.md R200). -/
theorem answers_control {q : Request} {r : Response} (hq : q = .eosClear ∨ q = .flush ∨ ∃ cfg, q = .eosRestore cfg)
    (h : answers q r = true) : ∃ st, r = .done st ∧ st ≠ .timeout := by
  rcases hq with rfl | rfl | ⟨cfg, rfl⟩
  all_goals
    cases r with
    | done st => exact ⟨st, rfl, of_decide_eq_true h⟩
    | eos cfg st => cases h
    | bytes b st => cases h

/-- A response of the shape of the request outstanding stops nothing, if the replies waited for fit. -/
theorem handle_answered {q : Request} {r : Response} {s : State} (hf : RepliesFit s) (hq : Awaits s q) (ha : answers q r = true) :
    StopsOnly (fun _ => False) (handle r s) := by
  unfold Awaits at hq
  cases hp : s.phase <;> rw [hp] at hq
  case idle | exec => exact hq.elim
  case wEosSave =>
    subst hq
    obtain ⟨cfg, st, rfl, hst⟩ := answers_eosSave ha
    simp only [handle, hp, if_neg hst]
    exact True.intro
  case wEosClear =>
    obtain ⟨st, rfl, hst⟩ := answers_control (Or.inl hq) ha
    simp only [handle, hp, if_neg hst]
    exact True.intro
  case wFlush =>
    obtain ⟨st, rfl, hst⟩ := answers_control (Or.inr (Or.inl hq)) ha
    simp only [handle, hp, if_neg hst]
    exact True.intro
  case wTx =>
    obtain ⟨b, -, rfl⟩ := hq
    obtain ⟨st, rfl⟩ := answers_write ha
    simp only [handle, hp]
    exact True.intro
  case wRxData =>
    subst hq
    obtain ⟨b, st, rfl, hshape⟩ := answers_read ha
    obtain ⟨hreply, hout⟩ := hf.1 hp
    simp only [handle, hp, if_pos hshape]
    exact onData_stopsOnly (Or.inl fun hst => (readShape_length_le hshape (by rw [hst]; decide)).trans hreply) (Or.inl hout)
  case wRxAck =>
    subst hq
    obtain ⟨b, st, rfl, hshape⟩ := answers_read ha
    simp only [handle, hp, if_pos hshape]
    exact True.intro
  case wRxTail =>
    subst hq
    obtain ⟨b, st, rfl, hshape⟩ := answers_read ha
    simp only [handle, hp, if_pos hshape]
    refine onTail_stopsOnly (Or.inl fun hst => ?_)
    have hhead : s.ackHead.length ≤ 1405 := hf.2 hp
    have hrest : b.length ≤ 1405 - s.ackHead.length := readShape_length_le hshape hst
    rw [List.length_append]
    omega
  case wEosRestore =>
    obtain ⟨st, rfl, hst⟩ := answers_control (Or.inr (Or.inr ⟨_, hq⟩)) ha
    simp only [handle, hp, if_neg hst]
    exact True.intro

/-- A waiting block of a run takes a response of the shape of its request. -/
theorem step_answered {q : Request} {r : Response} {rest : List Response} {s : State} (hrun : RunInv s) (hquiet : Quiet s)
    (hw : waiting s.phase = true) (hr : s.responses = r :: rest) (hq : Awaits s q) (ha : answers q r = true) : ∃ t, step s = .next t := by
  have hl : latchOp s = 6 ∨ latchOp s = 7 := hrun.transferInv ((waiting_iff _).mp hw).1
  have hstops : StopsOnly (fun _ => False) (step s) := by
    rw [step_response hquiet hw hr]
    refine settle_stopsOnly (handle_answered (s := { s with responses := rest }) hrun.repliesFit hq ha) fun t hu hp => ?_
    refine runWire_stopsOnly hp (Or.inl ?_)
    rw [handle_latchOp hu]
    exact hl
  cases hs : step s with
  | next t => exact ⟨t, rfl⟩
  | fault e => rw [hs] at hstops; exact hstops.elim
  | refused e => rw [hs] at hstops; exact hstops.elim

end Sys2Proof.Machine
end

section
/-! PROOF. The run of a transfer whose requests are all answered (41_slicer_continuation.md R214, 70_reset_and_hazards.md R355): each step takes a
response and issues the next request, until the command completes. -/

namespace Sys2Proof.Machine

open Sys2Proof

/-! One step -/

/-- The frame of a step that goes through EXEC is sent, or the command ends: no step leaves EXEC behind (00_scope.md R12). -/
theorem runWire_phase_ne_exec {s t : State} (hp : s.phase = .exec) (h : runWire s = .next t) : t.phase ≠ .exec := by
  rcases runWire_cases hp h with ⟨c, -, -, rfl⟩ | ⟨c, -, -, rfl⟩ | ⟨e, -, rfl⟩
  · exact nofun
  · exact nofun
  · rw [raise_eq, finish_phase]
    split
    · exact nofun
    · exact nofun

theorem Awaits.waiting_phase {s : State} {r : Request} (h : Awaits s r) : waiting s.phase = true := by
  refine (waiting_iff _).mpr ⟨fun hp => ?_, fun hp => ?_⟩
  · rw [Awaits, hp] at h; exact h
  · rw [Awaits, hp] at h; exact h

/-- The command is complete, and the host still offers `offers`. -/
def Completed (offers : List Offer) (t : State) : Prop :=
  t.phase = .idle ∧ t.done = true ∧ t.eosHeld = false ∧ t.offered = offers

/-- A transfer of a run waits for the response to its request, the ports are quiet, and the host still offers `offers`. -/
def InFlight (offers : List Offer) (s : State) : Prop :=
  waiting s.phase = true ∧ Quiet s ∧ RunInv s ∧ PendingInv s ∧ s.offered = offers

section
variable {offers : List Offer} {s t : State}

theorem InFlight.done_eq (h : InFlight offers s) : s.done = false := by
  obtain ⟨hw, -, ⟨hc, -⟩, -⟩ := h
  obtain ⟨hdone, -⟩ := hc.inProgress ((waiting_iff _).mp hw).1
  exact hdone

/-- A transfer that gets a response of the shape of its request takes a step. -/
theorem InFlight.step_of_transportAnswers (h : InFlight offers s) (ha : TransportAnswers s) :
    s.responses ≠ [] ∧ ∃ t, step s = .next t := by
  obtain ⟨hw, hq, hrun, hpend, -⟩ := h
  obtain ⟨hidle, hexec⟩ := (waiting_iff _).mp hw
  rcases hpend with hp | hp | ⟨q, hlast, hawaits⟩
  · exact absurd hp hidle
  · exact absurd hp hexec
  · obtain ⟨r, rest, hr, hshape⟩ := ha 0 s q rfl hw hlast
    exact ⟨by rw [hr]; exact List.cons_ne_nil r rest, step_answered hrun hq hw hr hawaits hshape⟩

/-- A step that takes a response completes the command with no further request, or issues one request and waits for its response. -/
theorem InFlight.step_cases (h : InFlight offers s) (hr : s.responses ≠ []) (ht : step s = .next t) :
    Completed offers t ∧ t.issued = s.issued ∨ InFlight offers t ∧ t.issued.length = s.issued.length + 1 := by
  obtain ⟨hw, hq, hrun, -, ho⟩ := h
  obtain ⟨hidle, hexec⟩ := (waiting_iff _).mp hw
  have hrun' : RunInv t := runKept s t hrun ht
  have hseq := ht
  rw [step_quiet hq] at hseq
  rcases sequence_cases hseq with ⟨hp, -⟩ | ⟨_, _, hp, -⟩ | ⟨hp, -⟩ | ⟨-, -, hnil, -⟩ | ⟨r, rest, u, -, -, -, hu, hut⟩
  · exact absurd hp hidle
  · exact absurd hp hidle
  · exact absurd hp hexec
  · exact absurd hnil hr
  have hquiet : Quiet u := handle_quiet (s := { s with responses := rest }) hq hu
  have hquiet' : Quiet t ∧ t.phase ≠ .exec := by
    rcases hut with ⟨hp, rfl⟩ | ⟨hp, hx⟩
    · exact ⟨hquiet, hp⟩
    · exact ⟨runWire_quiet hp hquiet hx, runWire_phase_ne_exec hp hx⟩
  rcases response_goesOn hu hut with hg | ⟨-, st, rfl⟩
  · have hpend : PendingInv t := hg.pendingInv
    obtain ⟨-, ho', -, ⟨hp, -⟩ | ⟨hp, -, hi⟩ | ⟨q, hi, hawaits, -⟩⟩ := hg
    · exact absurd hp hquiet'.2
    · obtain ⟨hdone, -⟩ := completes_keepsResults hrun.1 hq hidle ht hp
      have hheld : t.eosHeld = false := by rw [hrun'.1.1, hp]; rfl
      exact Or.inl ⟨⟨hp, hdone, hheld, ho'.trans ho⟩, hi⟩
    · exact Or.inr ⟨⟨hawaits.waiting_phase, hquiet'.1, hrun', hpend, ho'.trans ho⟩, by rw [hi, List.length_append]; rfl⟩
  · exact Or.inl ⟨⟨rfl, rfl, rfl, ho⟩, rfl⟩

/-- The transport that answers every request of a run answers every request of the rest of it. -/
theorem TransportAnswers.step (h : TransportAnswers s) (ht : step s = .next t) : TransportAnswers t :=
  fun n u q hu => h (n + 1) u q ((run_step n ht).trans hu)

/-! The whole run -/

/-- After `j + 1` steps the command is complete, with `j` requests more than `b`; in each step before, one request more was issued. -/
def CompletesIn (offers : List Offer) (b j : Nat) (s t : State) : Prop :=
  Host.Core.run core (j + 1) s = .next t ∧ Completed offers t ∧ t.issued.length = b + j ∧
  ∀ n u, 1 ≤ n → n ≤ j → Host.Core.run core n s = .next u → u.done = false ∧ u.issued.length = b + n

theorem CompletesIn.at_once (hs : step s = .next t) (hc : Completed offers t) : CompletesIn offers t.issued.length 0 s t :=
  ⟨run_step 0 hs, hc, rfl, fun n u h1 h0 => absurd (h1.trans h0) (by decide)⟩

theorem CompletesIn.of_step {u : State} {b j : Nat} (hs : step s = .next u) (hu : InFlight offers u) (hi : u.issued.length = b + 1)
    (h : CompletesIn offers (b + 1) j u t) : CompletesIn offers b (j + 1) s t := by
  obtain ⟨hrun, hc, hlen, hbefore⟩ := h
  refine ⟨(run_step (j + 1) hs).trans hrun, hc, by omega, fun n v h1 hj hv => ?_⟩
  obtain ⟨m, rfl⟩ := Nat.exists_eq_add_of_le' h1
  rw [run_step m hs] at hv
  cases m with
  | zero =>
    cases hv
    exact ⟨hu.done_eq, hi⟩
  | succ m =>
    obtain ⟨hdone, hlen'⟩ := hbefore (m + 1) v (by omega) (by omega) hv
    exact ⟨hdone, by omega⟩

/-- A transfer completes if some property that its steps keep bounds the requests it has issued. -/
theorem InFlight.completes {P : State → Prop} {max : Nat}
    (hkeep : ∀ {s t : State}, InFlight offers s → P s → Machine.step s = .next t → P t)
    (hmax : ∀ {s : State}, InFlight offers s → P s → s.issued.length ≤ max) (fuel : Nat) (h : InFlight offers s) (hP : P s)
    (ha : TransportAnswers s) (hfuel : max < s.issued.length + fuel) :
    ∃ j t, CompletesIn offers s.issued.length j s t ∧ t.issued.length ≤ max := by
  have hbound := hmax h hP
  induction fuel generalizing s with
  | zero => omega
  | succ fuel ih =>
    obtain ⟨hr, u, hu⟩ := h.step_of_transportAnswers ha
    rcases h.step_cases hr hu with ⟨hc, hi⟩ | ⟨hu', hi⟩
    · exact ⟨0, u, hi ▸ CompletesIn.at_once hu hc, hi ▸ hbound⟩
    · have hPu := hkeep h hP hu
      obtain ⟨j, t, hj, ht⟩ := ih hu' hPu (ha.step hu) (by omega) (hmax hu' hPu)
      exact ⟨j + 1, t, .of_step hu hu' hi (hi ▸ hj), ht⟩

end

end Sys2Proof.Machine
end

section
/-! PROOF. How many requests a transfer issues (41_slicer_continuation.md R214). -/

namespace Sys2Proof.Machine

open Sys2Proof

/-! A read -/

/-- XFER_RD issues three requests of the raw-mode entry, two for each of at most ten slices, and the restore. -/
theorem ReadInv.issued_le {s : State} (h : ReadInv s) (hl : latchOp s = 6) (hne : s.phase ≠ .idle) : s.issued.length ≤ 24 := by
  obtain ⟨⟨-, -, -, -, -, -, hslice⟩, hat⟩ := (readInv_iff s).mp h hne hl
  cases hp : s.phase <;> rw [hp] at hat
  case idle => exact absurd hp hne
  case wEosSave | wEosClear | wFlush => obtain ⟨-, -, hi⟩ := hat; omega
  case exec => obtain ⟨-, hi⟩ := hat; omega
  case wTx | wRxData => obtain ⟨-, -, hi⟩ := hat; omega
  case wRxAck | wRxTail => exact hat.elim
  case wEosRestore => exact Nat.le_trans hat (by omega)

/-! A write -/

/-- The loop of PLAN_WR, from the chunk the tracker is at, has `r` chunks left (43_slice_wrap_tracker.md R281). -/
def ChunksLeft (r : Nat) (s : State) : Prop :=
  ∃ opS opL fuel t1 plan, planLoop s.latch.desc (latchKind s) opS opL fuel (wtCounts s.wt) = .ok (t1, plan) ∧ plan.length = r

theorem ChunksLeft.pos {r : Nat} {s : State} (h : ChunksLeft r s) : 1 ≤ r := by
  obtain ⟨opS, opL, fuel, t1, plan, hplan, rfl⟩ := h
  cases fuel with
  | zero => cases hplan
  | succ fuel =>
    by_cases h0 : (wtCounts s.wt).remsl = 0
    · rw [planLoop_last opS opL fuel h0] at hplan
      cases hplan
      exact Nat.le_refl 1
    · obtain ⟨t', rest, -, -, rfl⟩ := planLoop_more h0 hplan
      exact Nat.le_add_left 1 rest.length

/-- Once the chunk is acknowledged and another is to come, there is one chunk less. -/
theorem ChunksLeft.advance {r : Nat} {s : State} {t' : WtCounts} (h : ChunksLeft r s) (h0 : s.wt.remsl ≠ 0)
    (ha : wtAdvance s.latch.desc (latchKind s) (countChunk (wtCounts s.wt)) = .ok t') (hfit : wtCounts (wtRegs t') = t') :
    ∃ r', r = r' + 1 ∧ ChunksLeft r' { s with wt := wtRegs t' } := by
  obtain ⟨opS, opL, fuel, t1, plan, hplan, rfl⟩ := h
  cases fuel with
  | zero => cases hplan
  | succ fuel =>
    obtain ⟨t'', rest, ha', hrest, rfl⟩ := planLoop_more (fun hz => h0 (BitVec.eq_of_toNat_eq hz)) hplan
    obtain rfl : t'' = t' := Except.ok.inj (ha'.symm.trans ha)
    exact ⟨rest.length, rfl, opS, opL, fuel, t1, rest, by rw [← hfit] at hrest; exact hrest, rfl⟩

/-- The most requests a write can still issue with `r` chunks left, that of the phase among them: two for a chunk, the tail of a reply that is no
acknowledgement, and the restore. -/
def requestsLeft (r : Nat) : Phase → Nat
  | .idle => 0
  | .exec => 2 * r + 2
  | .wEosSave => 2 * r + 4
  | .wEosClear => 2 * r + 3
  | .wFlush => 2 * r + 2
  | .wTx => 2 * r + 1
  | .wRxData => 0
  | .wRxAck => 2 * r
  | .wRxTail => 1
  | .wEosRestore => 0

/-- A write has issued so few requests that those left make at most `max`. In the phases in which no chunk is left to send, the tracker does not
matter. -/
def WithinBudget (max : Nat) (s : State) : Prop :=
  ∃ r, (s.phase ≠ .idle → s.phase ≠ .wEosRestore → ChunksLeft r s) ∧ s.issued.length + requestsLeft r s.phase ≤ max

section
variable {max : Nat} {s t : State}

theorem WithinBudget.issued_le (h : WithinBudget max s) : s.issued.length ≤ max := by
  obtain ⟨r, -, hmax⟩ := h
  omega

/-- A write of which `r` chunks are left. -/
theorem WithinBudget.of_chunksLeft {r : Nat} (hr : ChunksLeft r s) (h : s.issued.length + requestsLeft r s.phase ≤ max) :
    WithinBudget max s := ⟨r, fun _ _ => hr, h⟩

/-- The end of a write issues at most the restore (41_slicer_continuation.md R203). -/
theorem finish_withinBudget (e : Status) (code : Nat) (h : s.issued.length + 1 ≤ max) : WithinBudget max (finish e code s) := by
  cases hh : s.eosHeld with
  | true =>
    rw [finish_held hh]
    exact ⟨0, fun _ hp => absurd rfl hp, (Nat.le_of_eq (issued_concat_length s _)).trans h⟩
  | false =>
    rw [finish_not_held hh]
    exact ⟨0, fun hp => absurd rfl hp, (Nat.le_succ _).trans h⟩

theorem raise_withinBudget (e : Status) (h : s.issued.length + 1 ≤ max) : WithinBudget max (raise e s) := finish_withinBudget e 0 h

/-- A request is issued, and with it the requests left become fewer. -/
theorem issue_withinBudget {r : Nat} (q : Request) {p : Phase} (hr : ChunksLeft r s)
    (h : s.issued.length + 1 + requestsLeft r p ≤ max) : WithinBudget max (issue q p s) :=
  .of_chunksLeft (r := r) hr (by rw [issue_issued, issued_concat_length]; exact h)

theorem runWire_withinBudget (hp : s.phase = .exec) (h : WithinBudget max s) (ht : runWire s = .next t) (hl : latchOp s = 7) :
    WithinBudget max t := by
  obtain ⟨r, hr, hmax⟩ := h
  rw [hp] at hr hmax
  have hleft : s.issued.length + (2 * r + 2) ≤ max := hmax
  rcases runWire_cases hp ht with ⟨c, hl', -⟩ | ⟨c, -, -, rfl⟩ | ⟨e, -, rfl⟩
  · rw [hl] at hl'; cases hl'
  · exact .of_chunksLeft (r := r) (hr nofun nofun) (by
      change (s.issued ++ [_]).length + (2 * r + 1) ≤ max
      rw [issued_concat_length]; omega)
  · exact raise_withinBudget e (by omega)

/-- An acknowledged chunk is the last one and the write ends, or one chunk less is left. -/
theorem chunkAcknowledged_withinBudget (echo : Byte) {r : Nat} (hw : Writing s) (hr : ChunksLeft r s)
    (h : s.issued.length + 2 * r ≤ max) : WithinBudget max (chunkAcknowledged echo s) := by
  obtain ⟨hv, -, -, htrack⟩ := hw
  rcases chunkAcknowledged_cases echo rfl hv htrack with ⟨-, heq⟩ | ⟨h0, t', ha, -, -, hfit, heq⟩
  · have hpos := hr.pos
    rw [heq]
    refine finish_withinBudget _ _ ?_
    rw [countAcknowledged_issued, noteEcho_issued]
    omega
  · obtain ⟨r', rfl, hr'⟩ := hr.advance h0 ha hfit
    rw [heq, noteEcho_eq]
    exact .of_chunksLeft (r := r') hr' h

theorem onAck_withinBudget (b : List Byte) (st : XStatus) {r : Nat} (hw : Writing s) (hr : ChunksLeft r s)
    (h : s.issued.length + 2 * r ≤ max) : WithinBudget max (onAck b st s) := by
  have hpos := hr.pos
  have hfails : WithinBudget max (raise .transport { s with phase := .exec }) :=
    raise_withinBudget _ (s := { s with phase := .exec }) (by change s.issued.length + 1 ≤ max; omega)
  unfold onAck
  dsimp only
  split
  · exact hfails
  · split
    · exact hfails
    · split
      · exact issue_withinBudget (r := r) _ (s := { s with phase := .exec, ackHead := b }) hr
          (by change s.issued.length + 1 + 1 ≤ max; omega)
      · split
        · exact hfails
        · exact chunkAcknowledged_withinBudget _ (s := { s with phase := .exec }) hw hr h

theorem onTail_withinBudget {b : List Byte} {st : XStatus} (h : s.issued.length + 1 ≤ max) (ht : onTail b st s = .next t) :
    WithinBudget max t := by
  rcases onTail_cases ht with ⟨-, rfl⟩ | ⟨-, -, e, code, rfl, -⟩
  · exact raise_withinBudget _ (s := { s with phase := .exec }) h
  · refine finish_withinBudget e code ?_
    rw [noteLegacy_issued]
    exact h

/-- No response leads a write out of its budget. -/
theorem handle_withinBudget {r : Response} (hl : latchOp s = 7) (hw : WriteInv s) (h : WithinBudget max s) (ht : handle r s = .next t) :
    WithinBudget max t := by
  obtain ⟨n, hn, hmax⟩ := h
  have hleft : ∀ {p}, s.phase = p → p ≠ .idle → p ≠ .wEosRestore → ChunksLeft n s ∧ s.issued.length + requestsLeft n p ≤ max := by
    rintro p rfl hne hfin
    exact ⟨hn hne hfin, hmax⟩
  rcases handle_cases ht with ⟨cfg, st, hp, -, -, rfl⟩ | ⟨st, hp, -, -, rfl⟩ | ⟨st, hp, -, -, rfl⟩ | ⟨st, hp, -, rfl⟩ |
    ⟨b, st, hp, -⟩ | ⟨b, st, hp, -, -, rfl⟩ | ⟨b, st, hp, -, -, ht⟩ | ⟨st, hp, -, -, rfl⟩
  · obtain ⟨hn, hmax⟩ := hleft hp nofun nofun
    change _ + (2 * n + 4) ≤ max at hmax
    unfold onEosSave
    split
    · exact raise_withinBudget _ (by omega)
    · exact issue_withinBudget (r := n) _ (s := { s with eosSaved := cfg, eosHeld := true }) hn
        (by change s.issued.length + 1 + (2 * n + 3) ≤ max; omega)
  · obtain ⟨hn, hmax⟩ := hleft hp nofun nofun
    change _ + (2 * n + 3) ≤ max at hmax
    unfold onEosClear
    split
    · exact raise_withinBudget _ (by omega)
    · exact issue_withinBudget (r := n) _ hn (by change s.issued.length + 1 + (2 * n + 2) ≤ max; omega)
  · obtain ⟨hn, hmax⟩ := hleft hp nofun nofun
    change _ + (2 * n + 2) ≤ max at hmax
    unfold onFlush
    split
    · exact raise_withinBudget _ (by omega)
    · exact .of_chunksLeft (r := n) hn hmax
  · obtain ⟨hn, hmax⟩ := hleft hp nofun nofun
    change _ + (2 * n + 1) ≤ max at hmax
    rw [onWritten, if_neg (show latchOp s ≠ 6 by rw [hl]; decide)]
    split
    · exact raise_withinBudget _ (by omega)
    · exact issue_withinBudget (r := n) _ hn (by change s.issued.length + 1 + 2 * n ≤ max; omega)
  · obtain ⟨hne, -⟩ := hw (by rw [hp]; decide) hl
    exact absurd hp hne
  · obtain ⟨hn, hmax⟩ := hleft hp nofun nofun
    exact onAck_withinBudget b st (hw.writing hl (by rw [hp]; decide) (by rw [hp]; decide)) hn hmax
  · obtain ⟨-, hmax⟩ := hleft hp nofun nofun
    exact onTail_withinBudget hmax ht
  · rw [hp] at hmax
    exact ⟨0, fun hne => absurd rfl hne, hmax⟩

/-- No step of a write in flight leads it out of its budget. -/
theorem step_withinBudget (hq : Quiet s) (hne : s.phase ≠ .idle) (hl : latchOp s = 7) (hw : WriteInv s) (h : WithinBudget max s)
    (ht : step s = .next t) : WithinBudget max t := by
  rw [step_quiet hq] at ht
  rcases sequence_cases ht with ⟨hp, -⟩ | ⟨_, _, hp, -⟩ | ⟨hp, hx⟩ | ⟨-, -, -, rfl⟩ | ⟨r, rest, u, -, -, -, hu, hut⟩
  · exact absurd hp hne
  · exact absurd hp hne
  · exact runWire_withinBudget hp h hx hl
  · exact h
  have hbudget : WithinBudget max u := handle_withinBudget (s := { s with responses := rest }) hl hw h hu
  rcases hut with ⟨-, rfl⟩ | ⟨hp, hx⟩
  · exact hbudget
  · exact runWire_withinBudget hp hbudget hx ((handle_latchOp hu).trans hl)

end

end Sys2Proof.Machine
end

section
/-! PROOF. Every command completes if the transport answers every request (41_slicer_continuation.md R214, 70_reset_and_hazards.md R355). -/

namespace Sys2Proof.Machine

open Sys2Proof

section
variable {offers : List Offer} {s t : State}

/-- The command latched stays that of the transfer. -/
theorem InFlight.latchOp_step (h : InFlight offers s) (ht : step s = .next t) : latchOp t = latchOp s := by
  obtain ⟨hw, hq, -⟩ := h
  obtain ⟨-, hlatch⟩ := commandHeldWhileBusy.1 s t hq.1 ((waiting_iff _).mp hw).1 ht
  rw [latchOp, latchOp, hlatch]

theorem InFlight.read_completes (h : InFlight offers s) (hl : latchOp s = 6) (ha : TransportAnswers s) :
    ∃ j t, CompletesIn offers s.issued.length j s t ∧ t.issued.length ≤ 24 := by
  refine h.completes (P := fun s => latchOp s = 6) (max := 24) ?_ ?_ 25 hl ha (by omega)
  · intro s t h hl ht
    exact (h.latchOp_step ht).trans hl
  · rintro s ⟨hw, -, ⟨-, -, -, -, hread, -⟩, -⟩ hl
    exact hread.issued_le hl ((waiting_iff _).mp hw).1

theorem InFlight.write_completes {max : Nat} (h : InFlight offers s) (hl : latchOp s = 7) (hbudget : WithinBudget max s)
    (ha : TransportAnswers s) : ∃ j t, CompletesIn offers s.issued.length j s t ∧ t.issued.length ≤ max := by
  refine h.completes (P := fun s => latchOp s = 7 ∧ WithinBudget max s) ?_ ?_ (max + 1) ⟨hl, hbudget⟩ ha (by omega)
  · rintro s t h ⟨hl, hb⟩ ht
    have hl' := (h.latchOp_step ht).trans hl
    obtain ⟨hw, hq, ⟨-, -, -, -, -, hwrite⟩, -⟩ := h
    exact ⟨hl', step_withinBudget hq ((waiting_iff _).mp hw).1 hl hwrite hb ht⟩
  · rintro s - ⟨-, hb⟩
    exact hb.issued_le

end

/-! The step that accepts the command -/

section
variable {s t : State} {offers : List Offer}

/-- A command that ends in the step that accepts it issues no request. -/
theorem completed_at_acceptance {o : Offer} {w : CmdWord} (hs : Ready s) (ho : s.offered = o :: offers) (e : Status)
    (hstep : step s = .next t) (ht : ∃ r l x, t = finish e 0 { accept w s with res := r, diagLegacy := l, wt := x }) :
    CompletesIn offers 0 0 s t ∧ t.issued = [] := by
  obtain ⟨r, l, x, rfl⟩ := ht
  rw [finish_not_held (s := { accept w s with res := r, diagLegacy := l, wt := x }) hs.2] at hstep ⊢
  refine ⟨CompletesIn.at_once hstep ⟨rfl, rfl, hs.2, ?_⟩, rfl⟩
  change s.offered.tail = offers
  rw [ho, List.tail_cons]

/-- A transfer that issues EosSave in the step that accepts it is in flight. -/
theorem inFlight_enterRaw {u : State} (hrun : RunInv s) (hs : Ready s) (hstep : step s = .next (enterRaw u)) (hu : Quiet u)
    (ho : u.offered = offers) : InFlight offers (enterRaw u) :=
  ⟨rfl, hu, runKept s _ hrun hstep, (oneRequestOutstanding s _ hstep).1 (Or.inl hs.1), ho⟩

/-- XFER_WR starts with the whole plan left, three requests of the raw-mode entry, and at most three for each chunk besides the restore
(41_slicer_continuation.md R208, R214). -/
theorem startedWrite_withinBudget {f : Fields} {x t1 : WtCounts} {opS opL : Byte} {plan : List ChunkRecord}
    (hv : validDesc (portOperands s).desc false = true) (hx : wtInit (portOperands s).desc f.kind (wtCounts s.wt) = .ok x)
    (hplan : planLoop (portOperands s).desc f.kind opS opL (numElements (portOperands s).desc) x = .ok (t1, plan)) :
    WithinBudget (4 + 3 * plan.length) (startedWrite x f s) := by
  have hr : ChunksLeft plan.length (startedWrite x f s) := by
    refine ⟨opS, opL, numElements (portOperands s).desc, t1, plan, ?_, rfl⟩
    change planLoop (portOperands s).desc (latchKind (accept (commandWord 7 f) s)) opS opL _ (wtCounts (wtRegs x)) = _
    rw [latchKind_accept, tracking_fits hv (wtInit_tracking hx).1]
    exact hplan
  have hpos := hr.pos
  refine .of_chunksLeft hr ?_
  change 1 + (2 * plan.length + 4) ≤ 4 + 3 * plan.length
  omega

end

/-! Each command, from the offer on -/

section
variable {s : State} {o : Offer} {offers : List Offer} (hs : Ready s) (hq : Quiet s) (ho : s.offered = o :: offers) (hwf : o.wf = true)
include hs hq ho hwf

/-- The step that accepts the command runs its meaning. -/
theorem step_offered : step s = exec (decodeCommand o.cmdw) s := stepRunsCommand s o offers hq hs.1 ho hwf

theorem pureCommand_run_completes (hx : ∀ f, decodeCommand o.cmdw ≠ .xferRd f ∧ decodeCommand o.cmdw ≠ .xferWr f) :
    ∃ t, CompletesIn offers 0 0 s t ∧ t.issued = [] := by
  obtain ⟨w, hw⟩ := decodeCommand_command o.cmdw
  obtain ⟨t, ht⟩ := exec_command_next hw s
  rcases pure_cases hw ⟨fun f => (hx f).1, fun f => (hx f).2⟩ ht with ⟨hne, -⟩ | ⟨-, e, hend⟩
  · exact absurd hs.1 hne
  · exact ⟨t, completed_at_acceptance hs ho e ((step_offered hs hq ho hwf).trans ht) hend⟩

variable {f : Fields} (hrun : RunInv s) (ha : TransportAnswers s)
include hrun ha

theorem xferRd_run_completes (hd : decodeCommand o.cmdw = .xferRd f) :
    ∃ j t, CompletesIn offers 0 j s t ∧ t.issued.length ≤ 24 := by
  obtain ⟨t, ht⟩ := execXferRd_next f s
  have hstep : step s = .next t := (step_offered hs hq ho hwf).trans (by rw [hd]; exact ht)
  rcases execXferRd_cases ht with ⟨hne, -⟩ | ⟨-, ⟨e, he⟩ | ⟨c, -, -, rfl⟩⟩
  · exact absurd hs.1 hne
  · obtain ⟨hc, hi⟩ := completed_at_acceptance hs ho e hstep ⟨_, _, _, he⟩
    exact ⟨0, t, hc, by rw [hi]; exact Nat.zero_le 24⟩
  · have hflight := inFlight_enterRaw (offers := offers) hrun hs hstep hq (by
      change s.offered.tail = offers
      rw [ho, List.tail_cons])
    obtain ⟨j, t, hj, ht⟩ := hflight.read_completes (latchOp_accept 6 f s) (ha.step hstep)
    exact ⟨j + 1, t, .of_step hstep hflight rfl hj, ht⟩

theorem xferWr_run_completes (hd : decodeCommand o.cmdw = .xferWr f) :
    ∃ j t, CompletesIn offers 0 j s t ∧
      ∀ opS opL t0 t1 plan, writeOpcodes f.kind = .ok (opS, opL) → wtInit o.desc f.kind (wtCounts s.wt) = .ok t0 →
        planLoop o.desc f.kind opS opL (numElements o.desc) t0 = .ok (t1, plan) → t.issued.length ≤ 4 + 3 * plan.length := by
  obtain ⟨t, ht⟩ := execXferWr_next f s
  have hstep : step s = .next t := (step_offered hs hq ho hwf).trans (by rw [hd]; exact ht)
  rcases execXferWr_cases ht with ⟨hne, -⟩ | ⟨-, ⟨e, he⟩ | ⟨⟨opS, opL⟩, x, hv, -, hop, hx, rfl⟩⟩
  · exact absurd hs.1 hne
  · obtain ⟨hc, hi⟩ := completed_at_acceptance hs ho e hstep ⟨_, _, _, he⟩
    exact ⟨0, t, hc, fun _ _ _ _ _ _ _ _ => by rw [hi]; exact Nat.zero_le _⟩
  · have hflight := inFlight_enterRaw (offers := offers) hrun hs hstep hq (by
      change s.offered.tail = offers
      rw [ho, List.tail_cons])
    obtain ⟨htrack, -⟩ := wtInit_tracking hx
    obtain ⟨t1, rest, hplan, -⟩ := planLoop_planFrom (opS := opS) (opL := opL) hv (numElements (portOperands s).desc) htrack
      (Nat.sub_le _ _)
    obtain ⟨j, t, hj, hmax⟩ := hflight.write_completes (latchOp_accept 7 f s) (startedWrite_withinBudget hv hx hplan) (ha.step hstep)
    refine ⟨j + 1, t, .of_step hstep hflight rfl hj, fun opS' opL' t0 t1' plan hop' ht0 hplan' => ?_⟩
    obtain rfl : portOperands s = o := portOperands_cons ho
    cases hop.symm.trans hop'
    cases hx.symm.trans ht0
    cases hplan.symm.trans hplan'
    exact hmax

end

/-- What `CompletesIn` says of the command offered first, in the words of the statement. -/
theorem CompletesIn.from_offer {offers : List Offer} {j : Nat} {s t : State} (h : CompletesIn offers 0 j s t) :
    Host.Core.run core (t.issued.length + 1) s = .next t ∧ t.phase = .idle ∧ t.done = true ∧ t.eosHeld = false ∧ t.offered = offers ∧
      ∀ n u, 1 ≤ n → n ≤ t.issued.length → Host.Core.run core n s = .next u → u.done = false ∧ u.issued.length = n := by
  obtain ⟨hrun, ⟨hp, hdone, hheld, ho⟩, hlen, hbefore⟩ := h
  rw [Nat.zero_add] at hlen
  subst hlen
  simp only [Nat.zero_add] at hbefore
  exact ⟨hrun, hp, hdone, hheld, ho, hbefore⟩

/-- Settles O11: by the command offered. A command that uses no transport ends at its acceptance; of a transfer the run invariant (a read) and
the chunks left of the plan (a write) bound the requests, so it ends too. -/
theorem everyCommandCompletes : Obligations.EveryCommandCompletes := by
  intro s o offers hrun hs hq ho hwf ha
  by_cases hrd : ∃ f, decodeCommand o.cmdw = .xferRd f
  · obtain ⟨f, hd⟩ := hrd
    obtain ⟨j, t, hj, hmax⟩ := xferRd_run_completes hs hq ho hwf hrun ha hd
    obtain ⟨hrun', hp, hdone, hheld, ho', hbefore⟩ := hj.from_offer
    refine ⟨t, hrun', hp, hdone, hheld, ho', hbefore, fun _ _ => hmax, ?_, fun hx => absurd hd (hx f).1⟩
    intro f' _ _ _ _ _ hd'
    rw [hd] at hd'; cases hd'
  by_cases hwr : ∃ f, decodeCommand o.cmdw = .xferWr f
  · obtain ⟨f, hd⟩ := hwr
    obtain ⟨j, t, hj, hmax⟩ := xferWr_run_completes hs hq ho hwf hrun ha hd
    obtain ⟨hrun', hp, hdone, hheld, ho', hbefore⟩ := hj.from_offer
    refine ⟨t, hrun', hp, hdone, hheld, ho', hbefore, fun f' hd' => absurd ⟨f', hd'⟩ hrd, ?_, fun hx => absurd hd (hx f).2⟩
    intro f' opS opL t0 t1 plan hd'
    rw [hd] at hd'; cases hd'
    exact hmax opS opL t0 t1 plan
  · obtain ⟨t, hj, hi⟩ := pureCommand_run_completes hs hq ho hwf fun f => ⟨fun hd => hrd ⟨f, hd⟩, fun hd => hwr ⟨f, hd⟩⟩
    obtain ⟨hrun', hp, hdone, hheld, ho', hbefore⟩ := hj.from_offer
    exact ⟨t, hrun', hp, hdone, hheld, ho', hbefore, fun f hd => absurd ⟨f, hd⟩ hrd,
      fun f _ _ _ _ _ hd => absurd ⟨f, hd⟩ hwr, fun _ => hi⟩

end Sys2Proof.Machine
end
